-- ==== Sys2Proof/Word.lean ====
section
/-!
DEFINITION. The word types of the machine (spec 00_scope R5, R9): registers, `PC`, CSRs and bus
addresses are patterns of 32 bits, memory is bytes, an instruction names a register by 5 bits.
-/

namespace Sys2Proof

/-- A 32-bit pattern: register value, `PC`, CSR value, bus address, instruction word (R5, R9). -/
abbrev Word := BitVec 32

/-- One byte of a device (R49, R50). -/
abbrev Byte := BitVec 8

/-- A general register number 0 to 31, as the `rd`, `rs1` and `rs2` fields hold it (R101). -/
abbrev RegId := BitVec 5

/-- A CSR number, the 12-bit field `csr` of the Zicsr instructions (R31, R109). -/
abbrev CsrNumber := BitVec 12

end Sys2Proof
end

