-- ==== Sys2Proof/Config.lean ====
section
/-!
DEFINITION. The parameters the spec leaves to the platform (00_scope R6, table of 92_eei_decisions):
`Platform` is what is fixed for the life of the bus and the CPU (R53), `Launch` the values used once,
when the machine is constructed (R54, R284). The spec leaves no result of an instruction open, so
there is no free value here.
-/

namespace Sys2Proof

/-- Eight 32-bit values, one for each CSR of the bank (R30): the CSRs themselves, their writable-bit
masks, or their reset values. -/
structure CsrBank where
  mstatus  : Word
  mie      : Word
  mtvec    : Word
  mscratch : Word
  mepc     : Word
  mcause   : Word
  mtval    : Word
  mip      : Word
deriving DecidableEq, Repr

/-- All eight 0: the default `RESET_CSR` (R6). -/
def CsrBank.zero : CsrBank :=
  { mstatus := 0, mie := 0, mtvec := 0, mscratch := 0, mepc := 0, mcause := 0, mtval := 0, mip := 0 }

/-- The default writable-bit masks `WMASK_*` of R6 and R30. Only that of `mstatus` is the source's
(in words, R33); the others are the spec's defaults (D9). -/
def CsrBank.defaultMasks : CsrBank :=
  { mstatus  := 0x00000088
    mie      := 0x00000888
    mtvec    := 0xFFFFFFFF
    mscratch := 0xFFFFFFFF
    mepc     := 0xFFFFFFFF
    mcause   := 0xFFFFFFFF
    mtval    := 0xFFFFFFFF
    mip      := 0x00000000 }

/-- What is fixed when the bus and the CPU are constructed and never changes after (R53). Addresses
and sizes are counts of bytes; a device occupies the half-open range from its start (R61). -/
structure Platform where
  /-- `RAM_BASE`: start address of the RAM device (R6, R84). -/
  ramBase  : Nat
  /-- `RAM_SIZE`: bytes of the RAM device (R6, OPEN). -/
  ramSize  : Nat
  /-- `IO_DEVICES`: the start address `IO_BASE` of each IO device (R6, OPEN). -/
  ioBases  : List Nat
  /-- `IO_SIZE`: bytes of every IO device's window (R6, R75). -/
  ioSize   : Nat
  /-- `IO_SHADOW`: whether an IO device has the output shadow (R6, R80). -/
  ioShadow : Bool
  /-- `WMASK_*`: the writable-bit masks of the eight CSRs (R6, R32, R33). -/
  wmask    : CsrBank
deriving DecidableEq, Repr

/-- The values a construction of the machine takes besides the platform (R54, R280, R284). -/
structure Launch where
  /-- `ENTRY`: the value placed in `PC` (R6, OPEN). -/
  entry        : Word
  /-- `IMAGE`: byte `k` is loaded at `ram[k]` (R285, OPEN). -/
  image        : List Byte
  /-- `HALT_ON_EBREAK`: initial halt-on-software-breakpoint flag (R6, OPEN). -/
  haltOnEbreak : Bool
  /-- `RESET_X`: value of `x1` to `x31` (R6). -/
  resetX       : Word
  /-- `RESET_CSR`: value of each CSR (R6). -/
  resetCsr     : CsrBank
deriving DecidableEq, Repr

/-- The platform `State.reset` is built on. `RAM_BASE`, `IO_SIZE`, `IO_SHADOW` and the masks are the
defaults of R6. DESIGN CHOICE (log entry 2): `RAM_SIZE` and `IO_DEVICES` are OPEN in the spec; the
values are those of the test configuration of spec/95_test_vectors.md. -/
def Platform.default : Platform :=
  { ramBase := 0, ramSize := 0x10000, ioBases := [0x10000000], ioSize := 12, ioShadow := false
    wmask := CsrBank.defaultMasks }

/-- The launch `State.reset` is built on. `RESET_X` and `RESET_CSR` are the defaults of R6. DESIGN
CHOICE (log entry 3): `ENTRY`, `IMAGE` and `HALT_ON_EBREAK` are OPEN in the spec; no image is loaded. -/
def Launch.default : Launch :=
  { entry := 0, image := [], haltOnEbreak := true, resetX := 0, resetCsr := CsrBank.zero }

end Sys2Proof
end

