-- ==== Sys2Proof/Machine/State.lean ====
section
/-!
DEFINITION. The state of the machine as plain data (10_state R20), the reasons a step stops (60_exceptions
R251 to R256) and the state right after reset (R54).
-/

namespace Sys2Proof.Machine

/-- The RAM device's bytes (R49): (offset in the device, byte) pairs with rising offsets, none of them
0, which is what an unlisted offset reads as (R54, R286; log entry 5). -/
abbrev Memory := List Host.Cell

/-- `x[1]` to `x[31]` (R20, R21); index `n` holds `x[n+1]`. `x[0]` has no storage. -/
abbrev RegFile := Vector Word 31

/-- The state of one IO console/keyboard device (R50). -/
structure IoState where
  /-- Input bytes waiting, oldest first (R50, R78, R79). -/
  inFifo : List Byte
  /-- Every output byte so far, oldest first (R50, R304). -/
  outLog : List Byte
  /-- The output shadow, used only when `IO_SHADOW` (R50, R80; log entry 20). -/
  shadow : Vector Byte 4
deriving DecidableEq, Repr

/-- A fresh IO device (R50 "Reset", R54). -/
def IoState.reset : IoState := { inFifo := [], outLog := [], shadow := Vector.replicate 4 0 }

/-- A notification of the CPU to its host (48_host_interface R303). -/
inductive Event where
  /-- ECALL: `x17`, and `x10` to `x16` in order (R235). -/
  | syscall (num : Word) (args : Vector Word 7)
  /-- EBREAK: the address of the EBREAK itself (R236). -/
  | breakpoint (addr : Word)
  /-- An unrecognised word: its address and its 32 bits (R239). -/
  | diagnostic (addr word : Word)
deriving DecidableEq, Repr

/-- The whole state of the machine (R20). -/
structure State where
  /-- The platform the machine was built on; no step changes it (R53; log entry 1). -/
  cfg          : Platform
  /-- `x[1]` to `x[31]` (R21, R22). -/
  regs         : RegFile
  /-- `PC`: between steps the address of the next instruction (R24). -/
  pc           : Word
  /-- `halted` (R26). -/
  halted       : Bool
  /-- `halt_on_ebreak` (R27). -/
  haltOnEbreak : Bool
  /-- `waiting` (R28). -/
  waiting      : Bool
  /-- The CSR bank (R30 to R41). -/
  csrs         : CsrBank
  /-- `resv`: the reserved address while the reservation is valid (R45; log entry 9). -/
  resv         : Option Word
  /-- The RAM device (R49). -/
  ram          : Memory
  /-- The IO devices, in the order of the platform's list (R50). -/
  io           : List IoState
  /-- The notifications so far, oldest first (R51). -/
  events       : List Event
deriving DecidableEq, Repr

/-- A failure reported to the host, after which the run is over (R252). Each carries the value `PC` is
left with; nothing else of the state before the step has changed (R252 (c), `Fault.stateLeft`). The
spec gives these errors, so stopping here is what the machine does: safe. -/
inductive Fault where
  /-- No device owns the address, or the access runs past the owner's end. Raised by the fetch, loads,
  stores, LR.W, AMO*.W and SC.W's success path (R253). Safe. -/
  | unmappedAddress (addr pcLeft : Word)
  /-- A bus access of a size other than 1, 2, 4. Raised by no instruction, only by a host that calls
  the bus directly (R254). Safe. -/
  | invalidSize (size : Nat) (pcLeft : Word)
  /-- A CSR number outside the eight. Raised by the six Zicsr instructions (R255). Safe. -/
  | unsupportedCsr (number : CsrNumber) (pcLeft : Word)
deriving DecidableEq, Repr

/-- The machine is given no successor state by the spec (R256), or not yet by the model. All safe:
nothing can be proved of a run that meets one. -/
inductive Refusal where
  /-- An instruction whose meaning is not written yet. Raised by `exec`'s refused arms only. Safe. -/
  | notModelled (mnemonic : String)
  /-- An IO device access the source does not define. Raised by loads, stores, atomics and the fetch at
  an IO device, and by direct bus calls (R81, R256). Safe. -/
  | ioUnspecified (addr : Word) (size : Nat) (isWrite : Bool)
  /-- LR.W or AMO*.W at an address that is not a multiple of 4. Raised by those ten (R210, R212, R256).
  Safe. -/
  | atomicMisaligned (addr : Word)
  /-- The host enqueues a character into a device the platform does not have. Raised by `enqueue` only
  (log entry 14). Safe. -/
  | noSuchDevice (index : Nat)
deriving DecidableEq, Repr

/-- What an instruction or a step answers. -/
abbrev Result := Host.Outcome State Fault Refusal

/-- The machine right after reset (R54), on the platform and with the launch values of log entries 2
and 3: `x1` to `x31` and the CSRs 0, Running, no reservation, RAM zero, queues, logs and events empty. -/
def State.reset : State :=
  { cfg          := Platform.default
    regs         := Vector.replicate 31 Launch.default.resetX
    pc           := Launch.default.entry
    halted       := false
    haltOnEbreak := Launch.default.haltOnEbreak
    waiting      := false
    csrs         := Launch.default.resetCsr
    resv         := none
    ram          := []
    io           := [IoState.reset]
    events       := [] }

end Sys2Proof.Machine
end

