-- ==== Sys2Proof/Machine/Flags.lean ====
section
/-!
DEFINITION. There are no condition codes (10_state R29). What stands in their place: the comparisons
that SLT and the branches use (41 R150 (c), 42 R183 to R188), and the one-bit fields of `mstatus`, `mie`
and `mip` (10_state R34 to R36) with the trap condition over them (60_exceptions R260).
-/

namespace Sys2Proof.Machine

/-- `s(a) < s(b)` (R9, R150 (c)). -/
def signedLess (a b : Word) : Bool := decide (a.toInt < b.toInt)

/-- `u(a) < u(b)` (R9, R150 (c)). -/
def unsignedLess (a b : Word) : Bool := decide (a.toNat < b.toNat)

/-- A comparison as a register value: 1 or 0 (R29). -/
def flagWord (c : Bool) : Word := if c then 1 else 0

/-- `v` with bit `i` set to `b`, every other bit kept. -/
def setBit (v : Word) (i : Nat) (b : Bool) : Word :=
  if b then v ||| (1#32 <<< i) else v &&& ~~~(1#32 <<< i)

/-- Bit 3 of `mstatus`, the global interrupt enable (R34). -/
def bitMIE : Nat := 3
/-- Bit 7 of `mstatus`, the saved enable (R34). -/
def bitMPIE : Nat := 7
/-- Bit 11 of `mie` and of `mip`, the external interrupt (R35, R36). -/
def bitExternal : Nat := 11

/-- `mstatus.MIE` (R34). -/
def State.mieFlag (s : State) : Bool := s.csrs.mstatus.getLsbD bitMIE
/-- `mstatus.MPIE` (R34). -/
def State.mpieFlag (s : State) : Bool := s.csrs.mstatus.getLsbD bitMPIE
/-- `mie.MEIE` (R35). -/
def State.meieFlag (s : State) : Bool := s.csrs.mie.getLsbD bitExternal
/-- `mip.MEIP` (R36). -/
def State.meipFlag (s : State) : Bool := s.csrs.mip.getLsbD bitExternal

/-- `take_trap` of R260: the global enable, the external enable and the external pending bit are all 1. -/
def State.trapPending (s : State) : Bool := s.mieFlag && s.meieFlag && s.meipFlag

end Sys2Proof.Machine
end

