-- ==== Sys2Proof/Machine/Bytes.lean ====
section
/-!
DEFINITION. The byte order, decided once (20_memory R70, R73: little-endian, the byte at the lowest
address is the least significant; R76: output "least-significant byte first").
-/

namespace Sys2Proof

/-- Byte `k` of a word: bits `8k+7` down to `8k`. -/
def byteOfWord (v : Word) (k : Nat) : Byte := v.extractLsb' (8 * k) 8

/-- The low `n` bytes of a word in ascending address order (R67: byte `k` is `v[8k+7 : 8k]`). -/
def leBytes (n : Nat) (v : Word) : List Byte := (List.range n).map (byteOfWord v)

/-- Bytes in ascending address order read as one number, zero-extended to 32 bits (R66, R70). -/
def ofLeBytes : List Byte → Word
  | [] => 0
  | b :: bs => b.setWidth 32 ||| (ofLeBytes bs <<< 8)

end Sys2Proof
end

