-- ==== Sys2Proof/Machine/Memory.lean ====
section
/-!
DEFINITION. The RAM device's byte store (20_memory R70 to R72) on its canonical form.
-/

namespace Sys2Proof.Machine

/-- The canonical form: offsets strictly rising and no byte equal to what an unlisted offset reads as. -/
def Memory.wf : Memory → Bool
  | [] => true
  | (k, b) :: rest => b != 0 && (rest.all fun c => decide (k < c.1)) && Memory.wf rest

/-- One byte; an unlisted offset reads as 0 (R54, R286; log entry 5). -/
def Memory.readByte : Memory → Nat → Byte
  | [], _ => 0
  | (k, b) :: rest, off => if off = k then b else Memory.readByte rest off

/-- Writes one byte, keeping the canonical form: writing 0 removes the entry. -/
def Memory.writeByte : Memory → Nat → Byte → Memory
  | [], off, v => if v = 0 then [] else [(off, v)]
  | (k, b) :: rest, off, v =>
    if off < k then
      if v = 0 then (k, b) :: rest else (off, v) :: (k, b) :: rest
    else if off = k then
      if v = 0 then rest else (off, v) :: rest
    else (k, b) :: Memory.writeByte rest off v

/-- The `n` bytes from `off` in ascending order. -/
def Memory.readBytes (m : Memory) (off n : Nat) : List Byte :=
  (List.range n).map fun k => m.readByte (off + k)

/-- Writes the bytes from `off` upward (R72). -/
def Memory.writeBytes : Memory → Nat → List Byte → Memory
  | m, _, [] => m
  | m, off, b :: bs => Memory.writeBytes (m.writeByte off b) (off + 1) bs

/-- `n` bytes read as a little-endian number, zero-extended (R66, R70). -/
def Memory.readLe (m : Memory) (off n : Nat) : Word := ofLeBytes (m.readBytes off n)

/-- Stores the low `n` bytes of `v`, least significant first (R67, R72). -/
def Memory.writeLe (m : Memory) (off n : Nat) (v : Word) : Memory := m.writeBytes off (leBytes n v)

end Sys2Proof.Machine
end

