-- ==== Sys2Proof/Machine/Operands.lean ====
section
/-!
DEFINITION. Operand forms: extension (00_scope R10), the immediates as 32-bit operands (30_encoding R103 to
R111), register operands (10_state R21, R22) and effective addresses (43_load_store R190, R199).
-/

namespace Sys2Proof.Machine

/-- `sext_8` of the low byte (R10). -/
def sext8 (v : Word) : Word := (v.extractLsb' 0 8).signExtend 32

/-- `sext_16` of the low halfword (R10). -/
def sext16 (v : Word) : Word := (v.extractLsb' 0 16).signExtend 32

/-- `zext_8` of the low byte (R10). -/
def zext8 (v : Word) : Word := (v.extractLsb' 0 8).setWidth 32

/-- `zext_16` of the low halfword (R10). -/
def zext16 (v : Word) : Word := (v.extractLsb' 0 16).setWidth 32

/-- `imm_I` and `imm_S`: `sext_12` (R103, R104). -/
def immISValue (imm : BitVec 12) : Word := imm.signExtend 32

/-- `imm_B`: `sext_13` (R105). -/
def immBValue (imm : BitVec 13) : Word := imm.signExtend 32

/-- `imm_J`: `sext_21` (R107). -/
def immJValue (imm : BitVec 21) : Word := imm.signExtend 32

/-- `imm_U`: the 20 bits in the upper part, the low 12 bits zero (R106). -/
def immUValue (imm : BitVec 20) : Word := imm ++ 0#12

/-- `uimm`: `zext_5` (R109). -/
def uimmValue (uimm : BitVec 5) : Word := uimm.setWidth 32

/-- Read of a register of the file; `x[0]` is the constant 0 (R21). -/
def RegFile.read (f : RegFile) (r : RegId) : Word :=
  match r.toNat with
  | 0 => 0
  | n + 1 => f.getD n 0

/-- Write of a register of the file; a write of `x[0]` has no effect (R22). -/
def RegFile.write (f : RegFile) (r : RegId) (v : Word) : RegFile :=
  match r.toNat with
  | 0 => f
  | n + 1 => f.setIfInBounds n v

/-- `x[r]` (R11, R21). -/
def State.readReg (s : State) (r : RegId) : Word := s.regs.read r

/-- `x[r] <- v` (R11, R22). -/
def State.writeReg (s : State) (r : RegId) (v : Word) : State := { s with regs := s.regs.write r v }

/-- The address of a load or store: `x[rs1] + sext_12(imm)` modulo 2^32 (R190 (a), R199 (a)). -/
def State.effectiveAddress (s : State) (rs1 : RegId) (imm : BitVec 12) : Word :=
  s.readReg rs1 + immISValue imm

end Sys2Proof.Machine
end

