-- ==== Sys2Proof/Machine/Ops.lean ====
section
/-!
DEFINITION. The shared operations: `PC` and retirement (40_step_cycle R134, R137, R138), the CSR bank
(10_state R30 to R33, R42), the bus and its devices (20_memory R61 to R82), notifications (R303), the
trap and the return from it (60_exceptions R259 to R263). An instruction runs on the state in which `PC`
still holds its own address `pc`; retiring it sets `PC` to `pc + 4` or to the target (log entry 6).
-/

namespace Sys2Proof.Machine

/-! ### `PC` and retirement -/

/-- `PC <- v`. -/
def State.setPc (s : State) (v : Word) : State := { s with pc := v }

/-- `pc + 4` modulo 2^32 (R25, R134). -/
def State.nextPc (s : State) : Word := s.pc + 4

/-- The instruction completes and `PC` is `pc + 4` (R134, R138). -/
def State.retire (s : State) : Result := .next (s.setPc s.nextPc)

/-- The instruction completes with `x[rd] <- v` and `PC = pc + 4` (R137 (ii)). -/
def State.retireReg (s : State) (rd : RegId) (v : Word) : Result := (s.writeReg rd v).retire

/-- The state a fault leaves behind: the state before the step with `PC` as the fault says (R252 (c)). -/
def Fault.stateLeft (f : Fault) (s : State) : State :=
  match f with
  | .unmappedAddress _ p => s.setPc p
  | .invalidSize _ p => s.setPc p
  | .unsupportedCsr _ p => s.setPc p

/-! ### The CSR bank -/

/-- The eight CSRs (R30). -/
inductive Csr where
  | mstatus | mie | mtvec | mscratch | mepc | mcause | mtval | mip
deriving DecidableEq, Repr

/-- The CSR a number names; every other number is unsupported (R30, R31). -/
def Csr.ofNumber (n : CsrNumber) : Option Csr :=
  if n = 0x300 then some .mstatus
  else if n = 0x304 then some .mie
  else if n = 0x305 then some .mtvec
  else if n = 0x340 then some .mscratch
  else if n = 0x341 then some .mepc
  else if n = 0x342 then some .mcause
  else if n = 0x343 then some .mtval
  else if n = 0x344 then some .mip
  else none

/-- The entry of a bank for a CSR. -/
def CsrBank.get (b : CsrBank) : Csr → Word
  | .mstatus => b.mstatus
  | .mie => b.mie
  | .mtvec => b.mtvec
  | .mscratch => b.mscratch
  | .mepc => b.mepc
  | .mcause => b.mcause
  | .mtval => b.mtval
  | .mip => b.mip

/-- The bank with one entry replaced. -/
def CsrBank.set (b : CsrBank) (c : Csr) (v : Word) : CsrBank :=
  match c with
  | .mstatus => { b with mstatus := v }
  | .mie => { b with mie := v }
  | .mtvec => { b with mtvec := v }
  | .mscratch => { b with mscratch := v }
  | .mepc => { b with mepc := v }
  | .mcause => { b with mcause := v }
  | .mtval => { b with mtval := v }
  | .mip => { b with mip := v }

/-- `csr[c]`; reading changes nothing (R43). -/
def State.readCsr (s : State) (c : Csr) : Word := CsrBank.get s.csrs c

/-- A hardware write, past the masks (R42). -/
def State.setCsr (s : State) (c : Csr) (v : Word) : State := { s with csrs := CsrBank.set s.csrs c v }

/-- `(old & ~mask) | (v & mask)`: bits outside the mask are kept (R32). -/
def maskedWrite (old mask v : Word) : Word := (old &&& ~~~mask) ||| (v &&& mask)

/-- A write by a Zicsr instruction, through the CSR's writable-bit mask (R32). -/
def State.writeCsr (s : State) (c : Csr) (v : Word) : State :=
  s.setCsr c (maskedWrite (s.readCsr c) (CsrBank.get s.cfg.wmask c) v)

/-! ### Interrupt signals, the trap and the return from it -/

/-- The two signals a device raises and the bus re-emits (R61, R82, R259). -/
inductive IrqSignal where
  | request
  | clear
deriving DecidableEq, Repr

/-- The pending bit follows the signal at once, past `WMASK_mip` (R259). -/
def State.signalIrq (s : State) : IrqSignal → State
  | .request => s.setCsr .mip (setBit s.csrs.mip bitExternal true)
  | .clear => s.setCsr .mip (setBit s.csrs.mip bitExternal false)

/-- `v & 0xFFFFFFFC`: aligned down to a multiple of 4 (R37, R38). -/
def alignDown4 (v : Word) : Word := v &&& 0xFFFFFFFC

/-- `mcause` of the external interrupt: top bit set, code 11 (R261). -/
def causeExternal : Word := 0x8000000B

/-- Trap entry (R262): `mepc` takes the aligned `PC`, `mcause` the cause, MPIE the old MIE, MIE 0,
`mtval` 0, `PC` the aligned `mtvec`, `waiting` 0. -/
def State.takeTrap (s : State) : State :=
  { s with
    csrs :=
      { s.csrs with
        mepc := alignDown4 s.pc
        mcause := causeExternal
        mstatus := setBit (setBit s.csrs.mstatus bitMPIE s.mieFlag) bitMIE false
        mtval := 0 }
    pc := alignDown4 s.csrs.mtvec
    waiting := false }

/-- Trap return (R238, R263): MIE takes MPIE, MPIE 1, `PC` takes `mepc` unmasked. -/
def State.trapReturn (s : State) : State :=
  { s with
    csrs := { s.csrs with mstatus := setBit (setBit s.csrs.mstatus bitMIE s.mpieFlag) bitMPIE true }
    pc := s.csrs.mepc }

/-! ### Notifications -/

/-- `notify e` (R11, R51, R303). -/
def State.notify (s : State) (e : Event) : State := { s with events := s.events ++ [e] }

/-! ### The bus -/

/-- The three access sizes (R5, R65). -/
inductive Size where
  | byte | half | word
deriving DecidableEq, Repr

/-- The size in bytes. -/
def Size.bytes : Size → Nat
  | .byte => 1
  | .half => 2
  | .word => 4

/-- The size a number of bytes names; every other number is unsupported (R65). -/
def Size.ofBytes (n : Nat) : Option Size :=
  if n = 1 then some .byte else if n = 2 then some .half else if n = 4 then some .word else none

/-- A device of the bus: the RAM device or the IO device at a place of the platform's list (R61). -/
inductive Device where
  | ram
  | io (index : Nat)
deriving DecidableEq, Repr

/-- An address lies in the half-open range of `size` bytes from `start` (R61). -/
def inRange (start size addr : Nat) : Bool := decide (start ≤ addr) && decide (addr < start + size)

/-- The place, counted from `index`, of the first IO device of the list that owns the address, and its
start address. -/
def ioOwner (ioSize addr : Nat) : List Nat → Nat → Option (Nat × Nat)
  | [], _ => none
  | b :: rest, index =>
    if inRange b ioSize addr then some (index, b) else ioOwner ioSize addr rest (index + 1)

/-- The owner of an address with its start and end address (R63). -/
def Platform.owner (p : Platform) (addr : Nat) : Option (Device × Nat × Nat) :=
  if inRange p.ramBase p.ramSize addr then some (.ram, p.ramBase, p.ramBase + p.ramSize)
  else
    match ioOwner p.ioSize addr p.ioBases 0 with
    | some (index, b) => some (.io index, b, b + p.ioSize)
    | none => none

/-- Routing of an access of `n` bytes: the owner of its first address and the offset in it, or nothing
when there is no owner or the access runs past the owner's end (R63, R64, R68). -/
def Platform.route (p : Platform) (addr : Word) (n : Nat) : Option (Device × Nat) :=
  match Platform.owner p addr.toNat with
  | some (d, start, stop) => if addr.toNat + n ≤ stop then some (d, addr.toNat - start) else none
  | none => none

/-- Why a bus access does not complete. -/
inductive BusError where
  /-- `UnmappedAddress(addr)` (R253). -/
  | unmapped (addr : Word)
  /-- `IoUnspecified` (R256): address, size, whether a write. -/
  | ioUnspecified (addr : Word) (size : Nat) (isWrite : Bool)
deriving DecidableEq, Repr

/-- The step's outcome for a bus error, with the value `PC` is left with (R252, R256). -/
def BusError.result (e : BusError) (pcLeft : Word) : Result :=
  match e with
  | .unmapped a => .fault (.unmappedAddress a pcLeft)
  | .ioUnspecified a n w => .refused (.ioUnspecified a n w)

/-- The state of the IO device at a place of the list (log entry 21). -/
def State.ioState (s : State) (index : Nat) : IoState := s.io.getD index IoState.reset

/-- Replaces the state of the IO device at a place of the list. -/
def State.setIoState (s : State) (index : Nat) (d : IoState) : State :=
  { s with io := s.io.set index d }

/-- The `n` shadow bytes from an offset, in ascending order (R80). -/
def shadowBytes (sh : Vector Byte 4) (off n : Nat) : List Byte :=
  (List.range n).map fun k => sh.getD (off + k) 0

/-- The shadow after a write of bytes at offset 0 (R76). -/
def shadowWrite (sh : Vector Byte 4) (bs : List Byte) : Vector Byte 4 :=
  Vector.ofFn fun k : Fin 4 => bs.getD k.val (sh.getD k.val 0)

/-- `IoRead` (R78, R80, R81): a byte read at offset 8 pops the queue or gives 0; with the shadow, a read
inside offsets 0 to 3 gives its bytes; anything else is not defined. -/
def ioRead (hasShadow : Bool) (d : IoState) (off : Nat) (sz : Size) : Option (Word × IoState) :=
  if off = 8 ∧ sz = .byte then
    match d.inFifo with
    | [] => some (0, d)
    | c :: rest => some (c.setWidth 32, { d with inFifo := rest })
  else if hasShadow = true ∧ off + sz.bytes ≤ 4 then
    some (ofLeBytes (shadowBytes d.shadow off sz.bytes), d)
  else none

/-- `IoWrite` (R76, R77, R81): a write at offset 0 emits its bytes; a word write of 0 at offset 4 raises
"interrupt cleared"; anything else is not defined. -/
def ioWrite (hasShadow : Bool) (d : IoState) (off : Nat) (sz : Size) (v : Word) :
    Option (IoState × Option IrqSignal) :=
  if off = 0 then
    let bs := leBytes sz.bytes v
    some
      ({ d with
          outLog := d.outLog ++ bs
          shadow := if hasShadow then shadowWrite d.shadow bs else d.shadow },
        none)
  else if off = 4 ∧ sz = .word ∧ v = 0 then some (d, some .clear)
  else none

/-- `MemRead` (R66): the value zero-extended to 32 bits, and the state after (an IO read may pop). -/
def State.memRead (s : State) (addr : Word) (sz : Size) : Except BusError (Word × State) :=
  match Platform.route s.cfg addr sz.bytes with
  | none => .error (.unmapped addr)
  | some (.ram, off) => .ok (s.ram.readLe off sz.bytes, s)
  | some (.io index, off) =>
    match ioRead s.cfg.ioShadow (s.ioState index) off sz with
    | some (v, d) => .ok (v, s.setIoState index d)
    | none => .error (.ioUnspecified addr sz.bytes false)

/-- The device's part of `MemWrite` (R67), before the reservation is invalidated. -/
def State.deviceWrite (s : State) (addr : Word) (sz : Size) (v : Word) : Except BusError State :=
  match Platform.route s.cfg addr sz.bytes with
  | none => .error (.unmapped addr)
  | some (.ram, off) => .ok { s with ram := s.ram.writeLe off sz.bytes v }
  | some (.io index, off) =>
    match ioWrite s.cfg.ioShadow (s.ioState index) off sz v with
    | some (d, none) => .ok (s.setIoState index d)
    | some (d, some sig) => .ok ((s.setIoState index d).signalIrq sig)
    | none => .error (.ioUnspecified addr sz.bytes true)

/-- `resv.valid <- 0` (R45, R46). -/
def State.dropReservation (s : State) : State := { s with resv := none }

/-- `MemWrite` (R67): the write, then the reservation is invalidated, whatever the device. -/
def State.memWrite (s : State) (addr : Word) (sz : Size) (v : Word) : Except BusError State :=
  match s.deviceWrite addr sz v with
  | .ok t => .ok t.dropReservation
  | .error e => .error e

end Sys2Proof.Machine
end

