-- ==== Sys2Proof/Machine/Atomic.lean ====
section
/-!
DEFINITION. Atomic instructions (45_atomics R210 to R222). The ordering bits `aq` and `rl` change nothing
(R213), so no meaning takes them.
-/

namespace Sys2Proof.Machine

/-- The address is a multiple of 4 (R210, R212: `a[1:0] = 0`). -/
def wordAligned (a : Word) : Bool := a.extractLsb' 0 2 == 0#2

/-- R210: read, reserve the address, write `rd`. -/
def execLrW (rd rs1 : RegId) (s : State) : Result :=
  let a := s.readReg rs1
  if wordAligned a then
    match s.memRead a .word with
    | .error e => e.result s.nextPc
    | .ok (v, t) => { t with resv := some a }.retireReg rd v
  else .refused (.atomicMisaligned a)

/-- R211: with a valid reservation at exactly this address, write and answer 0; otherwise answer 1
without a bus access. The reservation is gone either way. -/
def execScW (rd rs1 rs2 : RegId) (s : State) : Result :=
  let a := s.readReg rs1
  if s.resv = some a then
    match s.memWrite a .word (s.readReg rs2) with
    | .error e => e.result s.nextPc
    | .ok t => t.dropReservation.retireReg rd 0
  else s.dropReservation.retireReg rd 1

/-- R212: read the word, write `op(t, b)` at the same address, `rd` takes the word read. -/
def amo (op : Word → Word → Word) (rd rs1 rs2 : RegId) (s : State) : Result :=
  let a := s.readReg rs1
  let b := s.readReg rs2
  if wordAligned a then
    match s.memRead a .word with
    | .error e => e.result s.nextPc
    | .ok (t, s1) =>
      match s1.memWrite a .word (op t b) with
      | .error e => e.result s.nextPc
      | .ok s2 => s2.retireReg rd t
  else .refused (.atomicMisaligned a)

/-- R214. -/
def execAmoswapW (rd rs1 rs2 : RegId) (s : State) : Result := amo (fun _ b => b) rd rs1 rs2 s
/-- R215. -/
def execAmoaddW (rd rs1 rs2 : RegId) (s : State) : Result := amo (fun t b => t + b) rd rs1 rs2 s
/-- R216. -/
def execAmoxorW (rd rs1 rs2 : RegId) (s : State) : Result := amo (fun t b => t ^^^ b) rd rs1 rs2 s
/-- R217. -/
def execAmoandW (rd rs1 rs2 : RegId) (s : State) : Result := amo (fun t b => t &&& b) rd rs1 rs2 s
/-- R218. -/
def execAmoorW (rd rs1 rs2 : RegId) (s : State) : Result := amo (fun t b => t ||| b) rd rs1 rs2 s
/-- R219. -/
def execAmominW (rd rs1 rs2 : RegId) (s : State) : Result :=
  amo (fun t b => if t.toInt ≤ b.toInt then t else b) rd rs1 rs2 s
/-- R220. -/
def execAmomaxW (rd rs1 rs2 : RegId) (s : State) : Result :=
  amo (fun t b => if b.toInt ≤ t.toInt then t else b) rd rs1 rs2 s
/-- R221. -/
def execAmominuW (rd rs1 rs2 : RegId) (s : State) : Result :=
  amo (fun t b => if t.toNat ≤ b.toNat then t else b) rd rs1 rs2 s
/-- R222. -/
def execAmomaxuW (rd rs1 rs2 : RegId) (s : State) : Result :=
  amo (fun t b => if b.toNat ≤ t.toNat then t else b) rd rs1 rs2 s

end Sys2Proof.Machine
end

