-- ==== Sys2Proof/Machine/Control.lean ====
section
/-!
DEFINITION. Control transfer (42_control_transfer R180 to R188). Targets of JAL and the branches are
relative to the instruction's own address (R182 (a)).
-/

namespace Sys2Proof.Machine

/-- `v & 0xFFFFFFFE`: bit 0 cleared (R180, R181). -/
def clearBit0 (v : Word) : Word := v &&& 0xFFFFFFFE

/-- Link, then jump: `x[rd] <- pc + 4`, then `pc <- target` (R137, R182 (b), (g)). -/
def jumpAndLink (rd : RegId) (target : Word) (s : State) : Result :=
  .next ((s.writeReg rd s.nextPc).setPc target)

/-- A conditional branch: the target `pc + imm_B` is not masked (R182 (d)). -/
def branch (cond : Word → Word → Bool) (rs1 rs2 : RegId) (imm : BitVec 13) (s : State) : Result :=
  if cond (s.readReg rs1) (s.readReg rs2) then .next (s.setPc (s.pc + immBValue imm)) else s.retire

/-- R180. -/
def execJal (rd : RegId) (imm : BitVec 21) (s : State) : Result :=
  jumpAndLink rd (clearBit0 (s.pc + immJValue imm)) s

/-- R181: the target uses the value of `rs1` read before the link is written. -/
def execJalr (rd rs1 : RegId) (imm : BitVec 12) (s : State) : Result :=
  jumpAndLink rd (clearBit0 (s.readReg rs1 + immISValue imm)) s

/-- R183. -/
def execBeq (rs1 rs2 : RegId) (imm : BitVec 13) (s : State) : Result :=
  branch (fun a b => a == b) rs1 rs2 imm s
/-- R184. -/
def execBne (rs1 rs2 : RegId) (imm : BitVec 13) (s : State) : Result :=
  branch (fun a b => a != b) rs1 rs2 imm s
/-- R185. -/
def execBlt (rs1 rs2 : RegId) (imm : BitVec 13) (s : State) : Result :=
  branch signedLess rs1 rs2 imm s
/-- R186. -/
def execBge (rs1 rs2 : RegId) (imm : BitVec 13) (s : State) : Result :=
  branch (fun a b => !signedLess a b) rs1 rs2 imm s
/-- R187. -/
def execBltu (rs1 rs2 : RegId) (imm : BitVec 13) (s : State) : Result :=
  branch unsignedLess rs1 rs2 imm s
/-- R188. -/
def execBgeu (rs1 rs2 : RegId) (imm : BitVec 13) (s : State) : Result :=
  branch (fun a b => !unsignedLess a b) rs1 rs2 imm s

end Sys2Proof.Machine
end

