-- ==== Sys2Proof/Machine/Integer.lean ====
section
/-!
DEFINITION. Base integer computational instructions (41_integer_computational R150 to R171). The operands
`a = x[rs1]` and `b = x[rs2]` are read before the register write (40_step_cycle R136).
-/

namespace Sys2Proof.Machine

/-- A register-register instruction: `x[rd] <- f(a, b)`. -/
def opReg (f : Word → Word → Word) (rd rs1 rs2 : RegId) (s : State) : Result :=
  s.retireReg rd (f (s.readReg rs1) (s.readReg rs2))

/-- A register-immediate instruction: `x[rd] <- f(a, imm_I)` (R103). -/
def opImm (f : Word → Word → Word) (rd rs1 : RegId) (imm : BitVec 12) (s : State) : Result :=
  s.retireReg rd (f (s.readReg rs1) (immISValue imm))

/-- A shift-immediate instruction: `x[rd] <- f(a, shamt)` (R108). -/
def opShift (f : Word → Nat → Word) (rd rs1 : RegId) (shamt : BitVec 5) (s : State) : Result :=
  s.retireReg rd (f (s.readReg rs1) shamt.toNat)

/-- The shift amount of the register forms: the low 5 bits of `b` (R150 (d)). -/
def shiftAmount (b : Word) : Nat := (b.extractLsb' 0 5).toNat

/-- `(a << n)[31:0]` (R159, R164). -/
def shiftLeft (a : Word) (n : Nat) : Word := a <<< n
/-- `u(a) >> n`, zeros enter at the top (R160, R168). -/
def shiftRightLogical (a : Word) (n : Nat) : Word := a >>> n
/-- `trunc32(floor(s(a) / 2^n))`, copies of bit 31 enter at the top (R161, R169). -/
def shiftRightArithmetic (a : Word) (n : Nat) : Word := a.sshiftRight n

/-- R151: `x[rd] <- imm_U`. -/
def execLui (rd : RegId) (imm : BitVec 20) (s : State) : Result := s.retireReg rd (immUValue imm)

/-- R152: `x[rd] <- pc + imm_U`, `pc` the instruction's own address. -/
def execAuipc (rd : RegId) (imm : BitVec 20) (s : State) : Result :=
  s.retireReg rd (s.pc + immUValue imm)

/-- R153. -/
def execAddi (rd rs1 : RegId) (imm : BitVec 12) (s : State) : Result :=
  opImm (fun a i => a + i) rd rs1 imm s
/-- R154. -/
def execSlti (rd rs1 : RegId) (imm : BitVec 12) (s : State) : Result :=
  opImm (fun a i => flagWord (signedLess a i)) rd rs1 imm s
/-- R155: the immediate is sign-extended, then read as unsigned. -/
def execSltiu (rd rs1 : RegId) (imm : BitVec 12) (s : State) : Result :=
  opImm (fun a i => flagWord (unsignedLess a i)) rd rs1 imm s
/-- R156. -/
def execXori (rd rs1 : RegId) (imm : BitVec 12) (s : State) : Result :=
  opImm (fun a i => a ^^^ i) rd rs1 imm s
/-- R157. -/
def execOri (rd rs1 : RegId) (imm : BitVec 12) (s : State) : Result :=
  opImm (fun a i => a ||| i) rd rs1 imm s
/-- R158. -/
def execAndi (rd rs1 : RegId) (imm : BitVec 12) (s : State) : Result :=
  opImm (fun a i => a &&& i) rd rs1 imm s

/-- R159. -/
def execSlli (rd rs1 : RegId) (shamt : BitVec 5) (s : State) : Result :=
  opShift shiftLeft rd rs1 shamt s
/-- R160. -/
def execSrli (rd rs1 : RegId) (shamt : BitVec 5) (s : State) : Result :=
  opShift shiftRightLogical rd rs1 shamt s
/-- R161. -/
def execSrai (rd rs1 : RegId) (shamt : BitVec 5) (s : State) : Result :=
  opShift shiftRightArithmetic rd rs1 shamt s

/-- R162. -/
def execAdd (rd rs1 rs2 : RegId) (s : State) : Result := opReg (fun a b => a + b) rd rs1 rs2 s
/-- R163. -/
def execSub (rd rs1 rs2 : RegId) (s : State) : Result := opReg (fun a b => a - b) rd rs1 rs2 s
/-- R164. -/
def execSll (rd rs1 rs2 : RegId) (s : State) : Result :=
  opReg (fun a b => shiftLeft a (shiftAmount b)) rd rs1 rs2 s
/-- R165. -/
def execSlt (rd rs1 rs2 : RegId) (s : State) : Result :=
  opReg (fun a b => flagWord (signedLess a b)) rd rs1 rs2 s
/-- R166. -/
def execSltu (rd rs1 rs2 : RegId) (s : State) : Result :=
  opReg (fun a b => flagWord (unsignedLess a b)) rd rs1 rs2 s
/-- R167. -/
def execXor (rd rs1 rs2 : RegId) (s : State) : Result := opReg (fun a b => a ^^^ b) rd rs1 rs2 s
/-- R168. -/
def execSrl (rd rs1 rs2 : RegId) (s : State) : Result :=
  opReg (fun a b => shiftRightLogical a (shiftAmount b)) rd rs1 rs2 s
/-- R169. -/
def execSra (rd rs1 rs2 : RegId) (s : State) : Result :=
  opReg (fun a b => shiftRightArithmetic a (shiftAmount b)) rd rs1 rs2 s
/-- R170. -/
def execOr (rd rs1 rs2 : RegId) (s : State) : Result := opReg (fun a b => a ||| b) rd rs1 rs2 s
/-- R171. -/
def execAnd (rd rs1 rs2 : RegId) (s : State) : Result := opReg (fun a b => a &&& b) rd rs1 rs2 s

end Sys2Proof.Machine
end

