-- ==== Sys2Proof/Machine/LoadStore.lean ====
section
/-!
DEFINITION. Loads and stores (43_load_store R190 to R199). The bus access comes first; a fault leaves
`PC = pc + 4` and nothing else changed (R190 (d), R199 (e)).
-/

namespace Sys2Proof.Machine

/-- A load: read `sz` bytes at the effective address, extend, write `rd`. The read is made also when
`rd = x0` (R190 (e)). -/
def load (sz : Size) (ext : Word → Word) (rd rs1 : RegId) (imm : BitVec 12) (s : State) : Result :=
  match s.memRead (s.effectiveAddress rs1 imm) sz with
  | .error e => e.result s.nextPc
  | .ok (v, t) => t.retireReg rd (ext v)

/-- A store: write the low bytes of `x[rs2]` at the effective address (R199). -/
def store (sz : Size) (rs1 rs2 : RegId) (imm : BitVec 12) (s : State) : Result :=
  match s.memWrite (s.effectiveAddress rs1 imm) sz (s.readReg rs2) with
  | .error e => e.result s.nextPc
  | .ok t => t.retire

/-- R191. -/
def execLb (rd rs1 : RegId) (imm : BitVec 12) (s : State) : Result := load .byte sext8 rd rs1 imm s
/-- R192. -/
def execLh (rd rs1 : RegId) (imm : BitVec 12) (s : State) : Result := load .half sext16 rd rs1 imm s
/-- R193. -/
def execLw (rd rs1 : RegId) (imm : BitVec 12) (s : State) : Result := load .word id rd rs1 imm s
/-- R194. -/
def execLbu (rd rs1 : RegId) (imm : BitVec 12) (s : State) : Result := load .byte zext8 rd rs1 imm s
/-- R195. -/
def execLhu (rd rs1 : RegId) (imm : BitVec 12) (s : State) : Result := load .half zext16 rd rs1 imm s

/-- R196. -/
def execSb (rs1 rs2 : RegId) (imm : BitVec 12) (s : State) : Result := store .byte rs1 rs2 imm s
/-- R197. -/
def execSh (rs1 rs2 : RegId) (imm : BitVec 12) (s : State) : Result := store .half rs1 rs2 imm s
/-- R198. -/
def execSw (rs1 rs2 : RegId) (imm : BitVec 12) (s : State) : Result := store .word rs1 rs2 imm s

end Sys2Proof.Machine
end

