-- ==== Sys2Proof/Machine/MulDiv.lean ====
section
/-!
DEFINITION. Multiply and divide (44_muldiv R200 to R208): exact integers, then `trunc32`; the division
corners are values, never errors (R200 (a), (e)).
-/

namespace Sys2Proof.Machine

/-- `trunc32` of an integer (R9). -/
def trunc32 (n : Int) : Word := BitVec.ofInt 32 n

/-- Bits 63:32 of an exact product: `trunc32(floor(n / 2^32))` (R200 (c)). The divisor is positive, so
Lean's integer division rounds down. -/
def highWord (n : Int) : Word := trunc32 (n / 4294967296)

/-- `INT_MIN` (R9). -/
def intMin : Word := 0x80000000

/-- All ones: the quotient of a division by zero (R200 (e)), and -1. -/
def allOnes : Word := 0xFFFFFFFF

/-- R201: the low word of the product. -/
def mulLow (a b : Word) : Word := trunc32 (a.toNat * b.toNat)
/-- R202. -/
def mulHighSigned (a b : Word) : Word := highWord (a.toInt * b.toInt)
/-- R203: `rs1` signed, `rs2` unsigned. -/
def mulHighSignedUnsigned (a b : Word) : Word := highWord (a.toInt * b.toNat)
/-- R204. -/
def mulHighUnsigned (a b : Word) : Word := highWord (a.toNat * b.toNat)

/-- R205: the quotient rounds toward zero. -/
def divSigned (a b : Word) : Word :=
  if b = 0 then allOnes
  else if a = intMin ∧ b = allOnes then intMin
  else trunc32 (a.toInt.tdiv b.toInt)

/-- R206. -/
def divUnsigned (a b : Word) : Word :=
  if b = 0 then allOnes else BitVec.ofNat 32 (a.toNat / b.toNat)

/-- R207: the remainder takes the dividend's sign. -/
def remSigned (a b : Word) : Word :=
  if b = 0 then a
  else if a = intMin ∧ b = allOnes then 0
  else trunc32 (a.toInt - b.toInt * a.toInt.tdiv b.toInt)

/-- R208. -/
def remUnsigned (a b : Word) : Word :=
  if b = 0 then a else BitVec.ofNat 32 (a.toNat % b.toNat)

/-- R201. -/
def execMul (rd rs1 rs2 : RegId) (s : State) : Result := opReg mulLow rd rs1 rs2 s
/-- R202. -/
def execMulh (rd rs1 rs2 : RegId) (s : State) : Result := opReg mulHighSigned rd rs1 rs2 s
/-- R203. -/
def execMulhsu (rd rs1 rs2 : RegId) (s : State) : Result := opReg mulHighSignedUnsigned rd rs1 rs2 s
/-- R204. -/
def execMulhu (rd rs1 rs2 : RegId) (s : State) : Result := opReg mulHighUnsigned rd rs1 rs2 s
/-- R205. -/
def execDiv (rd rs1 rs2 : RegId) (s : State) : Result := opReg divSigned rd rs1 rs2 s
/-- R206. -/
def execDivu (rd rs1 rs2 : RegId) (s : State) : Result := opReg divUnsigned rd rs1 rs2 s
/-- R207. -/
def execRem (rd rs1 rs2 : RegId) (s : State) : Result := opReg remSigned rd rs1 rs2 s
/-- R208. -/
def execRemu (rd rs1 rs2 : RegId) (s : State) : Result := opReg remUnsigned rd rs1 rs2 s

end Sys2Proof.Machine
end

