-- ==== Sys2Proof/Machine/System.lean ====
section
/-!
DEFINITION. Environment and interrupt-control instructions (47_system R235 to R238).
-/

namespace Sys2Proof.Machine

/-- The arguments of the syscall notification: `x10` to `x16` in order (R235). -/
def State.syscallArgs (s : State) : Vector Word 7 :=
  Vector.ofFn fun k : Fin 7 => s.readReg (BitVec.ofNat 5 (10 + k.val))

/-- R235: only a notification; ECALL is no trap. -/
def execEcall (s : State) : Result := (s.notify (.syscall (s.readReg 17) s.syscallArgs)).retire

/-- R236: a notification with the EBREAK's own address; halts iff `halt_on_ebreak`. -/
def execEbreak (s : State) : Result :=
  { s.notify (.breakpoint s.pc) with halted := s.halted || s.haltOnEbreak }.retire

/-- R237: waits, unconditionally. -/
def execWfi (s : State) : Result := { s with waiting := true }.retire

/-- R238: the trap return; `PC` is `mepc`. -/
def execMret (s : State) : Result := .next s.trapReturn

end Sys2Proof.Machine
end

