-- ==== Sys2Proof/Machine/Zicsr.lean ====
section
/-!
DEFINITION. CSR instructions (46_zicsr R225 to R231).
-/

namespace Sys2Proof.Machine

/-- R225: the number is checked before every effect; `rd` takes the old value, then the CSR takes
`new(t, src)` through its mask. -/
def csrAccess (new : Word → Word → Word) (rd : RegId) (n : CsrNumber) (src : Word) (s : State) :
    Result :=
  match Csr.ofNumber n with
  | none => .fault (.unsupportedCsr n s.nextPc)
  | some c =>
    let t := s.readCsr c
    ((s.writeReg rd t).writeCsr c (new t src)).retire

/-- R226. -/
def execCsrrw (rd rs1 : RegId) (csr : CsrNumber) (s : State) : Result :=
  csrAccess (fun _ src => src) rd csr (s.readReg rs1) s
/-- R227. -/
def execCsrrs (rd rs1 : RegId) (csr : CsrNumber) (s : State) : Result :=
  csrAccess (fun t src => t ||| src) rd csr (s.readReg rs1) s
/-- R228. -/
def execCsrrc (rd rs1 : RegId) (csr : CsrNumber) (s : State) : Result :=
  csrAccess (fun t src => t &&& ~~~src) rd csr (s.readReg rs1) s
/-- R229. -/
def execCsrrwi (rd : RegId) (uimm : BitVec 5) (csr : CsrNumber) (s : State) : Result :=
  csrAccess (fun _ src => src) rd csr (uimmValue uimm) s
/-- R230. -/
def execCsrrsi (rd : RegId) (uimm : BitVec 5) (csr : CsrNumber) (s : State) : Result :=
  csrAccess (fun t src => t ||| src) rd csr (uimmValue uimm) s
/-- R231. -/
def execCsrrci (rd : RegId) (uimm : BitVec 5) (csr : CsrNumber) (s : State) : Result :=
  csrAccess (fun t src => t &&& ~~~src) rd csr (uimmValue uimm) s

end Sys2Proof.Machine
end

