-- ==== Sys2Proof/Syntax.lean ====
section
/-!
DEFINITION. The instructions of the machine as syntax: one constructor for each row of
spec/opcode_table.json (30_encoding R114), carrying the row's operand fields. Immediates are kept at
the width the encoding gives them; the branch and jump offsets keep their implicit low zero bit
(R105, R107), which `Instr.wf` checks.
-/

namespace Sys2Proof

inductive Instr where
  -- upper immediate (41_integer_computational): `imm` is `instr[31:12]`
  /-- LUI, R151. -/
  | lui (rd : RegId) (imm : BitVec 20)
  /-- AUIPC, R152. -/
  | auipc (rd : RegId) (imm : BitVec 20)
  -- control transfer (42_control_transfer): `imm` is the byte offset, 21 bits for JAL and 13 for branches
  /-- JAL, R180. -/
  | jal (rd : RegId) (imm : BitVec 21)
  /-- JALR, R181. -/
  | jalr (rd rs1 : RegId) (imm : BitVec 12)
  /-- BEQ, R183. -/
  | beq (rs1 rs2 : RegId) (imm : BitVec 13)
  /-- BNE, R184. -/
  | bne (rs1 rs2 : RegId) (imm : BitVec 13)
  /-- BLT, R185. -/
  | blt (rs1 rs2 : RegId) (imm : BitVec 13)
  /-- BGE, R186. -/
  | bge (rs1 rs2 : RegId) (imm : BitVec 13)
  /-- BLTU, R187. -/
  | bltu (rs1 rs2 : RegId) (imm : BitVec 13)
  /-- BGEU, R188. -/
  | bgeu (rs1 rs2 : RegId) (imm : BitVec 13)
  -- loads and stores (43_load_store)
  /-- LB, R191. -/
  | lb (rd rs1 : RegId) (imm : BitVec 12)
  /-- LH, R192. -/
  | lh (rd rs1 : RegId) (imm : BitVec 12)
  /-- LW, R193. -/
  | lw (rd rs1 : RegId) (imm : BitVec 12)
  /-- LBU, R194. -/
  | lbu (rd rs1 : RegId) (imm : BitVec 12)
  /-- LHU, R195. -/
  | lhu (rd rs1 : RegId) (imm : BitVec 12)
  /-- SB, R196. -/
  | sb (rs1 rs2 : RegId) (imm : BitVec 12)
  /-- SH, R197. -/
  | sh (rs1 rs2 : RegId) (imm : BitVec 12)
  /-- SW, R198. -/
  | sw (rs1 rs2 : RegId) (imm : BitVec 12)
  -- register-immediate (41_integer_computational)
  /-- ADDI, R153. -/
  | addi (rd rs1 : RegId) (imm : BitVec 12)
  /-- SLTI, R154. -/
  | slti (rd rs1 : RegId) (imm : BitVec 12)
  /-- SLTIU, R155. -/
  | sltiu (rd rs1 : RegId) (imm : BitVec 12)
  /-- XORI, R156. -/
  | xori (rd rs1 : RegId) (imm : BitVec 12)
  /-- ORI, R157. -/
  | ori (rd rs1 : RegId) (imm : BitVec 12)
  /-- ANDI, R158. -/
  | andi (rd rs1 : RegId) (imm : BitVec 12)
  /-- SLLI, R159. -/
  | slli (rd rs1 : RegId) (shamt : BitVec 5)
  /-- SRLI, R160. -/
  | srli (rd rs1 : RegId) (shamt : BitVec 5)
  /-- SRAI, R161. -/
  | srai (rd rs1 : RegId) (shamt : BitVec 5)
  -- register-register (41_integer_computational)
  /-- ADD, R162. -/
  | add (rd rs1 rs2 : RegId)
  /-- SUB, R163. -/
  | sub (rd rs1 rs2 : RegId)
  /-- SLL, R164. -/
  | sll (rd rs1 rs2 : RegId)
  /-- SLT, R165. -/
  | slt (rd rs1 rs2 : RegId)
  /-- SLTU, R166. -/
  | sltu (rd rs1 rs2 : RegId)
  /-- XOR, R167. -/
  | xor (rd rs1 rs2 : RegId)
  /-- SRL, R168. -/
  | srl (rd rs1 rs2 : RegId)
  /-- SRA, R169. -/
  | sra (rd rs1 rs2 : RegId)
  /-- OR, R170. -/
  | or (rd rs1 rs2 : RegId)
  /-- AND, R171. -/
  | and (rd rs1 rs2 : RegId)
  -- multiply and divide (44_muldiv)
  /-- MUL, R201. -/
  | mul (rd rs1 rs2 : RegId)
  /-- MULH, R202. -/
  | mulh (rd rs1 rs2 : RegId)
  /-- MULHSU, R203. -/
  | mulhsu (rd rs1 rs2 : RegId)
  /-- MULHU, R204. -/
  | mulhu (rd rs1 rs2 : RegId)
  /-- DIV, R205. -/
  | div (rd rs1 rs2 : RegId)
  /-- DIVU, R206. -/
  | divu (rd rs1 rs2 : RegId)
  /-- REM, R207. -/
  | rem (rd rs1 rs2 : RegId)
  /-- REMU, R208. -/
  | remu (rd rs1 rs2 : RegId)
  -- atomics (45_atomics); `aq` and `rl` are the ordering bits 26 and 25 (R213)
  /-- LR.W, R210. -/
  | lrW (rd rs1 : RegId) (aq rl : BitVec 1)
  /-- SC.W, R211. -/
  | scW (rd rs1 rs2 : RegId) (aq rl : BitVec 1)
  /-- AMOSWAP.W, R214. -/
  | amoswapW (rd rs1 rs2 : RegId) (aq rl : BitVec 1)
  /-- AMOADD.W, R215. -/
  | amoaddW (rd rs1 rs2 : RegId) (aq rl : BitVec 1)
  /-- AMOXOR.W, R216. -/
  | amoxorW (rd rs1 rs2 : RegId) (aq rl : BitVec 1)
  /-- AMOAND.W, R217. -/
  | amoandW (rd rs1 rs2 : RegId) (aq rl : BitVec 1)
  /-- AMOOR.W, R218. -/
  | amoorW (rd rs1 rs2 : RegId) (aq rl : BitVec 1)
  /-- AMOMIN.W, R219. -/
  | amominW (rd rs1 rs2 : RegId) (aq rl : BitVec 1)
  /-- AMOMAX.W, R220. -/
  | amomaxW (rd rs1 rs2 : RegId) (aq rl : BitVec 1)
  /-- AMOMINU.W, R221. -/
  | amominuW (rd rs1 rs2 : RegId) (aq rl : BitVec 1)
  /-- AMOMAXU.W, R222. -/
  | amomaxuW (rd rs1 rs2 : RegId) (aq rl : BitVec 1)
  -- Zicsr (46_zicsr); `csr` is the number in `instr[31:20]`
  /-- CSRRW, R226. -/
  | csrrw (rd rs1 : RegId) (csr : CsrNumber)
  /-- CSRRS, R227. -/
  | csrrs (rd rs1 : RegId) (csr : CsrNumber)
  /-- CSRRC, R228. -/
  | csrrc (rd rs1 : RegId) (csr : CsrNumber)
  /-- CSRRWI, R229. -/
  | csrrwi (rd : RegId) (uimm : BitVec 5) (csr : CsrNumber)
  /-- CSRRSI, R230. -/
  | csrrsi (rd : RegId) (uimm : BitVec 5) (csr : CsrNumber)
  /-- CSRRCI, R231. -/
  | csrrci (rd : RegId) (uimm : BitVec 5) (csr : CsrNumber)
  -- environment and interrupt control (47_system)
  /-- ECALL, R235. -/
  | ecall
  /-- EBREAK, R236. -/
  | ebreak
  /-- WFI, R237. -/
  | wfi
  /-- MRET, R238. -/
  | mret
deriving DecidableEq, Repr

end Sys2Proof
end

