-- ==== Sys2Proof/Decode.lean ====
section
/-!
DEFINITION. Decoding and encoding (30_encoding). Decoding follows R112: a table of rows, each a mask,
a pattern and the fields to extract; a word is the instruction of the row it matches and unrecognised
when it matches none (R117). The encoder is written from the same format tables (R102 to R110). The
bit patterns are marked by the spec as general knowledge (log entry 12).
-/

namespace Sys2Proof

/-! ### Fields and immediates of a word (R101 to R111) -/

/-- `rd = instr[11:7]` (R101). -/
def fieldRd (w : Word) : RegId := w.extractLsb' 7 5
/-- `rs1 = instr[19:15]` (R101). -/
def fieldRs1 (w : Word) : RegId := w.extractLsb' 15 5
/-- `rs2 = instr[24:20]` (R101). -/
def fieldRs2 (w : Word) : RegId := w.extractLsb' 20 5
/-- `shamt = instr[24:20]` (R108). -/
def fieldShamt (w : Word) : BitVec 5 := w.extractLsb' 20 5
/-- `uimm = instr[19:15]` (R109). -/
def fieldUimm (w : Word) : BitVec 5 := w.extractLsb' 15 5
/-- `csr = instr[31:20]` (R109). -/
def fieldCsr (w : Word) : CsrNumber := w.extractLsb' 20 12
/-- `aq = instr[26]` (R110). -/
def fieldAq (w : Word) : BitVec 1 := w.extractLsb' 26 1
/-- `rl = instr[25]` (R110). -/
def fieldRl (w : Word) : BitVec 1 := w.extractLsb' 25 1
/-- The I immediate before sign extension, `instr[31:20]` (R103). -/
def fieldImmI (w : Word) : BitVec 12 := w.extractLsb' 20 12
/-- The S immediate before sign extension, `(instr[31:25], instr[11:7])` (R104). -/
def fieldImmS (w : Word) : BitVec 12 := w.extractLsb' 25 7 ++ w.extractLsb' 7 5
/-- The B immediate before sign extension,
`(instr[31], instr[7], instr[30:25], instr[11:8], 0)` (R105). -/
def fieldImmB (w : Word) : BitVec 13 :=
  w.extractLsb' 31 1 ++ w.extractLsb' 7 1 ++ w.extractLsb' 25 6 ++ w.extractLsb' 8 4 ++ 0b0#1
/-- The U immediate before placement, `instr[31:12]` (R106). -/
def fieldImmU (w : Word) : BitVec 20 := w.extractLsb' 12 20
/-- The J immediate before sign extension,
`(instr[31], instr[19:12], instr[20], instr[30:21], 0)` (R107). -/
def fieldImmJ (w : Word) : BitVec 21 :=
  w.extractLsb' 31 1 ++ w.extractLsb' 12 8 ++ w.extractLsb' 20 1 ++ w.extractLsb' 21 10 ++ 0b0#1

/-! ### The opcode table (R112, R114) -/

/-- One row of the opcode table: `w` is its instruction when `w &&& mask = pattern` (R112). -/
structure OpcodeRow where
  mnemonic : String
  mask     : Word
  pattern  : Word
  build    : Word → Instr

/-- The word matches the row. -/
def OpcodeRow.matchesWord (r : OpcodeRow) (w : Word) : Bool := w &&& r.mask == r.pattern

def buildU (f : RegId → BitVec 20 → Instr) (w : Word) : Instr := f (fieldRd w) (fieldImmU w)
def buildJ (f : RegId → BitVec 21 → Instr) (w : Word) : Instr := f (fieldRd w) (fieldImmJ w)
def buildI (f : RegId → RegId → BitVec 12 → Instr) (w : Word) : Instr :=
  f (fieldRd w) (fieldRs1 w) (fieldImmI w)
def buildB (f : RegId → RegId → BitVec 13 → Instr) (w : Word) : Instr :=
  f (fieldRs1 w) (fieldRs2 w) (fieldImmB w)
def buildS (f : RegId → RegId → BitVec 12 → Instr) (w : Word) : Instr :=
  f (fieldRs1 w) (fieldRs2 w) (fieldImmS w)
def buildShift (f : RegId → RegId → BitVec 5 → Instr) (w : Word) : Instr :=
  f (fieldRd w) (fieldRs1 w) (fieldShamt w)
def buildR (f : RegId → RegId → RegId → Instr) (w : Word) : Instr :=
  f (fieldRd w) (fieldRs1 w) (fieldRs2 w)
def buildLr (f : RegId → RegId → BitVec 1 → BitVec 1 → Instr) (w : Word) : Instr :=
  f (fieldRd w) (fieldRs1 w) (fieldAq w) (fieldRl w)
def buildAtomic (f : RegId → RegId → RegId → BitVec 1 → BitVec 1 → Instr) (w : Word) : Instr :=
  f (fieldRd w) (fieldRs1 w) (fieldRs2 w) (fieldAq w) (fieldRl w)
def buildCsr (f : RegId → RegId → CsrNumber → Instr) (w : Word) : Instr :=
  f (fieldRd w) (fieldRs1 w) (fieldCsr w)
def buildCsrImm (f : RegId → BitVec 5 → CsrNumber → Instr) (w : Word) : Instr :=
  f (fieldRd w) (fieldUimm w) (fieldCsr w)
def buildFixed (i : Instr) (_ : Word) : Instr := i

def tableUpper : List OpcodeRow :=
  [ ⟨"LUI", 0x0000007F, 0x00000037, buildU .lui⟩
  , ⟨"AUIPC", 0x0000007F, 0x00000017, buildU .auipc⟩ ]

def tableControl : List OpcodeRow :=
  [ ⟨"JAL", 0x0000007F, 0x0000006F, buildJ .jal⟩
  , ⟨"JALR", 0x0000707F, 0x00000067, buildI .jalr⟩
  , ⟨"BEQ", 0x0000707F, 0x00000063, buildB .beq⟩
  , ⟨"BNE", 0x0000707F, 0x00001063, buildB .bne⟩
  , ⟨"BLT", 0x0000707F, 0x00004063, buildB .blt⟩
  , ⟨"BGE", 0x0000707F, 0x00005063, buildB .bge⟩
  , ⟨"BLTU", 0x0000707F, 0x00006063, buildB .bltu⟩
  , ⟨"BGEU", 0x0000707F, 0x00007063, buildB .bgeu⟩ ]

def tableLoadStore : List OpcodeRow :=
  [ ⟨"LB", 0x0000707F, 0x00000003, buildI .lb⟩
  , ⟨"LH", 0x0000707F, 0x00001003, buildI .lh⟩
  , ⟨"LW", 0x0000707F, 0x00002003, buildI .lw⟩
  , ⟨"LBU", 0x0000707F, 0x00004003, buildI .lbu⟩
  , ⟨"LHU", 0x0000707F, 0x00005003, buildI .lhu⟩
  , ⟨"SB", 0x0000707F, 0x00000023, buildS .sb⟩
  , ⟨"SH", 0x0000707F, 0x00001023, buildS .sh⟩
  , ⟨"SW", 0x0000707F, 0x00002023, buildS .sw⟩ ]

def tableOpImm : List OpcodeRow :=
  [ ⟨"ADDI", 0x0000707F, 0x00000013, buildI .addi⟩
  , ⟨"SLTI", 0x0000707F, 0x00002013, buildI .slti⟩
  , ⟨"SLTIU", 0x0000707F, 0x00003013, buildI .sltiu⟩
  , ⟨"XORI", 0x0000707F, 0x00004013, buildI .xori⟩
  , ⟨"ORI", 0x0000707F, 0x00006013, buildI .ori⟩
  , ⟨"ANDI", 0x0000707F, 0x00007013, buildI .andi⟩
  , ⟨"SLLI", 0xFE00707F, 0x00001013, buildShift .slli⟩
  , ⟨"SRLI", 0xFE00707F, 0x00005013, buildShift .srli⟩
  , ⟨"SRAI", 0xFE00707F, 0x40005013, buildShift .srai⟩ ]

def tableOp : List OpcodeRow :=
  [ ⟨"ADD", 0xFE00707F, 0x00000033, buildR .add⟩
  , ⟨"SUB", 0xFE00707F, 0x40000033, buildR .sub⟩
  , ⟨"SLL", 0xFE00707F, 0x00001033, buildR .sll⟩
  , ⟨"SLT", 0xFE00707F, 0x00002033, buildR .slt⟩
  , ⟨"SLTU", 0xFE00707F, 0x00003033, buildR .sltu⟩
  , ⟨"XOR", 0xFE00707F, 0x00004033, buildR .xor⟩
  , ⟨"SRL", 0xFE00707F, 0x00005033, buildR .srl⟩
  , ⟨"SRA", 0xFE00707F, 0x40005033, buildR .sra⟩
  , ⟨"OR", 0xFE00707F, 0x00006033, buildR .or⟩
  , ⟨"AND", 0xFE00707F, 0x00007033, buildR .and⟩ ]

def tableMulDiv : List OpcodeRow :=
  [ ⟨"MUL", 0xFE00707F, 0x02000033, buildR .mul⟩
  , ⟨"MULH", 0xFE00707F, 0x02001033, buildR .mulh⟩
  , ⟨"MULHSU", 0xFE00707F, 0x02002033, buildR .mulhsu⟩
  , ⟨"MULHU", 0xFE00707F, 0x02003033, buildR .mulhu⟩
  , ⟨"DIV", 0xFE00707F, 0x02004033, buildR .div⟩
  , ⟨"DIVU", 0xFE00707F, 0x02005033, buildR .divu⟩
  , ⟨"REM", 0xFE00707F, 0x02006033, buildR .rem⟩
  , ⟨"REMU", 0xFE00707F, 0x02007033, buildR .remu⟩ ]

def tableAtomic : List OpcodeRow :=
  [ ⟨"LR.W", 0xF9F0707F, 0x1000202F, buildLr .lrW⟩
  , ⟨"SC.W", 0xF800707F, 0x1800202F, buildAtomic .scW⟩
  , ⟨"AMOSWAP.W", 0xF800707F, 0x0800202F, buildAtomic .amoswapW⟩
  , ⟨"AMOADD.W", 0xF800707F, 0x0000202F, buildAtomic .amoaddW⟩
  , ⟨"AMOXOR.W", 0xF800707F, 0x2000202F, buildAtomic .amoxorW⟩
  , ⟨"AMOAND.W", 0xF800707F, 0x6000202F, buildAtomic .amoandW⟩
  , ⟨"AMOOR.W", 0xF800707F, 0x4000202F, buildAtomic .amoorW⟩
  , ⟨"AMOMIN.W", 0xF800707F, 0x8000202F, buildAtomic .amominW⟩
  , ⟨"AMOMAX.W", 0xF800707F, 0xA000202F, buildAtomic .amomaxW⟩
  , ⟨"AMOMINU.W", 0xF800707F, 0xC000202F, buildAtomic .amominuW⟩
  , ⟨"AMOMAXU.W", 0xF800707F, 0xE000202F, buildAtomic .amomaxuW⟩ ]

def tableSystem : List OpcodeRow :=
  [ ⟨"CSRRW", 0x0000707F, 0x00001073, buildCsr .csrrw⟩
  , ⟨"CSRRS", 0x0000707F, 0x00002073, buildCsr .csrrs⟩
  , ⟨"CSRRC", 0x0000707F, 0x00003073, buildCsr .csrrc⟩
  , ⟨"CSRRWI", 0x0000707F, 0x00005073, buildCsrImm .csrrwi⟩
  , ⟨"CSRRSI", 0x0000707F, 0x00006073, buildCsrImm .csrrsi⟩
  , ⟨"CSRRCI", 0x0000707F, 0x00007073, buildCsrImm .csrrci⟩
  , ⟨"ECALL", 0xFFFFFFFF, 0x00000073, buildFixed .ecall⟩
  , ⟨"EBREAK", 0xFFFFFFFF, 0x00100073, buildFixed .ebreak⟩
  , ⟨"WFI", 0xFFFFFFFF, 0x10500073, buildFixed .wfi⟩
  , ⟨"MRET", 0xFFFFFFFF, 0x30200073, buildFixed .mret⟩ ]

/-- The 66 rows of spec/opcode_table.json (R114). -/
def opcodeTable : List OpcodeRow :=
  tableUpper ++ tableControl ++ tableLoadStore ++ tableOpImm ++ tableOp ++ tableMulDiv ++ tableAtomic
    ++ tableSystem

/-! ### The decoder -/

/-- Why bytes are no instruction. -/
inductive Reject where
  /-- The word matches no row of the opcode table (R117, R118). -/
  | unrecognised (w : Word)
  /-- Fewer than the four bytes an instruction has (R100). -/
  | truncated
deriving DecidableEq, Repr

/-- The instruction of a word (R112, R135). -/
def decodeWord (w : Word) : Except Reject Instr :=
  match opcodeTable.find? (fun r => r.matchesWord w) with
  | some r => .ok (r.build w)
  | none => .error (.unrecognised w)

/-- Decoding of any bytes: the first four, little-endian (R73, R100), and the bytes after them. -/
def decode : List Byte → Except Reject (Instr × List Byte)
  | b0 :: b1 :: b2 :: b3 :: rest =>
    match decodeWord (ofLeBytes [b0, b1, b2, b3]) with
    | .ok i => .ok (i, rest)
    | .error e => .error e
  | _ => .error .truncated

/-- The host's question about one table word: the instruction the decoder reads from the word of
`nbits` bits laid out little-endian. -/
def decodeTableWord (nbits w : Nat) : Option Instr :=
  match decode (leBytes 4 (BitVec.ofNat 32 (w % 2 ^ nbits))) with
  | .ok (i, _) => some i
  | .error _ => none

/-! ### The encoder, from the format tables R102 to R110 -/

def encodeR (funct7 : BitVec 7) (rs2 rs1 : RegId) (funct3 : BitVec 3) (rd : RegId)
    (opcode : BitVec 7) : Word :=
  funct7 ++ rs2 ++ rs1 ++ funct3 ++ rd ++ opcode

def encodeI (imm : BitVec 12) (rs1 : RegId) (funct3 : BitVec 3) (rd : RegId) (opcode : BitVec 7) :
    Word :=
  imm ++ rs1 ++ funct3 ++ rd ++ opcode

def encodeS (imm : BitVec 12) (rs2 rs1 : RegId) (funct3 : BitVec 3) (opcode : BitVec 7) : Word :=
  imm.extractLsb' 5 7 ++ rs2 ++ rs1 ++ funct3 ++ imm.extractLsb' 0 5 ++ opcode

def encodeB (imm : BitVec 13) (rs2 rs1 : RegId) (funct3 : BitVec 3) (opcode : BitVec 7) : Word :=
  imm.extractLsb' 12 1 ++ imm.extractLsb' 5 6 ++ rs2 ++ rs1 ++ funct3 ++ imm.extractLsb' 1 4
    ++ imm.extractLsb' 11 1 ++ opcode

def encodeU (imm : BitVec 20) (rd : RegId) (opcode : BitVec 7) : Word := imm ++ rd ++ opcode

def encodeJ (imm : BitVec 21) (rd : RegId) (opcode : BitVec 7) : Word :=
  imm.extractLsb' 20 1 ++ imm.extractLsb' 1 10 ++ imm.extractLsb' 11 1 ++ imm.extractLsb' 12 8 ++ rd
    ++ opcode

def encodeAtomic (funct5 : BitVec 5) (aq rl : BitVec 1) (rs2 rs1 rd : RegId) : Word :=
  funct5 ++ aq ++ rl ++ rs2 ++ rs1 ++ 0b010#3 ++ rd ++ 0b0101111#7

/-- The word of a well-formed instruction (R114; the low bit of a branch or jump offset has no place
in it). -/
def encode : Instr → Word
  | .lui rd imm => encodeU imm rd 0b0110111#7
  | .auipc rd imm => encodeU imm rd 0b0010111#7
  | .jal rd imm => encodeJ imm rd 0b1101111#7
  | .jalr rd rs1 imm => encodeI imm rs1 0b000#3 rd 0b1100111#7
  | .beq rs1 rs2 imm => encodeB imm rs2 rs1 0b000#3 0b1100011#7
  | .bne rs1 rs2 imm => encodeB imm rs2 rs1 0b001#3 0b1100011#7
  | .blt rs1 rs2 imm => encodeB imm rs2 rs1 0b100#3 0b1100011#7
  | .bge rs1 rs2 imm => encodeB imm rs2 rs1 0b101#3 0b1100011#7
  | .bltu rs1 rs2 imm => encodeB imm rs2 rs1 0b110#3 0b1100011#7
  | .bgeu rs1 rs2 imm => encodeB imm rs2 rs1 0b111#3 0b1100011#7
  | .lb rd rs1 imm => encodeI imm rs1 0b000#3 rd 0b0000011#7
  | .lh rd rs1 imm => encodeI imm rs1 0b001#3 rd 0b0000011#7
  | .lw rd rs1 imm => encodeI imm rs1 0b010#3 rd 0b0000011#7
  | .lbu rd rs1 imm => encodeI imm rs1 0b100#3 rd 0b0000011#7
  | .lhu rd rs1 imm => encodeI imm rs1 0b101#3 rd 0b0000011#7
  | .sb rs1 rs2 imm => encodeS imm rs2 rs1 0b000#3 0b0100011#7
  | .sh rs1 rs2 imm => encodeS imm rs2 rs1 0b001#3 0b0100011#7
  | .sw rs1 rs2 imm => encodeS imm rs2 rs1 0b010#3 0b0100011#7
  | .addi rd rs1 imm => encodeI imm rs1 0b000#3 rd 0b0010011#7
  | .slti rd rs1 imm => encodeI imm rs1 0b010#3 rd 0b0010011#7
  | .sltiu rd rs1 imm => encodeI imm rs1 0b011#3 rd 0b0010011#7
  | .xori rd rs1 imm => encodeI imm rs1 0b100#3 rd 0b0010011#7
  | .ori rd rs1 imm => encodeI imm rs1 0b110#3 rd 0b0010011#7
  | .andi rd rs1 imm => encodeI imm rs1 0b111#3 rd 0b0010011#7
  | .slli rd rs1 shamt => encodeR 0b0000000#7 shamt rs1 0b001#3 rd 0b0010011#7
  | .srli rd rs1 shamt => encodeR 0b0000000#7 shamt rs1 0b101#3 rd 0b0010011#7
  | .srai rd rs1 shamt => encodeR 0b0100000#7 shamt rs1 0b101#3 rd 0b0010011#7
  | .add rd rs1 rs2 => encodeR 0b0000000#7 rs2 rs1 0b000#3 rd 0b0110011#7
  | .sub rd rs1 rs2 => encodeR 0b0100000#7 rs2 rs1 0b000#3 rd 0b0110011#7
  | .sll rd rs1 rs2 => encodeR 0b0000000#7 rs2 rs1 0b001#3 rd 0b0110011#7
  | .slt rd rs1 rs2 => encodeR 0b0000000#7 rs2 rs1 0b010#3 rd 0b0110011#7
  | .sltu rd rs1 rs2 => encodeR 0b0000000#7 rs2 rs1 0b011#3 rd 0b0110011#7
  | .xor rd rs1 rs2 => encodeR 0b0000000#7 rs2 rs1 0b100#3 rd 0b0110011#7
  | .srl rd rs1 rs2 => encodeR 0b0000000#7 rs2 rs1 0b101#3 rd 0b0110011#7
  | .sra rd rs1 rs2 => encodeR 0b0100000#7 rs2 rs1 0b101#3 rd 0b0110011#7
  | .or rd rs1 rs2 => encodeR 0b0000000#7 rs2 rs1 0b110#3 rd 0b0110011#7
  | .and rd rs1 rs2 => encodeR 0b0000000#7 rs2 rs1 0b111#3 rd 0b0110011#7
  | .mul rd rs1 rs2 => encodeR 0b0000001#7 rs2 rs1 0b000#3 rd 0b0110011#7
  | .mulh rd rs1 rs2 => encodeR 0b0000001#7 rs2 rs1 0b001#3 rd 0b0110011#7
  | .mulhsu rd rs1 rs2 => encodeR 0b0000001#7 rs2 rs1 0b010#3 rd 0b0110011#7
  | .mulhu rd rs1 rs2 => encodeR 0b0000001#7 rs2 rs1 0b011#3 rd 0b0110011#7
  | .div rd rs1 rs2 => encodeR 0b0000001#7 rs2 rs1 0b100#3 rd 0b0110011#7
  | .divu rd rs1 rs2 => encodeR 0b0000001#7 rs2 rs1 0b101#3 rd 0b0110011#7
  | .rem rd rs1 rs2 => encodeR 0b0000001#7 rs2 rs1 0b110#3 rd 0b0110011#7
  | .remu rd rs1 rs2 => encodeR 0b0000001#7 rs2 rs1 0b111#3 rd 0b0110011#7
  | .lrW rd rs1 aq rl => encodeAtomic 0b00010#5 aq rl 0b00000#5 rs1 rd
  | .scW rd rs1 rs2 aq rl => encodeAtomic 0b00011#5 aq rl rs2 rs1 rd
  | .amoswapW rd rs1 rs2 aq rl => encodeAtomic 0b00001#5 aq rl rs2 rs1 rd
  | .amoaddW rd rs1 rs2 aq rl => encodeAtomic 0b00000#5 aq rl rs2 rs1 rd
  | .amoxorW rd rs1 rs2 aq rl => encodeAtomic 0b00100#5 aq rl rs2 rs1 rd
  | .amoandW rd rs1 rs2 aq rl => encodeAtomic 0b01100#5 aq rl rs2 rs1 rd
  | .amoorW rd rs1 rs2 aq rl => encodeAtomic 0b01000#5 aq rl rs2 rs1 rd
  | .amominW rd rs1 rs2 aq rl => encodeAtomic 0b10000#5 aq rl rs2 rs1 rd
  | .amomaxW rd rs1 rs2 aq rl => encodeAtomic 0b10100#5 aq rl rs2 rs1 rd
  | .amominuW rd rs1 rs2 aq rl => encodeAtomic 0b11000#5 aq rl rs2 rs1 rd
  | .amomaxuW rd rs1 rs2 aq rl => encodeAtomic 0b11100#5 aq rl rs2 rs1 rd
  | .csrrw rd rs1 csr => encodeI csr rs1 0b001#3 rd 0b1110011#7
  | .csrrs rd rs1 csr => encodeI csr rs1 0b010#3 rd 0b1110011#7
  | .csrrc rd rs1 csr => encodeI csr rs1 0b011#3 rd 0b1110011#7
  | .csrrwi rd uimm csr => encodeI csr uimm 0b101#3 rd 0b1110011#7
  | .csrrsi rd uimm csr => encodeI csr uimm 0b110#3 rd 0b1110011#7
  | .csrrci rd uimm csr => encodeI csr uimm 0b111#3 rd 0b1110011#7
  | .ecall => encodeI 0x000#12 0 0b000#3 0 0b1110011#7
  | .ebreak => encodeI 0x001#12 0 0b000#3 0 0b1110011#7
  | .wfi => encodeI 0x105#12 0 0b000#3 0 0b1110011#7
  | .mret => encodeI 0x302#12 0 0b000#3 0 0b1110011#7

/-- The bytes of an instruction in ascending address order (R73, R100). -/
def encodeBytes (i : Instr) : List Byte := leBytes 4 (encode i)

end Sys2Proof
end

