-- ==== Sys2Proof/Machine/Fetch.lean ====
section
/-!
DEFINITION. Fetching an instruction (40_step_cycle R134), the policy for a word that is none (47_system
R239), and placing a word where the next fetch reads it.
-/

namespace Sys2Proof.Machine

/-- The fetch: an ordinary 4-byte bus read at `PC`, no alignment asked (R134). -/
def State.fetch (s : State) : Except BusError (Word × State) := s.memRead s.pc .word

/-- An unrecognised word: a Diagnostic, `PC = pc + 4`, nothing else (R239). -/
def State.unrecognised (s : State) (w : Word) : Result := (s.notify (.diagnostic s.pc w)).retire

/-- The state with a word's four bytes in RAM at `PC`; a state whose `PC` is not in RAM is unchanged
(log entry 3). This is the load of a program from outside, not a write of the CPU: the reservation
stays. -/
def State.placeWord (s : State) (w : Word) : State :=
  match Platform.route s.cfg s.pc 4 with
  | some (.ram, off) => { s with ram := s.ram.writeLe off 4 w }
  | _ => s

end Sys2Proof.Machine
end

