-- ==== Sys2Proof/Machine/Step.lean ====
section
/-!
DEFINITION. The step (40_step_cycle R130): halted, the external interrupt, waiting, or one whole
instruction; and the host's placement of an instruction at the next fetch.
-/

namespace Sys2Proof.Machine

/-- Part 4 of the step (R130): fetch, decode, execute and write back. -/
def runInstruction (s : State) : Host.Outcome State Fault Refusal :=
  match s.fetch with
  | .error e => e.result s.pc
  | .ok (w, t) =>
    match decodeWord w with
    | .ok i => exec i t
    | .error _ => t.unrecognised w

/-- One call of `step()` (R130 to R134): the parts in order, exactly one of which takes effect. -/
def step (s : State) : Host.Outcome State Fault Refusal :=
  if s.halted then .next s
  else if s.trapPending then .next s.takeTrap
  else if s.waiting then .next s
  else runInstruction s

/-- `s` with the word `w` of `nbits` bits, little-endian, in RAM at `PC`, where the step fetches. A
program is loaded from outside the machine (R284, R285); this stands for that load (log entry 3). -/
def State.withFetchWord (s : State) (nbits w : Nat) : State :=
  s.placeWord (BitVec.ofNat 32 (w % 2 ^ nbits))

end Sys2Proof.Machine
end

