-- ==== Sys2Proof/Machine/Boot.lean ====
section
/-!
DEFINITION. Construction of the machine (70_reset_and_hazards R280, R284 to R286; 10_state R54): a well-formed
configuration gives the state after reset, an ill-formed one gives no machine (20_memory R62, 60_exceptions
R257).
-/

namespace Sys2Proof.Machine

/-- 2^32, the end of the bus address space (R60, R61). -/
def addressSpaceEnd : Nat := 4294967296

/-- A half-open address range: start and size (R61). -/
abbrev Range := Nat × Nat

/-- The ranges of the devices: the RAM device first, then the IO devices in order. -/
def Platform.ranges (p : Platform) : List Range :=
  (p.ramBase, p.ramSize) :: p.ioBases.map fun b => (b, p.ioSize)

/-- Two ranges share no address: one ends before the other starts (R62). -/
def rangesDisjoint (d e : Range) : Bool := decide (d.1 + d.2 ≤ e.1) || decide (e.1 + e.2 ≤ d.1)

/-- Why no machine is built (R257, D34). -/
inductive ConfigError where
  /-- Two devices' ranges overlap (R62). -/
  | overlap (d e : Range)
  /-- A device of size 0. -/
  | emptyDevice (d : Range)
  /-- A device with `start + size > 2^32`. -/
  | beyondAddressSpace (d : Range)
  /-- `IO_SIZE` below 9 (R6). -/
  | ioWindowTooSmall (size : Nat)
  /-- An image longer than the RAM (R286). -/
  | imageTooLong (bytes : Nat)
deriving DecidableEq, Repr

/-- The first range of a list that is empty or leaves the address space (log entry 24). -/
def firstBadRange : List Range → Option ConfigError
  | [] => none
  | d :: rest =>
    if d.2 = 0 then some (.emptyDevice d)
    else if addressSpaceEnd < d.1 + d.2 then some (.beyondAddressSpace d)
    else firstBadRange rest

/-- The first overlapping pair of a list (log entry 24). -/
def firstOverlap : List Range → Option ConfigError
  | [] => none
  | d :: rest =>
    match rest.find? fun e => !rangesDisjoint d e with
    | some e => some (.overlap d e)
    | none => firstOverlap rest

/-- What is wrong with a configuration, or nothing (R257). DESIGN CHOICE (log entry 24): the spec orders no
checks; where several things are wrong, the first of these is reported: an empty or out-of-space range, an
overlap, a small IO window, a long image. -/
def configError (p : Platform) (l : Launch) : Option ConfigError :=
  match firstBadRange (Platform.ranges p) with
  | some e => some e
  | none =>
    match firstOverlap (Platform.ranges p) with
    | some e => some e
    | none =>
      if p.ioSize < 9 then some (.ioWindowTooSmall p.ioSize)
      else if p.ramSize < l.image.length then some (.imageTooLong l.image.length)
      else none

/-- The platform builds a machine (R257): `RAM_SIZE` at least 1, every range inside the address space,
`IO_SIZE` at least 9, no two ranges overlapping. -/
def Platform.wf (p : Platform) : Bool := (configError p { Launch.default with image := [] }).isNone

/-- The RAM after the image is loaded at offset 0; the bytes beyond it are 0 (R285, R286). -/
def Memory.ofImage (image : List Byte) : Memory := Memory.writeBytes [] 0 image

/-- The state right after reset on any platform with any launch values (R54). -/
def State.ofLaunch (p : Platform) (l : Launch) : State :=
  { cfg          := p
    regs         := Vector.replicate 31 l.resetX
    pc           := l.entry
    halted       := false
    haltOnEbreak := l.haltOnEbreak
    waiting      := false
    csrs         := l.resetCsr
    resv         := none
    ram          := Memory.ofImage l.image
    io           := p.ioBases.map fun _ => IoState.reset
    events       := [] }

/-- Construction: the bus is built and the CPU over it, or the configuration is refused (R62, R257,
R284). -/
def construct (p : Platform) (l : Launch) : Except ConfigError State :=
  match configError p l with
  | some e => .error e
  | none => .ok (State.ofLaunch p l)

end Sys2Proof.Machine
end

