-- ==== Sys2Proof/Machine/HostInterface.lean ====
section
/-!
DEFINITION. What the host can do to the machine between steps (48_host_interface R300 to R302, 40_step_cycle
R140, 20_memory R65): input events, host actions, direct bus calls, and a run as a sequence of them
(log entry 13). The machine of `core` is that of the null host: it makes steps only.
-/

namespace Sys2Proof.Machine

/-- Input event (R79, R301): the character goes to the tail of the device's queue and the device
requests the interrupt. A device the platform does not have is refused (log entry 14). -/
def State.enqueue (s : State) (index : Nat) (c : Byte) : Result :=
  if index < s.io.length then
    let d := s.ioState index
    .next ((s.setIoState index { d with inFifo := d.inFifo ++ [c] }).signalIrq .request)
  else .refused (.noSuchDevice index)

/-- Host action `set_halted(b)` (R302 (a)). -/
def State.setHalted (s : State) (b : Bool) : State := { s with halted := b }

/-- Host action `set_halt_on_ebreak(b)` (R302 (b)). -/
def State.setHaltOnEbreak (s : State) (b : Bool) : State := { s with haltOnEbreak := b }

/-- A program loaded into an existing session is a reset on the same platform (R281, R302 (d)). -/
def State.reload (s : State) (l : Launch) : Except ConfigError State := construct s.cfg l

/-- One element of a run (R300). -/
inductive HostCall where
  | step
  | enqueue (index : Nat) (c : Byte)
  | setHalted (b : Bool)
  | setHaltOnEbreak (b : Bool)
deriving DecidableEq, Repr

/-- What one call does. -/
def applyCall (s : State) : HostCall → Result
  | .step => step s
  | .enqueue index c => s.enqueue index c
  | .setHalted b => .next (s.setHalted b)
  | .setHaltOnEbreak b => .next (s.setHaltOnEbreak b)

/-- A run: the calls in order, over at the first fault or refusal (R252 (d), R300). -/
def runCalls : List HostCall → State → Result
  | [], s => .next s
  | c :: rest, s =>
    match applyCall s c with
    | .next t => runCalls rest t
    | .fault f => .fault f
    | .refused r => .refused r

/-- `run_until_halt()` (R140), cut off after `fuel` steps. -/
def runUntilHalt : Nat → State → Result
  | 0, s => .next s
  | fuel + 1, s =>
    if s.halted then .next s
    else
      match step s with
      | .next t => runUntilHalt fuel t
      | .fault f => .fault f
      | .refused r => .refused r

/-- A direct bus read by the host, of any number of bytes (R63, R65): the size is checked first (log
entry 8). -/
def State.busRead (s : State) (addr : Word) (n : Nat) : Host.Outcome (Word × State) Fault Refusal :=
  match Size.ofBytes n with
  | none => .fault (.invalidSize n s.pc)
  | some sz =>
    match s.memRead addr sz with
    | .ok r => .next r
    | .error (.unmapped a) => .fault (.unmappedAddress a s.pc)
    | .error (.ioUnspecified a k w) => .refused (.ioUnspecified a k w)

/-- A direct bus write by the host (R63, R65). It is no write of the CPU and leaves the reservation
(R67, R302). -/
def State.busWrite (s : State) (addr : Word) (n : Nat) (v : Word) : Result :=
  match Size.ofBytes n with
  | none => .fault (.invalidSize n s.pc)
  | some sz =>
    match s.deviceWrite addr sz v with
    | .ok t => .next t
    | .error e => e.result s.pc

end Sys2Proof.Machine
end

