-- ==== Sys2Proof/Safety.lean ====
section
/-!
DEFINITION. The terms claims use: the parts of a state that an instruction leaves alone (frames), where an
access falls, kinds of instructions, the invariant every step keeps, and what counts as a safe run.
-/

namespace Sys2Proof.Safety

open Sys2Proof.Machine

/-! ### Frames -/

/-- Every general register reads as before. -/
def SameRegs (s t : State) : Prop := ∀ r : RegId, t.readReg r = s.readReg r

/-- `x[rd]` reads as `v` unless it is `x[0]`; every other register, `x[0]` among them, reads as before
(10_state R21, R22). -/
def RegWritten (rd : RegId) (v : Word) (s t : State) : Prop :=
  ∀ r : RegId, t.readReg r = if r = rd ∧ rd ≠ 0 then v else s.readReg r

/-- Every byte of RAM reads as before. -/
def SameRam (s t : State) : Prop := ∀ k, Memory.readByte t.ram k = Memory.readByte s.ram k

/-- Every byte of RAM outside the `n` bytes at offset `off` reads as before. -/
def SameRamOutside (off n : Nat) (s t : State) : Prop :=
  ∀ k, (k < off ∨ off + n ≤ k) → Memory.readByte t.ram k = Memory.readByte s.ram k

/-- The three run flags are as before. -/
structure SameRunFlags (s t : State) : Prop where
  halted       : t.halted = s.halted
  haltOnEbreak : t.haltOnEbreak = s.haltOnEbreak
  waiting      : t.waiting = s.waiting

/-- Everything but the general registers and `PC` is as before. -/
structure OnlyRegsAndPc (s t : State) : Prop where
  cfg    : t.cfg = s.cfg
  flags  : SameRunFlags s t
  csrs   : t.csrs = s.csrs
  resv   : t.resv = s.resv
  ram    : SameRam s t
  io     : t.io = s.io
  events : t.events = s.events

/-- Everything but RAM, `PC` and the reservation is as before, and the reservation is gone: a store to
RAM. -/
structure OnlyRamAndPc (s t : State) : Prop where
  cfg    : t.cfg = s.cfg
  regs   : SameRegs s t
  flags  : SameRunFlags s t
  csrs   : t.csrs = s.csrs
  resv   : t.resv = none
  io     : t.io = s.io
  events : t.events = s.events

/-! ### Where an access falls (20_memory R63, R64, R68) -/

/-- The `n` bytes at `addr` lie in the RAM device. -/
def InRam (p : Platform) (addr : Word) (n : Nat) : Prop :=
  p.ramBase ≤ addr.toNat ∧ addr.toNat + n ≤ p.ramBase + p.ramSize

/-- The `n` bytes at `addr` lie in the window of the IO device at place `index`, from its offset
`off`. -/
def InIo (p : Platform) (addr : Word) (n index off : Nat) : Prop :=
  ∃ b, p.ioBases[index]? = some b ∧ addr.toNat = b + off ∧ off + n ≤ p.ioSize

/-- No device holds the `n` bytes at `addr`. -/
def Unmapped (p : Platform) (addr : Word) (n : Nat) : Prop :=
  ¬ InRam p addr n ∧ ∀ index off, ¬ InIo p addr n index off

/-- The RAM offset of a bus address (R63). -/
def ramOffset (p : Platform) (addr : Word) : Nat := addr.toNat - p.ramBase

/-- The little-endian number of the `n` RAM bytes at a bus address (R66, R70), as a sum of its bytes. -/
def ramNumber (s : State) (addr : Word) (n : Nat) : Nat :=
  ((List.range n).map fun k =>
    (Memory.readByte s.ram (ramOffset s.cfg addr + k)).toNat * 256 ^ k).sum

/-! ### Kinds of instructions -/

def isLoad : Instr → Bool
  | .lb _ _ _ | .lh _ _ _ | .lw _ _ _ | .lbu _ _ _ | .lhu _ _ _ => true
  | _ => false

def isStore : Instr → Bool
  | .sb _ _ _ | .sh _ _ _ | .sw _ _ _ => true
  | _ => false

def isLr : Instr → Bool
  | .lrW _ _ _ _ => true
  | _ => false

def isSc : Instr → Bool
  | .scW _ _ _ _ _ => true
  | _ => false

def isAmo : Instr → Bool
  | .amoswapW _ _ _ _ _ | .amoaddW _ _ _ _ _ | .amoxorW _ _ _ _ _ | .amoandW _ _ _ _ _
  | .amoorW _ _ _ _ _ | .amominW _ _ _ _ _ | .amomaxW _ _ _ _ _ | .amominuW _ _ _ _ _
  | .amomaxuW _ _ _ _ _ => true
  | _ => false

def isZicsr : Instr → Bool
  | .csrrw _ _ _ | .csrrs _ _ _ | .csrrc _ _ _ | .csrrwi _ _ _ | .csrrsi _ _ _ | .csrrci _ _ _ => true
  | _ => false

/-- The instructions that write memory when they complete (SC.W: when it succeeds). -/
def writesMemory (i : Instr) : Bool := isStore i || isSc i || isAmo i

/-- The instructions that make a bus access of their own. -/
def usesBus (i : Instr) : Bool := isLoad i || isLr i || writesMemory i

/-! ### The invariant -/

/-- What every step keeps: the platform builds a machine (60_exceptions R257), the RAM is in its canonical
form and lists no byte outside the device, each IO device of the platform has its state, the shadow is in
use only where the platform has it, and a reservation is at a multiple of 4 (20_memory R74). -/
structure Inv (s : State) : Prop where
  platform     : Platform.wf s.cfg = true
  ramCanonical : Memory.wf s.ram = true
  ramInside    : ∀ c ∈ s.ram, c.1 < s.cfg.ramSize
  ioMatches    : s.io.length = s.cfg.ioBases.length
  shadowUnused : s.cfg.ioShadow = false → ∀ d ∈ s.io, d.shadow = IoState.reset.shadow
  resvAligned  : ∀ a, s.resv = some a → a.toNat % 4 = 0

/-! ### Safe runs -/

/-- No unrecognised word has been met (10_state R51, 47_system R239 (c)). -/
def NoDiagnostic (s : State) : Prop := ∀ addr word, Event.diagnostic addr word ∉ s.events

/-- A run of calls is safe: it ends in a state, with no fault and no refusal on the way, and no
unrecognised word was met (R51, R252 (d), R256). -/
def SafeRun (calls : List HostCall) (s : State) : Prop :=
  ∃ t, runCalls calls s = .next t ∧ NoDiagnostic t

/-- The state between steps in which the next step runs an instruction: Running, no trap (10_state R48,
40_step_cycle R130). -/
structure Running (s : State) : Prop where
  notHalted  : s.halted = false
  noTrap     : ¬ (s.csrs.mstatus.getLsbD 3 = true ∧ s.csrs.mie.getLsbD 11 = true
                  ∧ s.csrs.mip.getLsbD 11 = true)
  notWaiting : s.waiting = false

end Sys2Proof.Safety
end

