-- ==== Sys2Proof/Certificates/Slice0/Obligations.lean ====
section
/-!
DEFINITION. The statements about the machine, from the numbered rules of spec/, with the terms they share.
-/

namespace Sys2Proof.Claims

open Sys2Proof.Machine Sys2Proof.Safety

/-! ### Words, from the formats of 30_encoding R102 to R110, most significant field first

The bit patterns are the spec's, which marks them as general knowledge (log entry 12). -/

/-- R102. -/
def wordR (funct7 : BitVec 7) (rs2 rs1 : BitVec 5) (funct3 : BitVec 3) (rd : BitVec 5)
    (opcode : BitVec 7) : Word :=
  funct7 ++ rs2 ++ rs1 ++ funct3 ++ rd ++ opcode

/-- R103, R109. -/
def wordI (imm : BitVec 12) (rs1 : BitVec 5) (funct3 : BitVec 3) (rd : BitVec 5)
    (opcode : BitVec 7) : Word :=
  imm ++ rs1 ++ funct3 ++ rd ++ opcode

/-- R104. -/
def wordS (imm : BitVec 12) (rs2 rs1 : BitVec 5) (funct3 : BitVec 3) (opcode : BitVec 7) : Word :=
  imm.extractLsb 11 5 ++ rs2 ++ rs1 ++ funct3 ++ imm.extractLsb 4 0 ++ opcode

/-- R105. -/
def wordB (imm : BitVec 13) (rs2 rs1 : BitVec 5) (funct3 : BitVec 3) (opcode : BitVec 7) : Word :=
  imm.extractLsb 12 12 ++ imm.extractLsb 10 5 ++ rs2 ++ rs1 ++ funct3 ++ imm.extractLsb 4 1
    ++ imm.extractLsb 11 11 ++ opcode

/-- R106. -/
def wordU (imm : BitVec 20) (rd : BitVec 5) (opcode : BitVec 7) : Word := imm ++ rd ++ opcode

/-- R107. -/
def wordJ (imm : BitVec 21) (rd : BitVec 5) (opcode : BitVec 7) : Word :=
  imm.extractLsb 20 20 ++ imm.extractLsb 10 1 ++ imm.extractLsb 11 11 ++ imm.extractLsb 19 12 ++ rd
    ++ opcode

/-- R110. -/
def wordA (funct5 : BitVec 5) (aq rl : BitVec 1) (rs2 rs1 rd : BitVec 5) : Word :=
  funct5 ++ aq ++ rl ++ rs2 ++ rs1 ++ 0b010#3 ++ rd ++ 0b0101111#7

/-- The word is the instruction. -/
def Decodes (w : Word) (i : Instr) : Prop := decodeWord w = .ok i

/-! ### How an instruction completes -/

/-- `i` completes from `s`: `x[rd]` takes `v` (nothing when `rd` is `x0`), `PC` goes to the next
instruction, every other register is as in `s`, and everything else is as in `base`. -/
def CompletesOver (i : Instr) (s base : State) (rd : RegId) (v : Word) : Prop :=
  ∃ t, exec i s = .next t ∧ t.pc = s.pc + 4 ∧ RegWritten rd v s t ∧ OnlyRegsAndPc base t

/-- `i` completes from `s` with `x[rd]` and `PC` its only changes. -/
def Completes (i : Instr) (s : State) (rd : RegId) (v : Word) : Prop := CompletesOver i s s rd v

/-- `i` completes from `s` with no register written: everything but `PC` is as in `base`. -/
def CompletesPlain (i : Instr) (s base : State) : Prop :=
  ∃ t, exec i s = .next t ∧ t.pc = s.pc + 4 ∧ SameRegs s t ∧ OnlyRegsAndPc base t

/-- `i` completes from `s` with `PC` at `target` its only change. -/
def GoesTo (i : Instr) (s : State) (target : Word) : Prop :=
  ∃ t, exec i s = .next t ∧ t.pc = target ∧ SameRegs s t ∧ OnlyRegsAndPc s t

/-- `i` ends the run with the fault of an unmapped address, `PC` left at the next instruction. -/
def Unmaps (i : Instr) (s : State) (a : Word) : Prop :=
  exec i s = .fault (.unmappedAddress a (s.pc + 4))

/-- A 32-bit pattern from an integer, modulo 2^32 (00_scope R9, `trunc32`). -/
def pattern (n : Int) : Word := BitVec.ofInt 32 n

/-- The two's-complement value of the low `n` bits of a number (00_scope R10). -/
def signedValue (n : Nat) (v : Nat) : Int := if v < 2 ^ (n - 1) then v else v - 2 ^ n

/-- `v` is the bitwise combination of `a` and `b` on all 32 bits. -/
def Bitwise (f : Bool → Bool → Bool) (a b v : Word) : Prop :=
  ∀ j < 32, v.getLsbD j = f (a.getLsbD j) (b.getLsbD j)

/-- A truth value as a register value. -/
def truth (p : Prop) [Decidable p] : Word := if p then 1 else 0

/-- The address is a multiple of 4. -/
def Aligned4 (a : Word) : Prop := a.toNat % 4 = 0

/-- `t` is `s` with the low `n` bytes of `v` in RAM at the bus address `a`, byte `k` at `a + k`, and every
other byte of RAM as before. -/
def RamHolds (s t : State) (a : Word) (n : Nat) (v : Word) : Prop :=
  (∀ k < n, (Memory.readByte t.ram (ramOffset s.cfg a + k)).toNat = v.toNat / 256 ^ k % 256) ∧
  SameRamOutside (ramOffset s.cfg a) n s t

/-- `i` stores the low `n` bytes of `v` to RAM at `a`: those bytes, `PC` and the reservation, which is
gone, are its only changes. -/
def StoresToRam (i : Instr) (s : State) (a : Word) (n : Nat) (v : Word) : Prop :=
  ∃ t, exec i s = .next t ∧ t.pc = s.pc + 4 ∧ RamHolds s t a n v ∧ OnlyRamAndPc s t

/-- `i` writes the word `v` to RAM at `a` and `x[rd]` takes `w`: those, `PC` and the reservation, which is
gone, are its only changes. -/
def StoresWordAndWrites (i : Instr) (s : State) (a v : Word) (rd : RegId) (w : Word) : Prop :=
  ∃ t, exec i s = .next t ∧ t.pc = s.pc + 4 ∧ RamHolds s t a 4 v ∧ RegWritten rd w s t ∧
    OnlyRegsAndPc { s with ram := t.ram, resv := none } t

end Sys2Proof.Claims

open Sys2Proof Sys2Proof.Machine Sys2Proof.Safety Sys2Proof.Claims

/-! ## Encoding -/

/-- Words of spec/30_encoding and of the examples of the instruction rules, one for each format. -/
def Obligations.SpecExampleWordsDecode : Prop :=
  Decodes 0x123452B7 (.lui 5 0x12345) ∧
  Decodes 0xFFDFF06F (.jal 0 (BitVec.ofInt 21 (-4))) ∧
  Decodes 0xFFF08093 (.addi 1 1 (BitVec.ofInt 12 (-1))) ∧
  Decodes 0x4040D193 (.srai 3 1 4) ∧
  Decodes 0x402081B3 (.sub 3 1 2) ∧
  Decodes 0xFE209CE3 (.bne 1 2 (BitVec.ofInt 13 (-8))) ∧
  Decodes 0x00512223 (.sw 2 5 4) ∧
  Decodes 0x1875232F (.scW 6 10 7 0 0) ∧
  Decodes 0x340312F3 (.csrrw 5 6 0x340) ∧
  Decodes 0x30200073 .mret

/-- R112, R114: what the encoder writes for a well-formed instruction, the decoder reads back, operands
and all. -/
def Obligations.DecodeInvertsEncode : Prop :=
  ∀ i : Instr, i.wf = true → decodeWord (encode i) = .ok i

/-- R112, R116: a word that decodes is the word of its instruction, which is well formed: the decoder drops
no bit. That every bit counts is the strictness of the spec's decision D5. -/
def Obligations.EncodeInvertsDecode : Prop :=
  ∀ (w : Word) (i : Instr), decodeWord w = .ok i → i.wf = true ∧ encode i = w

/-- R113, R118: the words that are no instruction. The strictness is the spec's decision D5, D7. -/
def Obligations.UnrecognisedEncodings : Prop :=
  ∀ w : Word,
    (w.extractLsb 6 0 ∉ ([0x37, 0x17, 0x6F, 0x67, 0x63, 0x03, 0x23, 0x13, 0x33, 0x2F, 0x73] :
        List (BitVec 7))
      ∨ w.extractLsb 1 0 ≠ 0b11#2
      ∨ (w.extractLsb 6 0 = 0x73#7 ∧ w.extractLsb 14 12 = 0b000#3 ∧
          w ∉ ([0x00000073, 0x00100073, 0x10500073, 0x30200073] : List Word))
      ∨ (w.extractLsb 6 0 = 0x73#7 ∧ w.extractLsb 14 12 = 0b100#3)
      ∨ (w.extractLsb 6 0 = 0x33#7 ∧ w.extractLsb 31 25 ∉ ([0x00, 0x20, 0x01] : List (BitVec 7)))
      ∨ (w.extractLsb 6 0 = 0x33#7 ∧ w.extractLsb 31 25 = 0x20#7 ∧
          w.extractLsb 14 12 ≠ 0b000#3 ∧ w.extractLsb 14 12 ≠ 0b101#3)
      ∨ (w.extractLsb 6 0 = 0x13#7 ∧ w.extractLsb 14 12 = 0b001#3 ∧ w.extractLsb 31 25 ≠ 0x00#7)
      ∨ (w.extractLsb 6 0 = 0x13#7 ∧ w.extractLsb 14 12 = 0b101#3 ∧
          w.extractLsb 31 25 ≠ 0x00#7 ∧ w.extractLsb 31 25 ≠ 0x20#7)
      ∨ (w.extractLsb 6 0 = 0x03#7 ∧ w.extractLsb 14 12 ∈ ([3, 6, 7] : List (BitVec 3)))
      ∨ (w.extractLsb 6 0 = 0x23#7 ∧ w.extractLsb 14 12 ∈ ([3, 4, 5, 6, 7] : List (BitVec 3)))
      ∨ (w.extractLsb 6 0 = 0x63#7 ∧ w.extractLsb 14 12 ∈ ([2, 3] : List (BitVec 3)))
      ∨ (w.extractLsb 6 0 = 0x67#7 ∧ w.extractLsb 14 12 ≠ 0b000#3)
      ∨ (w.extractLsb 6 0 = 0x2F#7 ∧ w.extractLsb 14 12 ≠ 0b010#3)
      ∨ (w.extractLsb 6 0 = 0x2F#7 ∧ w.extractLsb 31 27 ∉
          ([0x02, 0x03, 0x01, 0x00, 0x04, 0x0C, 0x08, 0x10, 0x14, 0x18, 0x1C] : List (BitVec 5)))
      ∨ (w.extractLsb 6 0 = 0x2F#7 ∧ w.extractLsb 31 27 = 0x02#5 ∧ w.extractLsb 24 20 ≠ 0#5)) →
    decodeWord w = .error (.unrecognised w)

/-! ## Base integer computational instructions -/

/-- R151, R152: the 20 bits stand above 12 zeros. That AUIPC's base is the address of the AUIPC itself is the
spec's decision D2. -/
def Obligations.UpperImmediateResults : Prop :=
  ∀ (s : State) (rd : RegId) (imm : BitVec 20),
    (Decodes (wordU imm rd 0b0110111#7) (.lui rd imm) ∧
      Completes (.lui rd imm) s rd (pattern (imm.toNat * 4096))) ∧
    (Decodes (wordU imm rd 0b0010111#7) (.auipc rd imm) ∧
      Completes (.auipc rd imm) s rd (pattern (s.pc.toNat + imm.toNat * 4096)))

/-- R153 to R158: `imm_I` is the signed value of the 12 bits; SLTIU and the logical operations take its
32-bit pattern. -/
def Obligations.RegisterImmediateResults : Prop :=
  ∀ (s : State) (rd rs1 : RegId) (imm : BitVec 12),
    let a := s.readReg rs1
    let i := pattern imm.toInt
    (Decodes (wordI imm rs1 0b000#3 rd 0b0010011#7) (.addi rd rs1 imm) ∧
      Completes (.addi rd rs1 imm) s rd (pattern (a.toInt + imm.toInt))) ∧
    (Decodes (wordI imm rs1 0b010#3 rd 0b0010011#7) (.slti rd rs1 imm) ∧
      Completes (.slti rd rs1 imm) s rd (truth (a.toInt < imm.toInt))) ∧
    (Decodes (wordI imm rs1 0b011#3 rd 0b0010011#7) (.sltiu rd rs1 imm) ∧
      Completes (.sltiu rd rs1 imm) s rd (truth (a.toNat < i.toNat))) ∧
    (Decodes (wordI imm rs1 0b100#3 rd 0b0010011#7) (.xori rd rs1 imm) ∧
      ∃ v, Bitwise xor a i v ∧ Completes (.xori rd rs1 imm) s rd v) ∧
    (Decodes (wordI imm rs1 0b110#3 rd 0b0010011#7) (.ori rd rs1 imm) ∧
      ∃ v, Bitwise or a i v ∧ Completes (.ori rd rs1 imm) s rd v) ∧
    (Decodes (wordI imm rs1 0b111#3 rd 0b0010011#7) (.andi rd rs1 imm) ∧
      ∃ v, Bitwise and a i v ∧ Completes (.andi rd rs1 imm) s rd v)

/-- R159, R160, R161: the shifts by `shamt` as arithmetic; `/` rounds toward minus infinity. -/
def Obligations.ShiftImmediateResults : Prop :=
  ∀ (s : State) (rd rs1 : RegId) (shamt : BitVec 5),
    let a := s.readReg rs1
    let n := shamt.toNat
    (Decodes (wordR 0b0000000#7 shamt rs1 0b001#3 rd 0b0010011#7) (.slli rd rs1 shamt) ∧
      Completes (.slli rd rs1 shamt) s rd (pattern (a.toNat * 2 ^ n))) ∧
    (Decodes (wordR 0b0000000#7 shamt rs1 0b101#3 rd 0b0010011#7) (.srli rd rs1 shamt) ∧
      Completes (.srli rd rs1 shamt) s rd (pattern (a.toNat / 2 ^ n))) ∧
    (Decodes (wordR 0b0100000#7 shamt rs1 0b101#3 rd 0b0010011#7) (.srai rd rs1 shamt) ∧
      Completes (.srai rd rs1 shamt) s rd (pattern (a.toInt / 2 ^ n)))

/-- R162, R163, R165, R166, R167, R170, R171. -/
def Obligations.RegisterRegisterResults : Prop :=
  ∀ (s : State) (rd rs1 rs2 : RegId),
    let a := s.readReg rs1
    let b := s.readReg rs2
    (Decodes (wordR 0b0000000#7 rs2 rs1 0b000#3 rd 0b0110011#7) (.add rd rs1 rs2) ∧
      Completes (.add rd rs1 rs2) s rd (pattern (a.toInt + b.toInt))) ∧
    (Decodes (wordR 0b0100000#7 rs2 rs1 0b000#3 rd 0b0110011#7) (.sub rd rs1 rs2) ∧
      Completes (.sub rd rs1 rs2) s rd (pattern (a.toInt - b.toInt))) ∧
    (Decodes (wordR 0b0000000#7 rs2 rs1 0b010#3 rd 0b0110011#7) (.slt rd rs1 rs2) ∧
      Completes (.slt rd rs1 rs2) s rd (truth (a.toInt < b.toInt))) ∧
    (Decodes (wordR 0b0000000#7 rs2 rs1 0b011#3 rd 0b0110011#7) (.sltu rd rs1 rs2) ∧
      Completes (.sltu rd rs1 rs2) s rd (truth (a.toNat < b.toNat))) ∧
    (Decodes (wordR 0b0000000#7 rs2 rs1 0b100#3 rd 0b0110011#7) (.xor rd rs1 rs2) ∧
      ∃ v, Bitwise xor a b v ∧ Completes (.xor rd rs1 rs2) s rd v) ∧
    (Decodes (wordR 0b0000000#7 rs2 rs1 0b110#3 rd 0b0110011#7) (.or rd rs1 rs2) ∧
      ∃ v, Bitwise or a b v ∧ Completes (.or rd rs1 rs2) s rd v) ∧
    (Decodes (wordR 0b0000000#7 rs2 rs1 0b111#3 rd 0b0110011#7) (.and rd rs1 rs2) ∧
      ∃ v, Bitwise and a b v ∧ Completes (.and rd rs1 rs2) s rd v)

/-- R164, R168, R169: the amount is the low 5 bits of `x[rs2]`. -/
def Obligations.ShiftRegisterResults : Prop :=
  ∀ (s : State) (rd rs1 rs2 : RegId),
    let a := s.readReg rs1
    let n := (s.readReg rs2).toNat % 32
    (Decodes (wordR 0b0000000#7 rs2 rs1 0b001#3 rd 0b0110011#7) (.sll rd rs1 rs2) ∧
      Completes (.sll rd rs1 rs2) s rd (pattern (a.toNat * 2 ^ n))) ∧
    (Decodes (wordR 0b0000000#7 rs2 rs1 0b101#3 rd 0b0110011#7) (.srl rd rs1 rs2) ∧
      Completes (.srl rd rs1 rs2) s rd (pattern (a.toNat / 2 ^ n))) ∧
    (Decodes (wordR 0b0100000#7 rs2 rs1 0b101#3 rd 0b0110011#7) (.sra rd rs1 rs2) ∧
      Completes (.sra rd rs1 rs2) s rd (pattern (a.toInt / 2 ^ n)))

/-! ## Multiply and divide -/

/-- R201 to R204: exact products; MUL has bits 31:0, the others bits 63:32, and MUL's result is the same
for signed operands. -/
def Obligations.MultiplyResults : Prop :=
  ∀ (s : State) (rd rs1 rs2 : RegId),
    let a := s.readReg rs1
    let b := s.readReg rs2
    (Decodes (wordR 0b0000001#7 rs2 rs1 0b000#3 rd 0b0110011#7) (.mul rd rs1 rs2) ∧
      Completes (.mul rd rs1 rs2) s rd (pattern (a.toNat * b.toNat)) ∧
      pattern (a.toNat * b.toNat) = pattern (a.toInt * b.toInt)) ∧
    (Decodes (wordR 0b0000001#7 rs2 rs1 0b001#3 rd 0b0110011#7) (.mulh rd rs1 rs2) ∧
      Completes (.mulh rd rs1 rs2) s rd (pattern (a.toInt * b.toInt / 2 ^ 32))) ∧
    (Decodes (wordR 0b0000001#7 rs2 rs1 0b010#3 rd 0b0110011#7) (.mulhsu rd rs1 rs2) ∧
      Completes (.mulhsu rd rs1 rs2) s rd (pattern (a.toInt * b.toNat / 2 ^ 32))) ∧
    (Decodes (wordR 0b0000001#7 rs2 rs1 0b011#3 rd 0b0110011#7) (.mulhu rd rs1 rs2) ∧
      Completes (.mulhu rd rs1 rs2) s rd (pattern (a.toNat * b.toNat / 2 ^ 32)))

/-- R205 to R208: `tdiv` rounds toward zero. -/
def Obligations.DivideResults : Prop :=
  ∀ (s : State) (rd rs1 rs2 : RegId),
    let a := s.readReg rs1
    let b := s.readReg rs2
    (Decodes (wordR 0b0000001#7 rs2 rs1 0b100#3 rd 0b0110011#7) (.div rd rs1 rs2) ∧
      Completes (.div rd rs1 rs2) s rd
        (if b = 0 then 0xFFFFFFFF
         else if a = 0x80000000 ∧ b = 0xFFFFFFFF then 0x80000000
         else pattern (a.toInt.tdiv b.toInt))) ∧
    (Decodes (wordR 0b0000001#7 rs2 rs1 0b101#3 rd 0b0110011#7) (.divu rd rs1 rs2) ∧
      Completes (.divu rd rs1 rs2) s rd
        (if b = 0 then 0xFFFFFFFF else pattern (a.toNat / b.toNat))) ∧
    (Decodes (wordR 0b0000001#7 rs2 rs1 0b110#3 rd 0b0110011#7) (.rem rd rs1 rs2) ∧
      Completes (.rem rd rs1 rs2) s rd
        (if b = 0 then a
         else if a = 0x80000000 ∧ b = 0xFFFFFFFF then 0
         else pattern (a.toInt - b.toInt * a.toInt.tdiv b.toInt))) ∧
    (Decodes (wordR 0b0000001#7 rs2 rs1 0b111#3 rd 0b0110011#7) (.remu rd rs1 rs2) ∧
      Completes (.remu rd rs1 rs2) s rd (if b = 0 then a else pattern (a.toNat % b.toNat)))

/-- R200 (d): quotient and remainder, as the two instructions leave them in two registers, give the
dividend back, and the remainder has the dividend's sign and is smaller than the divisor. -/
def Obligations.DivisionLaw : Prop :=
  ∀ (s : State) (q r rs1 rs2 : RegId) (t u : State),
    q ≠ 0 → r ≠ 0 → s.readReg rs2 ≠ 0 →
    let a := s.readReg rs1
    let b := s.readReg rs2
    (¬ (a = 0x80000000 ∧ b = 0xFFFFFFFF) →
      exec (.div q rs1 rs2) s = .next t → exec (.rem r rs1 rs2) s = .next u →
      a.toInt = b.toInt * (t.readReg q).toInt + (u.readReg r).toInt ∧
      |(u.readReg r).toInt| < |b.toInt| ∧
      (0 ≤ a.toInt → 0 ≤ (u.readReg r).toInt) ∧ (a.toInt ≤ 0 → (u.readReg r).toInt ≤ 0)) ∧
    (exec (.divu q rs1 rs2) s = .next t → exec (.remu r rs1 rs2) s = .next u →
      a.toNat = b.toNat * (t.readReg q).toNat + (u.readReg r).toNat ∧
      (u.readReg r).toNat < b.toNat)

/-! ## Control transfer -/

/-- R180, R181: the link is the next address, bit 0 of the target is cleared, and JALR's target uses the
old value of `rs1` also when `rd` is `rs1`. -/
def Obligations.JumpResults : Prop :=
  ∀ (s : State) (rd rs1 : RegId) (imm : BitVec 12) (off : BitVec 21),
    (off.getLsbD 0 = false →
      Decodes (wordJ off rd 0b1101111#7) (.jal rd off)) ∧
    (∃ t, exec (.jal rd off) s = .next t ∧
      t.pc = pattern (s.pc.toNat + off.toInt) &&& 0xFFFFFFFE ∧
      RegWritten rd (s.pc + 4) s t ∧ OnlyRegsAndPc s t) ∧
    Decodes (wordI imm rs1 0b000#3 rd 0b1100111#7) (.jalr rd rs1 imm) ∧
    (∃ t, exec (.jalr rd rs1 imm) s = .next t ∧
      t.pc = pattern ((s.readReg rs1).toNat + imm.toInt) &&& 0xFFFFFFFE ∧
      RegWritten rd (s.pc + 4) s t ∧ OnlyRegsAndPc s t)

/-- R183 to R188: a taken branch goes to `pc + imm_B`, unmasked, one not taken to the next
instruction; no register is written. -/
def Obligations.BranchResults : Prop :=
  ∀ (s : State) (rs1 rs2 : RegId) (imm : BitVec 13),
    let a := s.readReg rs1
    let b := s.readReg rs2
    let target := pattern (s.pc.toNat + imm.toInt)
    (imm.getLsbD 0 = false →
      Decodes (wordB imm rs2 rs1 0b000#3 0b1100011#7) (.beq rs1 rs2 imm) ∧
      Decodes (wordB imm rs2 rs1 0b001#3 0b1100011#7) (.bne rs1 rs2 imm) ∧
      Decodes (wordB imm rs2 rs1 0b100#3 0b1100011#7) (.blt rs1 rs2 imm) ∧
      Decodes (wordB imm rs2 rs1 0b101#3 0b1100011#7) (.bge rs1 rs2 imm) ∧
      Decodes (wordB imm rs2 rs1 0b110#3 0b1100011#7) (.bltu rs1 rs2 imm) ∧
      Decodes (wordB imm rs2 rs1 0b111#3 0b1100011#7) (.bgeu rs1 rs2 imm)) ∧
    GoesTo (.beq rs1 rs2 imm) s (if a = b then target else s.pc + 4) ∧
    GoesTo (.bne rs1 rs2 imm) s (if a ≠ b then target else s.pc + 4) ∧
    GoesTo (.blt rs1 rs2 imm) s (if a.toInt < b.toInt then target else s.pc + 4) ∧
    GoesTo (.bge rs1 rs2 imm) s (if a.toInt ≥ b.toInt then target else s.pc + 4) ∧
    GoesTo (.bltu rs1 rs2 imm) s (if a.toNat < b.toNat then target else s.pc + 4) ∧
    GoesTo (.bgeu rs1 rs2 imm) s (if a.toNat ≥ b.toNat then target else s.pc + 4)

/-! ## The bus -/

/-- R63: on a platform that builds a machine, an address has exactly the owner whose range holds it, RAM
or IO device, whatever the order of the list. -/
def Obligations.RoutingFindsTheOwner : Prop :=
  ∀ (p : Platform) (addr : Nat) (d : Device) (start stop : Nat), Platform.wf p = true →
    (Platform.owner p addr = some (d, start, stop) ↔
      start ≤ addr ∧ addr < stop ∧
      ((d = .ram ∧ start = p.ramBase ∧ stop = p.ramBase + p.ramSize) ∨
       (∃ k, d = .io k ∧ p.ioBases[k]? = some start ∧ stop = start + p.ioSize)))

/-- R66, R67, R70, R71: inside RAM, at any alignment, a read gives the little-endian number of its bytes and
changes nothing; a write stores the low bytes in address order, changes no other byte, and ends the
reservation. -/
def Obligations.RamAccess : Prop :=
  ∀ (s : State) (a : Word) (sz : Size) (v : Word), InRam s.cfg a sz.bytes →
    s.memRead a sz = .ok (pattern (ramNumber s a sz.bytes), s) ∧
    (Memory.wf s.ram = true →
      ∃ t, s.memWrite a sz v = .ok t ∧ RamHolds s t a sz.bytes v ∧
        t = { s with ram := t.ram, resv := none })

/-- R78: a byte read at offset 8 pops the oldest character of that device's queue, or gives 0. -/
def Obligations.IoInputRead : Prop :=
  ∀ (s : State) (a : Word) (k : Nat) (d : IoState), Platform.wf s.cfg = true →
    InIo s.cfg a 1 k 8 → s.io[k]? = some d →
    (d.inFifo = [] → s.memRead a .byte = .ok (0, s)) ∧
    (∀ c rest, d.inFifo = c :: rest →
      s.memRead a .byte =
        .ok (pattern c.toNat, { s with io := s.io.set k { d with inFifo := rest } }))

/-- R76, R77: a write at offset 0 appends the low bytes of the value to the device's output, least
significant first, and, with the shadow, to the shadow's first bytes; a word write of 0 at offset 4 clears
bit 11 of `mip`, past the mask, and touches no queue. Either way the reservation is gone (R67). The shadow,
the clear past the mask and the reservation are the spec's decisions D18, D8, D27. -/
def Obligations.IoWrites : Prop :=
  ∀ (s : State) (a : Word) (sz : Size) (v : Word) (k : Nat) (d : IoState),
    Platform.wf s.cfg = true → s.io[k]? = some d →
    (InIo s.cfg a sz.bytes k 0 →
      ∃ (e : IoState) (out : List Byte),
        s.memWrite a sz v = .ok { s with io := s.io.set k e, resv := none } ∧
        e.inFifo = d.inFifo ∧ e.outLog = d.outLog ++ out ∧
        out.map BitVec.toNat = (List.range sz.bytes).map (fun j => v.toNat / 256 ^ j % 256) ∧
        (∀ j : Fin 4,
          e.shadow[j] = if s.cfg.ioShadow = true ∧ j.val < sz.bytes
            then BitVec.ofNat 8 (v.toNat / 256 ^ j.val) else d.shadow[j])) ∧
    (InIo s.cfg a 4 k 4 →
      ∃ m : Word, (∀ j < 32, m.getLsbD j = (decide (j ≠ 11) && s.csrs.mip.getLsbD j)) ∧
        s.memWrite a .word 0 = .ok { s with csrs := { s.csrs with mip := m }, resv := none })

/-- R80: with the shadow, a read inside offsets 0 to 3 gives the shadow's bytes and changes nothing. -/
def Obligations.IoShadowRead : Prop :=
  ∀ (s : State) (a : Word) (sz : Size) (k off : Nat) (d : IoState), Platform.wf s.cfg = true →
    s.cfg.ioShadow = true → InIo s.cfg a sz.bytes k off → off + sz.bytes ≤ 4 → s.io[k]? = some d →
    ∃ v, s.memRead a sz = .ok (v, s) ∧
      v.toNat = ((List.range sz.bytes).map fun j => (d.shadow.getD (off + j) 0).toNat * 256 ^ j).sum

/-- R81, R212 (f), R256: an IO access outside the register map, and an AMO at an address that is not a
multiple of 4, have no defined successor. The refusals are the spec's decisions D18, D23. -/
def Obligations.UndefinedAccessesRefused : Prop :=
  (∀ (s : State) (a : Word) (sz : Size) (v : Word) (k off : Nat), Platform.wf s.cfg = true →
    InIo s.cfg a sz.bytes k off →
    (¬ (off = 8 ∧ sz = .byte) → ¬ (s.cfg.ioShadow = true ∧ off + sz.bytes ≤ 4) →
      s.memRead a sz = .error (.ioUnspecified a sz.bytes false)) ∧
    (off ≠ 0 → ¬ (off = 4 ∧ sz = .word ∧ v = 0) →
      s.memWrite a sz v = .error (.ioUnspecified a sz.bytes true))) ∧
  (∀ (i : Instr) (s : State) (rd rs1 rs2 : RegId) (aq rl : BitVec 1),
    ¬ Aligned4 (s.readReg rs1) →
    i ∈ [.amoswapW rd rs1 rs2 aq rl, .amoaddW rd rs1 rs2 aq rl, .amoxorW rd rs1 rs2 aq rl,
      .amoandW rd rs1 rs2 aq rl, .amoorW rd rs1 rs2 aq rl, .amominW rd rs1 rs2 aq rl,
      .amomaxW rd rs1 rs2 aq rl, .amominuW rd rs1 rs2 aq rl, .amomaxuW rd rs1 rs2 aq rl] →
    exec i s = .refused (.atomicMisaligned (s.readReg rs1)))

/-! ## Loads and stores -/

/-- R191 to R195: the address is `x[rs1] + imm_I`; the value read is extended by sign (LB, LH) or zero
(LBU, LHU); the read's own effects stay; an access that fails writes nothing and leaves `PC` at the next
instruction. -/
def Obligations.LoadsReadTheBus : Prop :=
  ∀ (s : State) (rd rs1 : RegId) (imm : BitVec 12),
    let a := s.effectiveAddress rs1 imm
    a = pattern ((s.readReg rs1).toInt + imm.toInt) ∧
    Decodes (wordI imm rs1 0b000#3 rd 0b0000011#7) (.lb rd rs1 imm) ∧
    Decodes (wordI imm rs1 0b001#3 rd 0b0000011#7) (.lh rd rs1 imm) ∧
    Decodes (wordI imm rs1 0b010#3 rd 0b0000011#7) (.lw rd rs1 imm) ∧
    Decodes (wordI imm rs1 0b100#3 rd 0b0000011#7) (.lbu rd rs1 imm) ∧
    Decodes (wordI imm rs1 0b101#3 rd 0b0000011#7) (.lhu rd rs1 imm) ∧
    (∀ v u, s.memRead a .byte = .ok (v, u) →
      CompletesOver (.lb rd rs1 imm) s u rd (pattern (signedValue 8 (v.toNat % 256))) ∧
      CompletesOver (.lbu rd rs1 imm) s u rd (pattern (v.toNat % 256))) ∧
    (∀ v u, s.memRead a .half = .ok (v, u) →
      CompletesOver (.lh rd rs1 imm) s u rd (pattern (signedValue 16 (v.toNat % 65536))) ∧
      CompletesOver (.lhu rd rs1 imm) s u rd (pattern (v.toNat % 65536))) ∧
    (∀ v u, s.memRead a .word = .ok (v, u) → CompletesOver (.lw rd rs1 imm) s u rd v) ∧
    (∀ e, s.memRead a .byte = .error e →
      exec (.lb rd rs1 imm) s = e.result (s.pc + 4) ∧ exec (.lbu rd rs1 imm) s = e.result (s.pc + 4)) ∧
    (∀ e, s.memRead a .half = .error e →
      exec (.lh rd rs1 imm) s = e.result (s.pc + 4) ∧ exec (.lhu rd rs1 imm) s = e.result (s.pc + 4)) ∧
    (∀ e, s.memRead a .word = .error e → exec (.lw rd rs1 imm) s = e.result (s.pc + 4))

/-- R190 to R195, R70, R71: a load inside RAM, at any alignment, completes with the little-endian number of
its bytes, extended; nothing else changes. -/
def Obligations.LoadsFromRam : Prop :=
  ∀ (s : State) (rd rs1 : RegId) (imm : BitVec 12),
    let a := s.effectiveAddress rs1 imm
    (InRam s.cfg a 1 →
      Completes (.lb rd rs1 imm) s rd (pattern (signedValue 8 (ramNumber s a 1))) ∧
      Completes (.lbu rd rs1 imm) s rd (pattern (ramNumber s a 1))) ∧
    (InRam s.cfg a 2 →
      Completes (.lh rd rs1 imm) s rd (pattern (signedValue 16 (ramNumber s a 2))) ∧
      Completes (.lhu rd rs1 imm) s rd (pattern (ramNumber s a 2))) ∧
    (InRam s.cfg a 4 → Completes (.lw rd rs1 imm) s rd (pattern (ramNumber s a 4)))

/-- R196 to R198: the address is `x[rs1] + imm_S`; the write is the bus write of the low bytes of `x[rs2]`,
with its effects; no register is written; a write that fails changes nothing but `PC`. -/
def Obligations.StoresWriteTheBus : Prop :=
  ∀ (s : State) (rs1 rs2 : RegId) (imm : BitVec 12),
    let a := s.effectiveAddress rs1 imm
    let b := s.readReg rs2
    a = pattern ((s.readReg rs1).toInt + imm.toInt) ∧
    Decodes (wordS imm rs2 rs1 0b000#3 0b0100011#7) (.sb rs1 rs2 imm) ∧
    Decodes (wordS imm rs2 rs1 0b001#3 0b0100011#7) (.sh rs1 rs2 imm) ∧
    Decodes (wordS imm rs2 rs1 0b010#3 0b0100011#7) (.sw rs1 rs2 imm) ∧
    (∀ u, s.memWrite a .byte b = .ok u → CompletesPlain (.sb rs1 rs2 imm) s u) ∧
    (∀ u, s.memWrite a .half b = .ok u → CompletesPlain (.sh rs1 rs2 imm) s u) ∧
    (∀ u, s.memWrite a .word b = .ok u → CompletesPlain (.sw rs1 rs2 imm) s u) ∧
    (∀ e, s.memWrite a .byte b = .error e → exec (.sb rs1 rs2 imm) s = e.result (s.pc + 4)) ∧
    (∀ e, s.memWrite a .half b = .error e → exec (.sh rs1 rs2 imm) s = e.result (s.pc + 4)) ∧
    (∀ e, s.memWrite a .word b = .error e → exec (.sw rs1 rs2 imm) s = e.result (s.pc + 4))

/-- R196 to R199, R72: a store inside RAM, at any alignment, completes: the low bytes of `x[rs2]` stand at
the effective address in address order, every other byte, every register and every CSR is as before, and
the reservation is gone. -/
def Obligations.StoresToRamComplete : Prop :=
  ∀ (s : State) (rs1 rs2 : RegId) (imm : BitVec 12), Memory.wf s.ram = true →
    let a := s.effectiveAddress rs1 imm
    (InRam s.cfg a 1 → StoresToRam (.sb rs1 rs2 imm) s a 1 (s.readReg rs2)) ∧
    (InRam s.cfg a 2 → StoresToRam (.sh rs1 rs2 imm) s a 2 (s.readReg rs2)) ∧
    (InRam s.cfg a 4 → StoresToRam (.sw rs1 rs2 imm) s a 4 (s.readReg rs2))

/-- R72: a load after a store of the same bytes returns what was stored, and a narrower load inside a
stored word sees its bytes at their little-endian places. -/
def Obligations.LoadAfterStore : Prop :=
  ∀ (s t : State) (rd rs1 rs2 base : RegId) (imm off : BitVec 12), Memory.wf s.ram = true →
    InRam s.cfg (s.effectiveAddress rs1 imm) 4 → exec (.sw rs1 rs2 imm) s = .next t →
    (t.effectiveAddress base off = s.effectiveAddress rs1 imm →
      Completes (.lw rd base off) t rd (s.readReg rs2)) ∧
    (∀ k < 4, (t.effectiveAddress base off).toNat = (s.effectiveAddress rs1 imm).toNat + k →
      Completes (.lbu rd base off) t rd (pattern ((s.readReg rs2).toNat / 256 ^ k % 256))) ∧
    (∀ k < 3, (t.effectiveAddress base off).toNat = (s.effectiveAddress rs1 imm).toNat + k →
      Completes (.lhu rd base off) t rd (pattern ((s.readReg rs2).toNat / 256 ^ k % 65536)))

/-- R253: a load, store, LR.W, AMO or matching SC.W whose bytes no device holds ends the run with
`UnmappedAddress`, `PC` at the next instruction. The state left, and the fault of an access that runs past a
device's end, are the spec's decisions D12, D14 (log entry 17). -/
def Obligations.UnmappedAccessFaults : Prop :=
  ∀ (s : State) (rd rs1 rs2 : RegId) (imm : BitVec 12) (aq rl : BitVec 1),
    let a := s.effectiveAddress rs1 imm
    let p := s.readReg rs1
    (Unmapped s.cfg a 1 → Unmaps (.lb rd rs1 imm) s a ∧ Unmaps (.lbu rd rs1 imm) s a ∧
      Unmaps (.sb rs1 rs2 imm) s a) ∧
    (Unmapped s.cfg a 2 → Unmaps (.lh rd rs1 imm) s a ∧ Unmaps (.lhu rd rs1 imm) s a ∧
      Unmaps (.sh rs1 rs2 imm) s a) ∧
    (Unmapped s.cfg a 4 → Unmaps (.lw rd rs1 imm) s a ∧ Unmaps (.sw rs1 rs2 imm) s a) ∧
    (Unmapped s.cfg p 4 → Aligned4 p →
      Unmaps (.lrW rd rs1 aq rl) s p ∧ Unmaps (.amoswapW rd rs1 rs2 aq rl) s p ∧
      Unmaps (.amoaddW rd rs1 rs2 aq rl) s p ∧ Unmaps (.amoxorW rd rs1 rs2 aq rl) s p ∧
      Unmaps (.amoandW rd rs1 rs2 aq rl) s p ∧ Unmaps (.amoorW rd rs1 rs2 aq rl) s p ∧
      Unmaps (.amominW rd rs1 rs2 aq rl) s p ∧ Unmaps (.amomaxW rd rs1 rs2 aq rl) s p ∧
      Unmaps (.amominuW rd rs1 rs2 aq rl) s p ∧ Unmaps (.amomaxuW rd rs1 rs2 aq rl) s p) ∧
    (Unmapped s.cfg p 4 → s.resv = some p → Unmaps (.scW rd rs1 rs2 aq rl) s p)

/-! ## Atomics -/

/-- R210: LR.W reads the word, holds a reservation at exactly this address and writes `rd`; misaligned, it
has no meaning; `rs2` must be 0 in the word, `aq` and `rl` are free. -/
def Obligations.LoadReserved : Prop :=
  ∀ (s : State) (rd rs1 : RegId) (aq rl : BitVec 1),
    let a := s.readReg rs1
    Decodes (wordA 0b00010#5 aq rl 0 rs1 rd) (.lrW rd rs1 aq rl) ∧
    (¬ Aligned4 a → exec (.lrW rd rs1 aq rl) s = .refused (.atomicMisaligned a)) ∧
    (Aligned4 a → ∀ v u, s.memRead a .word = .ok (v, u) →
      CompletesOver (.lrW rd rs1 aq rl) s { u with resv := some a } rd v) ∧
    (Aligned4 a → InRam s.cfg a 4 →
      CompletesOver (.lrW rd rs1 aq rl) s { s with resv := some a } rd (pattern (ramNumber s a 4))) ∧
    (Aligned4 a → ∀ e, s.memRead a .word = .error e →
      exec (.lrW rd rs1 aq rl) s = e.result (s.pc + 4))

/-- R211: SC.W writes and answers 0 exactly when a reservation is held at exactly this address; otherwise it
answers 1 and makes no bus access. Either way the reservation is gone, except on a fault. -/
def Obligations.StoreConditional : Prop :=
  ∀ (s : State) (rd rs1 rs2 : RegId) (aq rl : BitVec 1),
    let a := s.readReg rs1
    let b := s.readReg rs2
    Decodes (wordA 0b00011#5 aq rl rs2 rs1 rd) (.scW rd rs1 rs2 aq rl) ∧
    (s.resv ≠ some a → CompletesOver (.scW rd rs1 rs2 aq rl) s { s with resv := none } rd 1) ∧
    (s.resv = some a → ∀ u, s.memWrite a .word b = .ok u →
      CompletesOver (.scW rd rs1 rs2 aq rl) s { u with resv := none } rd 0) ∧
    (s.resv = some a → Memory.wf s.ram = true → InRam s.cfg a 4 →
      StoresWordAndWrites (.scW rd rs1 rs2 aq rl) s a b rd 0) ∧
    (s.resv = some a → ∀ e, s.memWrite a .word b = .error e →
      exec (.scW rd rs1 rs2 aq rl) s = e.result (s.pc + 4))

namespace Sys2Proof.Claims

/-- What R212 says of one AMO with its operation: the word read, then the word written at the same
address, then `rd`. -/
def AmoRuns (i : Instr) (s : State) (rd rs1 rs2 : RegId) (op : Word → Word → Word) : Prop :=
  let a := s.readReg rs1
  let b := s.readReg rs2
  Aligned4 a →
    (∀ v u w, s.memRead a .word = .ok (v, u) → u.memWrite a .word (op v b) = .ok w →
      CompletesOver i s w rd v) ∧
    (∀ e, s.memRead a .word = .error e → exec i s = e.result (s.pc + 4)) ∧
    (Memory.wf s.ram = true → InRam s.cfg a 4 →
      StoresWordAndWrites i s a (op (pattern (ramNumber s a 4)) b) rd (pattern (ramNumber s a 4)))

end Sys2Proof.Claims

/-- R212, R214 to R218: swap, add, exclusive-or, and, or; the bits `aq` and `rl` are free. -/
def Obligations.AmoArithmeticResults : Prop :=
  ∀ (s : State) (rd rs1 rs2 : RegId) (aq rl : BitVec 1),
    (Decodes (wordA 0b00001#5 aq rl rs2 rs1 rd) (.amoswapW rd rs1 rs2 aq rl) ∧
      AmoRuns (.amoswapW rd rs1 rs2 aq rl) s rd rs1 rs2 (fun _ b => b)) ∧
    (Decodes (wordA 0b00000#5 aq rl rs2 rs1 rd) (.amoaddW rd rs1 rs2 aq rl) ∧
      AmoRuns (.amoaddW rd rs1 rs2 aq rl) s rd rs1 rs2 (fun t b => pattern (t.toInt + b.toInt))) ∧
    (∃ f, (∀ t b, Bitwise xor t b (f t b)) ∧
      Decodes (wordA 0b00100#5 aq rl rs2 rs1 rd) (.amoxorW rd rs1 rs2 aq rl) ∧
      AmoRuns (.amoxorW rd rs1 rs2 aq rl) s rd rs1 rs2 f) ∧
    (∃ f, (∀ t b, Bitwise and t b (f t b)) ∧
      Decodes (wordA 0b01100#5 aq rl rs2 rs1 rd) (.amoandW rd rs1 rs2 aq rl) ∧
      AmoRuns (.amoandW rd rs1 rs2 aq rl) s rd rs1 rs2 f) ∧
    (∃ f, (∀ t b, Bitwise or t b (f t b)) ∧
      Decodes (wordA 0b01000#5 aq rl rs2 rs1 rd) (.amoorW rd rs1 rs2 aq rl) ∧
      AmoRuns (.amoorW rd rs1 rs2 aq rl) s rd rs1 rs2 f)

/-- R212, R219 to R222: minimum and maximum, signed and unsigned. -/
def Obligations.AmoMinMaxResults : Prop :=
  ∀ (s : State) (rd rs1 rs2 : RegId) (aq rl : BitVec 1),
    (Decodes (wordA 0b10000#5 aq rl rs2 rs1 rd) (.amominW rd rs1 rs2 aq rl) ∧
      AmoRuns (.amominW rd rs1 rs2 aq rl) s rd rs1 rs2 (fun t b => pattern (min t.toInt b.toInt))) ∧
    (Decodes (wordA 0b10100#5 aq rl rs2 rs1 rd) (.amomaxW rd rs1 rs2 aq rl) ∧
      AmoRuns (.amomaxW rd rs1 rs2 aq rl) s rd rs1 rs2 (fun t b => pattern (max t.toInt b.toInt))) ∧
    (Decodes (wordA 0b11000#5 aq rl rs2 rs1 rd) (.amominuW rd rs1 rs2 aq rl) ∧
      AmoRuns (.amominuW rd rs1 rs2 aq rl) s rd rs1 rs2
        (fun t b => pattern (min t.toNat b.toNat : Nat))) ∧
    (Decodes (wordA 0b11100#5 aq rl rs2 rs1 rd) (.amomaxuW rd rs1 rs2 aq rl) ∧
      AmoRuns (.amomaxuW rd rs1 rs2 aq rl) s rd rs1 rs2
        (fun t b => pattern (max t.toNat b.toNat : Nat)))

/-! ## CSR instructions -/

namespace Sys2Proof.Claims

/-- The CSR numbers and names of 10_state R30. -/
def csrNumbers : List (CsrNumber × Csr) :=
  [(0x300, .mstatus), (0x304, .mie), (0x305, .mtvec), (0x340, .mscratch), (0x341, .mepc),
   (0x342, .mcause), (0x343, .mtval), (0x344, .mip)]

/-- What R225 says of one Zicsr instruction on a supported CSR: `rd` takes the old value, the CSR takes
`v` in the bits of its mask and keeps the others, every other CSR and everything else is as before. -/
def CsrRuns (i : Instr) (s : State) (rd : RegId) (c : Csr) (v : Word) : Prop :=
  ∃ b : CsrBank,
    (∀ j < 32, (CsrBank.get b c).getLsbD j =
      if (CsrBank.get s.cfg.wmask c).getLsbD j then v.getLsbD j else (s.readCsr c).getLsbD j) ∧
    (∀ d, d ≠ c → CsrBank.get b d = s.readCsr d) ∧
    CompletesOver i s { s with csrs := b } rd (s.readCsr c)

end Sys2Proof.Claims

/-- R226, R227, R228 on each of the eight CSRs: the source is `x[rs1]` before the register write. Any other
number faults. -/
def Obligations.CsrRegisterForms : Prop :=
  ∀ (s : State) (rd rs1 : RegId) (n : CsrNumber),
    Decodes (wordI n rs1 0b001#3 rd 0b1110011#7) (.csrrw rd rs1 n) ∧
    Decodes (wordI n rs1 0b010#3 rd 0b1110011#7) (.csrrs rd rs1 n) ∧
    Decodes (wordI n rs1 0b011#3 rd 0b1110011#7) (.csrrc rd rs1 n) ∧
    (∀ c, (n, c) ∈ csrNumbers →
      let t := s.readCsr c
      let src := s.readReg rs1
      CsrRuns (.csrrw rd rs1 n) s rd c src ∧
      (∃ v, Bitwise or t src v ∧ CsrRuns (.csrrs rd rs1 n) s rd c v) ∧
      (∃ v, Bitwise (fun x y => x && !y) t src v ∧ CsrRuns (.csrrc rd rs1 n) s rd c v)) ∧
    ((∀ c, (n, c) ∉ csrNumbers) → ∀ i ∈ [.csrrw rd rs1 n, .csrrs rd rs1 n, .csrrc rd rs1 n],
      ∃ p, exec i s = .fault (.unsupportedCsr n p))

/-- R229, R230, R231 on each of the eight CSRs: the source is the 5-bit immediate. Any other number
faults. -/
def Obligations.CsrImmediateForms : Prop :=
  ∀ (s : State) (rd : RegId) (uimm : BitVec 5) (n : CsrNumber),
    Decodes (wordI n uimm 0b101#3 rd 0b1110011#7) (.csrrwi rd uimm n) ∧
    Decodes (wordI n uimm 0b110#3 rd 0b1110011#7) (.csrrsi rd uimm n) ∧
    Decodes (wordI n uimm 0b111#3 rd 0b1110011#7) (.csrrci rd uimm n) ∧
    (∀ c, (n, c) ∈ csrNumbers →
      let t := s.readCsr c
      let src := pattern uimm.toNat
      CsrRuns (.csrrwi rd uimm n) s rd c src ∧
      (∃ v, Bitwise or t src v ∧ CsrRuns (.csrrsi rd uimm n) s rd c v) ∧
      (∃ v, Bitwise (fun x y => x && !y) t src v ∧ CsrRuns (.csrrci rd uimm n) s rd c v)) ∧
    ((∀ c, (n, c) ∉ csrNumbers) → ∀ i ∈ [.csrrwi rd uimm n, .csrrsi rd uimm n, .csrrci rd uimm n],
      ∃ p, exec i s = .fault (.unsupportedCsr n p))

/-- R31, R225 (a), R255: a number that is none of the eight ends the run, whatever the other operands are;
the state left is the spec's decision D11. -/
def Obligations.UnsupportedCsrFaults : Prop :=
  ∀ (s : State) (rd rs1 : RegId) (uimm : BitVec 5) (n : CsrNumber),
    (∀ c, (n, c) ∉ csrNumbers) →
    let f : Result := .fault (.unsupportedCsr n (s.pc + 4))
    exec (.csrrw rd rs1 n) s = f ∧ exec (.csrrs rd rs1 n) s = f ∧ exec (.csrrc rd rs1 n) s = f ∧
    exec (.csrrwi rd uimm n) s = f ∧ exec (.csrrsi rd uimm n) s = f ∧ exec (.csrrci rd uimm n) s = f

/-! ## Environment and interrupt control -/

/-- R235, R236, R237. ECALL notifies `x17` and `x10` to `x16`: no trap (the spec's decision D20). EBREAK
notifies its own address (D19) and halts exactly when `halt_on_ebreak` is 1, `PC` going to the next
instruction either way. WFI waits, whatever is pending or enabled (always legal: D28). Nothing else
changes. -/
def Obligations.EnvironmentInstructions : Prop :=
  Decodes 0x00000073 .ecall ∧ Decodes 0x00100073 .ebreak ∧ Decodes 0x10500073 .wfi ∧
  ∀ s : State,
    CompletesPlain .ecall s
      { s with events := s.events ++ [.syscall (s.readReg 17)
          #v[s.readReg 10, s.readReg 11, s.readReg 12, s.readReg 13, s.readReg 14, s.readReg 15,
             s.readReg 16]] } ∧
    (s.haltOnEbreak = true → CompletesPlain .ebreak s
      { s with events := s.events ++ [.breakpoint s.pc], halted := true }) ∧
    (s.haltOnEbreak = false → CompletesPlain .ebreak s
      { s with events := s.events ++ [.breakpoint s.pc] }) ∧
    CompletesPlain .wfi s { s with waiting := true }

/-- R238: MRET copies MPIE into MIE, sets MPIE, keeps the other bits of `mstatus` whatever the masks are,
and goes to `mepc` unmasked; nothing else changes. The writes past the masks, the unmasked target and the
kept reservation are the spec's decisions D8, D28, D38. -/
def Obligations.MretReturns : Prop :=
  Decodes 0x30200073 .mret ∧
  ∀ s : State, ∃ t, exec .mret s = .next t ∧ t.pc = s.csrs.mepc ∧ SameRegs s t ∧
    (∀ j < 32, t.csrs.mstatus.getLsbD j =
      if j = 3 then s.csrs.mstatus.getLsbD 7 else if j = 7 then true
      else s.csrs.mstatus.getLsbD j) ∧
    OnlyRegsAndPc { s with csrs := { s.csrs with mstatus := t.csrs.mstatus } } t

/-! ## The step -/

/-- R131, R133: a halted step changes nothing, whatever is pending; a waiting one changes nothing unless
the external interrupt is enabled and pending. An input event reaches `mip` all the same. -/
def Obligations.IdleSteps : Prop :=
  ∀ s : State,
    (s.halted = true → step s = .next s) ∧
    (s.waiting = true →
      ¬ (s.csrs.mstatus.getLsbD 3 = true ∧ s.csrs.mie.getLsbD 11 = true
          ∧ s.csrs.mip.getLsbD 11 = true) →
      step s = .next s) ∧
    (∀ (t : State) (k : Nat) (c : Byte), s.enqueue k c = .next t → t.csrs.mip.getLsbD 11 = true)

/-- R132, R262: with the three bits at 1 and the CPU not halted, the step is the trap entry and nothing
else, also while waiting. What it leaves (R262 (c)) and the single handler address (R262 (d)) are the
spec's decisions D38, D35. -/
def Obligations.TrapEntry : Prop :=
  ∀ s : State, s.halted = false → s.csrs.mstatus.getLsbD 3 = true → s.csrs.mie.getLsbD 11 = true →
    s.csrs.mip.getLsbD 11 = true →
    ∃ t, step s = .next t ∧
      t.csrs.mepc.toNat = s.pc.toNat / 4 * 4 ∧ t.csrs.mcause = 0x8000000B ∧ t.csrs.mtval = 0 ∧
      (∀ j < 32, t.csrs.mstatus.getLsbD j =
        if j = 7 then true else if j = 3 then false else s.csrs.mstatus.getLsbD j) ∧
      t.pc.toNat = s.csrs.mtvec.toNat / 4 * 4 ∧ t.waiting = false ∧
      t = { s with
            csrs := { s.csrs with
              mepc := t.csrs.mepc, mcause := t.csrs.mcause, mtval := t.csrs.mtval,
              mstatus := t.csrs.mstatus }
            pc := t.pc
            waiting := false }

/-- R134, R135: when the CPU is Running and the four bytes at `PC` decode to an instruction, the step is
that instruction's meaning, run on the state the fetch left, in which `PC` still holds the instruction's
address (log entry 6); a fetch from RAM leaves the state as it was. -/
def Obligations.StepRunsTheDecodedInstruction : Prop :=
  ∀ (s : State) (i : Instr), Running s →
    (∀ w t, s.memRead s.pc .word = .ok (w, t) → decodeWord w = .ok i → step s = exec i t) ∧
    (InRam s.cfg s.pc 4 → decodeWord (pattern (ramNumber s s.pc 4)) = .ok i → step s = exec i s)

/-- R134, R239: a fetched word that is no instruction gives a Diagnostic, `PC` moves past it, and nothing
else changes (the spec's decision D6); a fetch of bytes no device holds, also one that starts in a device and
runs past its end (D14, log entry 17), ends the run with `UnmappedAddress` and leaves everything, `PC`
included (D12). -/
def Obligations.FetchesThatRunNothing : Prop :=
  ∀ s : State, Running s →
    (∀ (t : State) (w : Word), s.memRead s.pc .word = .ok (w, t) →
      decodeWord w = .error (.unrecognised w) →
      step s = .next { t with events := s.events ++ [.diagnostic s.pc w], pc := s.pc + 4 }) ∧
    (Unmapped s.cfg s.pc 4 →
      step s = .fault (.unmappedAddress s.pc s.pc) ∧
      Fault.stateLeft (.unmappedAddress s.pc s.pc) s = s)

/-- R263: after a trap and a handler that leaves `mstatus` and `mepc` as the trap wrote them, MRET gives MIE
back and resumes at the saved address; with only MIE and MPIE in use `mstatus` is 0x88. A request still
pending is taken again at the next step. -/
def Obligations.TrapThenMret : Prop :=
  ∀ s : State, s.halted = false → s.csrs.mstatus.getLsbD 3 = true → s.csrs.mie.getLsbD 11 = true →
    s.csrs.mip.getLsbD 11 = true →
    ∃ t, step s = .next t ∧
      ∀ h : State, h.csrs.mstatus = t.csrs.mstatus → h.csrs.mepc = t.csrs.mepc →
        ∃ u, exec .mret h = .next u ∧
          u.pc.toNat = s.pc.toNat / 4 * 4 ∧ u.csrs.mstatus.getLsbD 3 = true ∧
          u.csrs.mstatus.getLsbD 7 = true ∧
          (s.csrs.mstatus &&& 0xFFFFFF77 = 0 → u.csrs.mstatus = 0x88) ∧
          (h.halted = false → h.csrs.mie.getLsbD 11 = true → h.csrs.mip.getLsbD 11 = true →
            ∃ v, step u = .next v ∧ v.csrs.mcause = 0x8000000B ∧ v.csrs.mepc = u.pc)

/-! ## Rules about the whole machine -/

/-- R26: a halted step does nothing; `halted` is set only by an EBREAK with `halt_on_ebreak` at 1, which does
set it, and by the host, and cleared only by the host; no input event touches it; it is 0 after reset. -/
def Obligations.OnlyEbreakAndTheHostHalt : Prop :=
  (∀ s t : State, step s = .next t →
    (s.halted = true → t = s) ∧
    (s.halted = false → t.halted = true →
      s.haltOnEbreak = true ∧ ∃ w u, s.memRead s.pc .word = .ok (w, u) ∧ decodeWord w = .ok .ebreak)) ∧
  (∀ s : State, s.haltOnEbreak = true → ∃ t, exec .ebreak s = .next t ∧ t.halted = true) ∧
  (∀ (s t : State) (k : Nat) (c : Byte), s.enqueue k c = .next t → t.halted = s.halted) ∧
  (∀ (s : State) (b : Bool), (s.setHalted b) = { s with halted := b }) ∧
  (∀ (s : State) (b : Bool), (s.setHaltOnEbreak b).halted = s.halted) ∧
  (∀ (p : Platform) (l : Launch) (s : State), construct p l = .ok s → s.halted = false)

/-- R28: `waiting` is set by WFI, and by nothing else; the trap entry clears it, and nothing else does; while
it is 1 and no trap is taken a step does nothing; it is 0 after reset. -/
def Obligations.OnlyWfiWaitsOnlyTrapWakes : Prop :=
  (∀ s t : State, step s = .next t →
    (s.waiting = false → t.waiting = true →
      ∃ w u, s.memRead s.pc .word = .ok (w, u) ∧ decodeWord w = .ok .wfi) ∧
    (s.waiting = true →
      (t = s ∧ (s.halted = true ∨ ¬ (s.csrs.mstatus.getLsbD 3 = true ∧ s.csrs.mie.getLsbD 11 = true ∧
        s.csrs.mip.getLsbD 11 = true))) ∨
      (t.waiting = false ∧ s.csrs.mstatus.getLsbD 3 = true ∧ s.csrs.mie.getLsbD 11 = true ∧
        s.csrs.mip.getLsbD 11 = true))) ∧
  (∀ s : State, ∃ t, exec .wfi s = .next t ∧ t.waiting = true) ∧
  (∀ (s t : State) (c : HostCall), c ≠ .step → applyCall s c = .next t → t.waiting = s.waiting) ∧
  (∀ (p : Platform) (l : Launch) (s : State), construct p l = .ok s → s.waiting = false)

/-- R46: what each instruction does to the reservation when it completes; the trap entry leaves it (the
spec's decisions D27, D38). -/
def Obligations.ReservationChanges : Prop :=
  (∀ (i : Instr) (s t : State), exec i s = .next t →
    (∀ rd rs1 aq rl, i = .lrW rd rs1 aq rl → t.resv = some (s.readReg rs1)) ∧
    (writesMemory i = true → t.resv = none) ∧
    (isLr i = false → writesMemory i = false → t.resv = s.resv)) ∧
  (∀ s : State, s.takeTrap.resv = s.resv)

/-- R50, R51, R304: the outputs only grow: a step, an input event or a host action keeps every event and
every output byte already there. Which host actions there are is the spec's decision D21 (log entry 13). -/
def Obligations.OutputsOnlyGrow : Prop :=
  ∀ (s t : State) (c : HostCall), applyCall s c = .next t →
    (∃ new, t.events = s.events ++ new) ∧
    t.io.length = s.io.length ∧
    (∀ (k : Nat) (d : IoState), s.io[k]? = some d →
      ∃ e new, t.io[k]? = some e ∧ e.outLog = d.outLog ++ new)

/-- R22, R262 (c): only a completed instruction writes a general register: a step that is idle or takes the
trap, an unrecognised word, an input event and a host action write none, and an instruction writes at most
its `rd`. Which host actions there are is the spec's decision D21 (log entry 13). -/
def Obligations.RegisterFile : Prop :=
  (∀ (s : State) (r w : RegId) (v : Word),
    s.readReg 0 = 0 ∧ (s.writeReg w v).readReg r = if r = w ∧ w ≠ 0 then v else s.readReg r) ∧
  (∀ s t : State, step s = .next t →
    (∃ rd v, RegWritten rd v s t) ∧
    ((∀ w u i, s.memRead s.pc .word = .ok (w, u) → decodeWord w ≠ .ok i) ∨ ¬ Running s →
      SameRegs s t)) ∧
  (∀ (s t : State) (c : HostCall), c ≠ .step → applyCall s c = .next t → SameRegs s t)

/-- R32, R42, R259: outside the six Zicsr instructions and MRET, an instruction changes no CSR but bit 11
of `mip`, and that only in a write to memory; a Zicsr instruction changes no bit outside the writable-bit
masks. That those bits are kept, and that MRET and the clear event pass the masks, is the spec's decision
D8. -/
def Obligations.CsrsChangeOnlyByTheirInstructions : Prop :=
  ∀ (i : Instr) (s t : State), exec i s = .next t →
    (isZicsr i = false → i ≠ .mret → writesMemory i = false → t.csrs = s.csrs) ∧
    (writesMemory i = true →
      (∀ c, c ≠ .mip → t.readCsr c = s.readCsr c) ∧
      (∀ j < 32, j ≠ 11 → t.csrs.mip.getLsbD j = s.csrs.mip.getLsbD j) ∧
      (s.csrs.mip.getLsbD 11 = false → t.csrs.mip.getLsbD 11 = false)) ∧
    (isZicsr i = true → ∀ c, ∀ j < 32, (CsrBank.get s.cfg.wmask c).getLsbD j = false →
      (t.readCsr c).getLsbD j = (s.readCsr c).getLsbD j)

/-- R144, R252: a step that ends in a fault changes nothing but `PC`: a fault of the fetch leaves `PC`, a
fault of the instruction leaves `PC` at the next one (the spec's decisions D11, D12). -/
def Obligations.FaultsLeaveOnlyPc : Prop :=
  ∀ (s : State) (f : Fault), step s = .fault f →
    Running s ∧
    ((Fault.stateLeft f s = s ∧ ∃ e, s.memRead s.pc .word = .error e) ∨
     (Fault.stateLeft f s = { s with pc := s.pc + 4 } ∧ ∃ w u, s.memRead s.pc .word = .ok (w, u)))

/-- R251, R258: only loads, stores and atomics meet `UnmappedAddress` or an undefined IO access, only LR.W
and the AMOs are misaligned, only Zicsr instructions meet `UnsupportedCsr`; no instruction asks for an
invalid size, and none is left without a meaning. -/
def Obligations.WhichInstructionsStop : Prop :=
  ∀ (i : Instr) (s : State),
    (∀ f, exec i s = .fault f →
      (∃ a, f = .unmappedAddress a (s.pc + 4) ∧ usesBus i = true) ∨
      (∃ n, f = .unsupportedCsr n (s.pc + 4) ∧ isZicsr i = true)) ∧
    (∀ r, exec i s = .refused r →
      (∃ a n w, r = .ioUnspecified a n w ∧ usesBus i = true) ∨
      (∃ a, r = .atomicMisaligned a ∧ (isLr i || isAmo i) = true)) ∧
    (usesBus i = false → isZicsr i = false → ∃ t, exec i s = .next t)

/-- The invariant `Inv` of Safety (20_memory R49, R74, R80, 60_exceptions R257): every step and every call of
the host keeps it, and none changes the platform (R53). Which host actions there are is the spec's decision
D21 (log entry 13). -/
def Obligations.InvariantPreserved : Prop :=
  ∀ (s t : State) (c : HostCall), applyCall s c = .next t → t.cfg = s.cfg ∧ (Inv s → Inv t)

/-- The invariant holds after reset, on every platform that builds a machine and for every launch
(10_state R54). -/
def Obligations.InvariantAfterReset : Prop :=
  Inv State.reset ∧
  ∀ (p : Platform) (l : Launch) (s : State), construct p l = .ok s → Inv s

/-- R34, R36: with the default masks `mstatus` only ever holds 0x00, 0x08, 0x80 or 0x88 and `mip` only 0 or
0x800, whatever the program and the host do. The masks and their effect are the spec's decisions D9, D8, the
host actions D21 (log entry 13). -/
def Obligations.StatusAndPendingValues : Prop :=
  ∀ (calls : List HostCall) (s t : State),
    s.cfg.wmask = CsrBank.defaultMasks →
    s.csrs.mstatus ∈ ([0x00, 0x08, 0x80, 0x88] : List Word) →
    s.csrs.mip ∈ ([0x000, 0x800] : List Word) →
    runCalls calls s = .next t →
    t.csrs.mstatus ∈ ([0x00, 0x08, 0x80, 0x88] : List Word) ∧
    t.csrs.mip ∈ ([0x000, 0x800] : List Word)

/-- R89: a word stored to RAM is what the next fetch of its address reads, with no barrier. -/
def Obligations.StoreIsSeenByTheNextFetch : Prop :=
  ∀ (s t : State) (rs1 rs2 : RegId) (imm : BitVec 12) (i : Instr), Memory.wf s.ram = true →
    InRam s.cfg (s.effectiveAddress rs1 imm) 4 → exec (.sw rs1 rs2 imm) s = .next t →
    Running t → t.pc = s.effectiveAddress rs1 imm → decodeWord (s.readReg rs2) = .ok i →
    step t = exec i t

namespace Sys2Proof.Claims

/-- Instructions executed one after another. -/
def execAll : List Instr → State → Result
  | [], s => .next s
  | i :: rest, s =>
    match exec i s with
    | .next t => execAll rest t
    | .fault f => .fault f
    | .refused r => .refused r

end Sys2Proof.Claims

/-- R88: an LR.W in RAM followed, after any instructions that are no LR.W, store, AMO or SC.W, by an SC.W to
the same address always succeeds: it answers 0 and memory holds the word. -/
def Obligations.LrScForwardProgress : Prop :=
  ∀ (s t u : State) (rd rs1 rd' rs1' rs2' : RegId) (aq rl aq' rl' : BitVec 1) (between : List Instr),
    Memory.wf s.ram = true → Aligned4 (s.readReg rs1) → InRam s.cfg (s.readReg rs1) 4 →
    exec (.lrW rd rs1 aq rl) s = .next t →
    (∀ i ∈ between, isLr i = false ∧ writesMemory i = false) →
    execAll between t = .next u →
    u.readReg rs1' = s.readReg rs1 →
    StoresWordAndWrites (.scW rd' rs1' rs2' aq' rl') u (s.readReg rs1) (u.readReg rs2') rd' 0

/-- R291: a WFI with interrupts disabled never wakes: whatever steps, input events and host actions follow,
the CPU keeps waiting and `PC`, the registers, RAM and the reservation stay as they are. R291 lets the host
recover by changing state; that it cannot here rests on the host actions being `set_halted` and
`set_halt_on_ebreak` only, the spec's decision D21 (R302; log entry 13, DESIGN CHOICE). -/
def Obligations.WaitingWithoutInterruptsIsForever : Prop :=
  ∀ (calls : List HostCall) (s t : State), s.waiting = true →
    ¬ (s.csrs.mstatus.getLsbD 3 = true ∧ s.csrs.mie.getLsbD 11 = true) →
    runCalls calls s = .next t →
    t.waiting = true ∧ t.pc = s.pc ∧ t.regs = s.regs ∧ t.ram = s.ram ∧ t.resv = s.resv ∧
    t.csrs.mstatus = s.csrs.mstatus ∧ t.csrs.mie = s.csrs.mie

/-! ## The host -/

/-- R301: an input event, in any state, appends the character to the queue and sets bit 11 of `mip`, and
changes nothing else. -/
def Obligations.EnqueueEvent : Prop :=
  ∀ (s : State) (k : Nat) (c : Byte) (d : IoState), s.io[k]? = some d →
    ∃ m : Word, (∀ j < 32, m.getLsbD j = (decide (j = 11) || s.csrs.mip.getLsbD j)) ∧
      s.enqueue k c = .next { s with
        io := s.io.set k { d with inFifo := d.inFifo ++ [c] }
        csrs := { s.csrs with mip := m } }

/-- R269: after an input event the very next step of a CPU that is not halted and has the interrupt enabled
is the trap, whether it was running or waiting, and the step after it fetches at the handler's address; a
halted one keeps the pending bit and takes the trap on the first step after the host clears `halted`. -/
def Obligations.InputEventTrapsAtTheNextStep : Prop :=
  ∀ (s t : State) (k : Nat) (c : Byte), s.enqueue k c = .next t →
    s.csrs.mstatus.getLsbD 3 = true → s.csrs.mie.getLsbD 11 = true →
    (s.halted = false → ∃ u, step t = .next u ∧ u.csrs.mcause = 0x8000000B ∧ Running u ∧
      u.pc.toNat = s.csrs.mtvec.toNat / 4 * 4 ∧ u.csrs.mepc.toNat = s.pc.toNat / 4 * 4) ∧
    (s.halted = true → step t = .next t ∧ t.csrs.mip.getLsbD 11 = true ∧
      ∃ u, step (t.setHalted false) = .next u ∧ u.csrs.mcause = 0x8000000B ∧
        u.csrs.mepc.toNat = s.pc.toNat / 4 * 4)

/-- R54, R285, R286: the state after reset on any platform with any launch: the launch's values, no
reservation, empty queues, outputs and events, and RAM with byte `k` of the image at `k` and 0 beyond it. The
zeros are the spec's decisions D16, D38 (log entries 4 and 5). -/
def Obligations.ResetState : Prop :=
  ∀ (p : Platform) (l : Launch) (s : State), construct p l = .ok s →
    s.cfg = p ∧ (∀ r : RegId, s.readReg r = if r = 0 then 0 else l.resetX) ∧ s.pc = l.entry ∧
    s.halted = false ∧ s.waiting = false ∧ s.haltOnEbreak = l.haltOnEbreak ∧ s.csrs = l.resetCsr ∧
    s.resv = none ∧ s.events = [] ∧
    (∀ k, Memory.readByte s.ram k = l.image.getD k 0) ∧
    s.io.length = p.ioBases.length ∧
    (∀ d ∈ s.io, d.inFifo = [] ∧ d.outLog = [] ∧ ∀ j : Fin 4, d.shadow[j] = 0)

/-- R62, R257: a device of size 0, a range beyond 2^32, a window below 9 bytes, two overlapping ranges or an
image longer than RAM build no machine, and everything else builds one. Beyond the overlap this is the
spec's decisions D17 (the window) and D34. -/
def Obligations.WhichConfigurationsBuildAMachine : Prop :=
  ∀ (p : Platform) (l : Launch),
    (∃ s, construct p l = .ok s) ↔
      (0 < p.ramSize ∧ p.ramBase + p.ramSize ≤ 2 ^ 32 ∧ 9 ≤ p.ioSize ∧
       l.image.length ≤ p.ramSize ∧
       (∀ b ∈ p.ioBases, b + p.ioSize ≤ 2 ^ 32 ∧
         (p.ramBase + p.ramSize ≤ b ∨ b + p.ioSize ≤ p.ramBase)) ∧
       (∀ j k a b : Nat, j < k → p.ioBases[j]? = some a → p.ioBases[k]? = some b →
         a + p.ioSize ≤ b ∨ b + p.ioSize ≤ a))
end

