-- ==== Sys2Proof/Laws/Bits.lean ====
section
/-!
SUPPORT. Bits and bytes: single-bit updates, the masked write, and the little-endian reading of a list
of bytes.
-/

namespace Sys2Proof

@[simp] theorem leBytes_length (n : Nat) (v : Word) : (leBytes n v).length = n := by simp [leBytes]

theorem leBytes_getD (n : Nat) (v : Word) (k : Nat) (d : Byte) (h : k < n) :
    (leBytes n v).getD k d = byteOfWord v k := by
  simp [leBytes, List.getD_eq_getElem?_getD, h]

theorem toNat_byteOfWord (v : Word) (k : Nat) : (byteOfWord v k).toNat = v.toNat / 256 ^ k % 256 := by
  have h : (2 : Nat) ^ (8 * k) = 256 ^ k := by rw [Nat.pow_mul]
  simp [byteOfWord, BitVec.extractLsb'_toNat, Nat.shiftRight_eq_div_pow, h]

/-- The number a list of at most four bytes stands for. -/
theorem toNat_ofLeBytes (bs : List Byte) (h : bs.length ≤ 4) :
    (ofLeBytes bs).toNat = ((List.range bs.length).map fun k => (bs.getD k 0).toNat * 256 ^ k).sum := by
  have key : ∀ (bs : List Byte) (j : Nat), bs.length + j ≤ 4 →
      (ofLeBytes bs).toNat < 256 ^ bs.length ∧
      (ofLeBytes bs).toNat =
        ((List.range bs.length).map fun k => (bs.getD k 0).toNat * 256 ^ k).sum := by
    intro bs
    induction bs with
    | nil => intro j _; simp [ofLeBytes]
    | cons b bs ih =>
      intro j hj
      simp only [List.length_cons] at hj
      have ⟨hlt, heq⟩ := ih (j + 1) (by omega)
      have hb := b.isLt
      have hpow : 256 ^ bs.length * 256 ≤ 4294967296 := by
        have : 256 ^ (bs.length + 1) ≤ 256 ^ 4 := Nat.pow_le_pow_right (by omega) (by omega)
        rw [Nat.pow_succ] at this
        simpa using this
      have hor : (ofLeBytes (b :: bs)).toNat = b.toNat + (ofLeBytes bs).toNat * 256 := by
        rw [ofLeBytes, BitVec.toNat_or, BitVec.toNat_setWidth, BitVec.toNat_shiftLeft,
          Nat.shiftLeft_eq, Nat.mod_eq_of_lt (by omega), Nat.mod_eq_of_lt (by omega), Nat.or_comm,
          Nat.mul_comm]
        rw [show (2 : Nat) ^ 8 * (ofLeBytes bs).toNat ||| b.toNat
            = 2 ^ 8 * (ofLeBytes bs).toNat + b.toNat from
          (Nat.two_pow_add_eq_or_of_lt (by omega) _).symm]
        omega
      refine ⟨?_, ?_⟩
      · rw [hor, List.length_cons, Nat.pow_succ]; omega
      · rw [hor, heq, List.length_cons, List.range_succ_eq_map]
        simp only [List.map_cons, List.map_map, List.sum_cons, Nat.pow_zero, Nat.mul_one]
        congr 1
        rw [← List.sum_map_mul_right]
        congr 1
        apply List.map_congr_left
        intro k _
        simp [Nat.pow_succ, Nat.mul_assoc]
  exact (key bs 0 (by omega)).2

/-- The value of the low four bytes of a word is the word. -/
theorem ofLeBytes_leBytes (v : Word) : ofLeBytes (leBytes 4 v) = v := by
  have h : leBytes 4 v = [byteOfWord v 0, byteOfWord v 1, byteOfWord v 2, byteOfWord v 3] := rfl
  rw [h]
  simp only [ofLeBytes, byteOfWord]
  apply BitVec.eq_of_getLsbD_eq
  intro i hi
  simp only [BitVec.getLsbD_or, BitVec.getLsbD_setWidth, BitVec.getLsbD_extractLsb',
    BitVec.getLsbD_shiftLeft]
  by_cases h1 : i < 8
  · simp [h1, hi]
  by_cases h2 : i < 16
  · simp [h1, hi, show i - 8 < 8 by omega, show 8 + (i - 8) = i by omega, show i - 8 < 32 by omega]
  by_cases h3 : i < 24
  · simp [h1, hi, show ¬ i - 8 < 8 by omega, show i - 8 - 8 < 8 by omega,
      show 16 + (i - 8 - 8) = i by omega, show i - 8 < 32 by omega,
      show i - 8 - 8 < 32 by omega]
  · simp [h1, hi, show ¬ i - 8 < 8 by omega, show ¬ i - 8 - 8 < 8 by omega,
      show i - 8 - 8 - 8 < 8 by omega, show 24 + (i - 8 - 8 - 8) = i by omega,
      show i - 8 < 32 by omega, show i - 8 - 8 < 32 by omega,
      show i - 8 - 8 - 8 < 32 by omega]

namespace Machine

theorem getLsbD_setBit (v : Word) (i : Nat) (b : Bool) (j : Nat) (hi : i < 32) :
    (setBit v i b).getLsbD j = if j = i then b else v.getLsbD j := by
  unfold setBit
  by_cases hj : j < 32
  · cases b <;> by_cases h : j = i
    · subst h; simp [hj]
    · simp [hj, h]
      intro _
      omega
    · subst h; simp [hj]
    · simp [hj, h]
      intro _ _
      omega
  · have h : j ≠ i := by omega
    have hv : v.getLsbD j = false := BitVec.getLsbD_of_ge v j (by omega)
    cases b <;> simp [h, hj, hv]

theorem getLsbD_maskedWrite (old mask v : Word) (j : Nat) (hj : j < 32) :
    (maskedWrite old mask v).getLsbD j = if mask.getLsbD j then v.getLsbD j else old.getLsbD j := by
  unfold maskedWrite
  rw [BitVec.getLsbD_or, BitVec.getLsbD_and, BitVec.getLsbD_and, BitVec.getLsbD_not]
  cases mask.getLsbD j <;> simp [hj]

end Machine

end Sys2Proof
end

