-- ==== Sys2Proof/Laws/Memory.lean ====
section
/-!
SUPPORT. The RAM's byte store: every operation keeps the canonical form, a read gives what the last write
of the byte gave, and equal reads make equal memories (20_memory R70 to R72).
-/

namespace Sys2Proof.Machine

/-! ### The canonical form -/

theorem Memory.wf_cons (k : Nat) (b : Byte) (m : Memory) :
    Memory.wf ((k, b) :: m) = true ↔ b ≠ 0 ∧ (∀ c ∈ m, k < c.1) ∧ Memory.wf m = true := by
  simp [Memory.wf, and_assoc]

@[simp] theorem Memory.wf_nil : Memory.wf [] = true := rfl

theorem Memory.mem_writeByte (m : Memory) (off : Nat) (v : Byte) (c : Host.Cell)
    (h : c ∈ Memory.writeByte m off v) : c = (off, v) ∨ c ∈ m := by
  induction m with
  | nil =>
    unfold Memory.writeByte at h
    split at h <;> simp_all
  | cons a m ih =>
    obtain ⟨k, b⟩ := a
    unfold Memory.writeByte at h
    split_ifs at h <;> simp_all <;> tauto

theorem Memory.wf_writeByte (m : Memory) (off : Nat) (v : Byte) (h : Memory.wf m = true) :
    Memory.wf (Memory.writeByte m off v) = true := by
  induction m with
  | nil =>
    unfold Memory.writeByte
    split
    · rfl
    · simpa [Memory.wf]
  | cons a m ih =>
    obtain ⟨k, b⟩ := a
    have ⟨hb, hk, hm⟩ := (Memory.wf_cons k b m).1 h
    unfold Memory.writeByte
    split_ifs with h1 h2 h3 h4
    · exact h
    · refine (Memory.wf_cons _ _ _).2 ⟨h2, ?_, h⟩
      intro c hc
      rcases List.mem_cons.1 hc with rfl | hc
      · exact h1
      · exact Nat.lt_trans h1 (hk c hc)
    · exact hm
    · exact (Memory.wf_cons _ _ _).2 ⟨h4, h3 ▸ hk, hm⟩
    · refine (Memory.wf_cons _ _ _).2 ⟨hb, ?_, ih hm⟩
      intro c hc
      rcases Memory.mem_writeByte m off v c hc with rfl | hc
      · show k < off
        omega
      · exact hk c hc

theorem Memory.wf_writeBytes (m : Memory) (off : Nat) (bs : List Byte) (h : Memory.wf m = true) :
    Memory.wf (Memory.writeBytes m off bs) = true := by
  induction bs generalizing m off with
  | nil => exact h
  | cons b bs ih => exact ih _ _ (Memory.wf_writeByte m off b h)

theorem Memory.wf_writeLe (m : Memory) (off n : Nat) (v : Word) (h : Memory.wf m = true) :
    Memory.wf (Memory.writeLe m off n v) = true :=
  Memory.wf_writeBytes m off _ h

/-- Every offset a write lists is an old one or one of those written. -/
theorem Memory.mem_writeBytes (m : Memory) (off : Nat) (bs : List Byte) (c : Host.Cell)
    (h : c ∈ Memory.writeBytes m off bs) : c ∈ m ∨ off ≤ c.1 ∧ c.1 < off + bs.length := by
  induction bs generalizing m off with
  | nil => exact .inl h
  | cons b bs ih =>
    rcases ih _ _ h with h | h
    · rcases Memory.mem_writeByte m off b c h with rfl | h
      · exact .inr ⟨Nat.le_refl _, by simp⟩
      · exact .inl h
    · simp only [List.length_cons]
      exact .inr ⟨by omega, by omega⟩

/-! ### Read after write -/

@[simp] theorem Memory.readByte_nil (off : Nat) : Memory.readByte [] off = 0 := rfl

theorem Memory.readByte_cons (k : Nat) (b : Byte) (m : Memory) (off : Nat) :
    Memory.readByte ((k, b) :: m) off = if off = k then b else Memory.readByte m off := rfl

/-- Below the first listed offset every byte reads as 0. -/
theorem Memory.readByte_of_lt (m : Memory) (off : Nat) (h : ∀ c ∈ m, off < c.1) :
    Memory.readByte m off = 0 := by
  induction m with
  | nil => rfl
  | cons a m ih =>
    obtain ⟨k, b⟩ := a
    have hk : off < k := h (k, b) (by simp)
    rw [Memory.readByte_cons, if_neg (by omega)]
    exact ih fun c hc => h c (by simp [hc])

theorem Memory.readByte_writeByte (m : Memory) (off : Nat) (v : Byte) (k : Nat)
    (h : Memory.wf m = true) :
    Memory.readByte (Memory.writeByte m off v) k = if k = off then v else Memory.readByte m k := by
  induction m with
  | nil =>
    unfold Memory.writeByte
    split_ifs with h1 h2 <;> simp_all [Memory.readByte_cons]
  | cons a m ih =>
    obtain ⟨j, b⟩ := a
    have ⟨hb, hj, hm⟩ := (Memory.wf_cons j b m).1 h
    unfold Memory.writeByte
    split_ifs with h1 h2 hk hk h3 h4 hk hk hk
    · subst hk h2
      exact Memory.readByte_of_lt _ _ fun c hc => by
        rcases List.mem_cons.1 hc with rfl | hc
        · exact h1
        · exact Nat.lt_trans h1 (hj c hc)
    · rfl
    · subst hk; simp [Memory.readByte_cons]
    · rw [Memory.readByte_cons, if_neg hk]
    · subst hk h3 h4
      exact Memory.readByte_of_lt m k hj
    · rw [Memory.readByte_cons, if_neg (by omega)]
    · subst hk; simp [Memory.readByte_cons]
    · rw [Memory.readByte_cons, Memory.readByte_cons, if_neg hk, if_neg (by omega)]
    · subst hk
      rw [Memory.readByte_cons, if_neg (by omega), ih hm, if_pos rfl]
    · rw [Memory.readByte_cons, Memory.readByte_cons, ih hm, if_neg hk]

theorem Memory.readByte_writeBytes (m : Memory) (off : Nat) (bs : List Byte) (k : Nat)
    (h : Memory.wf m = true) :
    Memory.readByte (Memory.writeBytes m off bs) k =
      if off ≤ k ∧ k < off + bs.length then bs.getD (k - off) 0 else Memory.readByte m k := by
  induction bs generalizing m off with
  | nil =>
    rw [if_neg (by simp only [List.length_nil]; omega)]
    rfl
  | cons b bs ih =>
    rw [Memory.writeBytes, ih _ _ (Memory.wf_writeByte m off b h), Memory.readByte_writeByte _ _ _ _ h]
    simp only [List.length_cons]
    by_cases hk : k = off
    · subst hk
      rw [if_neg (by omega), if_pos rfl, if_pos (by omega), Nat.sub_self]
      rfl
    · rw [if_neg hk]
      by_cases hin : off + 1 ≤ k ∧ k < off + 1 + bs.length
      · rw [if_pos hin, if_pos (by omega)]
        have : k - off = (k - (off + 1)) + 1 := by omega
        rw [this]
        rfl
      · rw [if_neg hin, if_neg (by omega)]

/-- A canonical memory is what its bytes read as. -/
theorem Memory.ext_readByte {m n : Memory} (hm : Memory.wf m = true) (hn : Memory.wf n = true)
    (h : ∀ k, Memory.readByte m k = Memory.readByte n k) : m = n := by
  induction m generalizing n with
  | nil =>
    cases n with
    | nil => rfl
    | cons c n =>
      obtain ⟨j, b⟩ := c
      have hj := h j
      have ⟨hb, _, _⟩ := (Memory.wf_cons j b n).1 hn
      rw [Memory.readByte_nil, Memory.readByte_cons, if_pos rfl] at hj
      exact absurd hj.symm hb
  | cons a m ih =>
    obtain ⟨i, a⟩ := a
    have ⟨ha, hi, hm'⟩ := (Memory.wf_cons i a m).1 hm
    cases n with
    | nil =>
      have := h i
      rw [Memory.readByte_cons, if_pos rfl, Memory.readByte_nil] at this
      exact absurd this ha
    | cons c n =>
      obtain ⟨j, b⟩ := c
      have ⟨hb, hj, hn'⟩ := (Memory.wf_cons j b n).1 hn
      have hij : i = j := by
        rcases Nat.lt_trichotomy i j with hlt | heq | hgt
        · exfalso
          have h1 := h i
          rw [Memory.readByte_cons, if_pos rfl, Memory.readByte_of_lt ((j, b) :: n)] at h1
          · exact ha h1
          · intro c hc
            rcases List.mem_cons.1 hc with rfl | hc
            · exact hlt
            · exact Nat.lt_trans hlt (hj c hc)
        · exact heq
        · exfalso
          have h1 := (h j).symm
          rw [Memory.readByte_cons, if_pos rfl, Memory.readByte_of_lt ((i, a) :: m)] at h1
          · exact hb h1
          · intro c hc
            rcases List.mem_cons.1 hc with rfl | hc
            · exact hgt
            · exact Nat.lt_trans hgt (hi c hc)
      subst hij
      have hab : a = b := by
        have h1 := h i
        rwa [Memory.readByte_cons, if_pos rfl, Memory.readByte_cons, if_pos rfl] at h1
      subst hab
      congr 1
      apply ih hm' hn'
      intro k
      by_cases hk : k = i
      · subst hk
        rw [Memory.readByte_of_lt m k hi, Memory.readByte_of_lt n k hj]
      · have h1 := h k
        rwa [Memory.readByte_cons, if_neg hk, Memory.readByte_cons, if_neg hk] at h1

end Sys2Proof.Machine
end

