-- ==== Sys2Proof/Laws/State.lean ====
section
/-!
SUPPORT. One lemma for each field of State under each update of the machine, true by unfolding.
-/

namespace Sys2Proof.Machine

/-! ### `setPc` -/

@[simp] theorem State.setPc_cfg (s : State) (v : Word) : (s.setPc v).cfg = s.cfg := rfl
@[simp] theorem State.setPc_regs (s : State) (v : Word) : (s.setPc v).regs = s.regs := rfl
@[simp] theorem State.setPc_pc (s : State) (v : Word) : (s.setPc v).pc = v := rfl
@[simp] theorem State.setPc_halted (s : State) (v : Word) : (s.setPc v).halted = s.halted := rfl
@[simp] theorem State.setPc_haltOnEbreak (s : State) (v : Word) : (s.setPc v).haltOnEbreak = s.haltOnEbreak := rfl
@[simp] theorem State.setPc_waiting (s : State) (v : Word) : (s.setPc v).waiting = s.waiting := rfl
@[simp] theorem State.setPc_csrs (s : State) (v : Word) : (s.setPc v).csrs = s.csrs := rfl
@[simp] theorem State.setPc_resv (s : State) (v : Word) : (s.setPc v).resv = s.resv := rfl
@[simp] theorem State.setPc_ram (s : State) (v : Word) : (s.setPc v).ram = s.ram := rfl
@[simp] theorem State.setPc_io (s : State) (v : Word) : (s.setPc v).io = s.io := rfl
@[simp] theorem State.setPc_events (s : State) (v : Word) : (s.setPc v).events = s.events := rfl

/-! ### `writeReg` -/

@[simp] theorem State.writeReg_cfg (s : State) (r : RegId) (v : Word) : (s.writeReg r v).cfg = s.cfg := rfl
@[simp] theorem State.writeReg_regs (s : State) (r : RegId) (v : Word) : (s.writeReg r v).regs = s.regs.write r v := rfl
@[simp] theorem State.writeReg_pc (s : State) (r : RegId) (v : Word) : (s.writeReg r v).pc = s.pc := rfl
@[simp] theorem State.writeReg_halted (s : State) (r : RegId) (v : Word) : (s.writeReg r v).halted = s.halted := rfl
@[simp] theorem State.writeReg_haltOnEbreak (s : State) (r : RegId) (v : Word) : (s.writeReg r v).haltOnEbreak = s.haltOnEbreak := rfl
@[simp] theorem State.writeReg_waiting (s : State) (r : RegId) (v : Word) : (s.writeReg r v).waiting = s.waiting := rfl
@[simp] theorem State.writeReg_csrs (s : State) (r : RegId) (v : Word) : (s.writeReg r v).csrs = s.csrs := rfl
@[simp] theorem State.writeReg_resv (s : State) (r : RegId) (v : Word) : (s.writeReg r v).resv = s.resv := rfl
@[simp] theorem State.writeReg_ram (s : State) (r : RegId) (v : Word) : (s.writeReg r v).ram = s.ram := rfl
@[simp] theorem State.writeReg_io (s : State) (r : RegId) (v : Word) : (s.writeReg r v).io = s.io := rfl
@[simp] theorem State.writeReg_events (s : State) (r : RegId) (v : Word) : (s.writeReg r v).events = s.events := rfl

/-! ### `setCsr` -/

@[simp] theorem State.setCsr_cfg (s : State) (c : Csr) (v : Word) : (s.setCsr c v).cfg = s.cfg := rfl
@[simp] theorem State.setCsr_regs (s : State) (c : Csr) (v : Word) : (s.setCsr c v).regs = s.regs := rfl
@[simp] theorem State.setCsr_pc (s : State) (c : Csr) (v : Word) : (s.setCsr c v).pc = s.pc := rfl
@[simp] theorem State.setCsr_halted (s : State) (c : Csr) (v : Word) : (s.setCsr c v).halted = s.halted := rfl
@[simp] theorem State.setCsr_haltOnEbreak (s : State) (c : Csr) (v : Word) : (s.setCsr c v).haltOnEbreak = s.haltOnEbreak := rfl
@[simp] theorem State.setCsr_waiting (s : State) (c : Csr) (v : Word) : (s.setCsr c v).waiting = s.waiting := rfl
@[simp] theorem State.setCsr_csrs (s : State) (c : Csr) (v : Word) : (s.setCsr c v).csrs = CsrBank.set s.csrs c v := rfl
@[simp] theorem State.setCsr_resv (s : State) (c : Csr) (v : Word) : (s.setCsr c v).resv = s.resv := rfl
@[simp] theorem State.setCsr_ram (s : State) (c : Csr) (v : Word) : (s.setCsr c v).ram = s.ram := rfl
@[simp] theorem State.setCsr_io (s : State) (c : Csr) (v : Word) : (s.setCsr c v).io = s.io := rfl
@[simp] theorem State.setCsr_events (s : State) (c : Csr) (v : Word) : (s.setCsr c v).events = s.events := rfl

/-! ### `writeCsr` -/

@[simp] theorem State.writeCsr_cfg (s : State) (c : Csr) (v : Word) : (s.writeCsr c v).cfg = s.cfg := rfl
@[simp] theorem State.writeCsr_regs (s : State) (c : Csr) (v : Word) : (s.writeCsr c v).regs = s.regs := rfl
@[simp] theorem State.writeCsr_pc (s : State) (c : Csr) (v : Word) : (s.writeCsr c v).pc = s.pc := rfl
@[simp] theorem State.writeCsr_halted (s : State) (c : Csr) (v : Word) : (s.writeCsr c v).halted = s.halted := rfl
@[simp] theorem State.writeCsr_haltOnEbreak (s : State) (c : Csr) (v : Word) : (s.writeCsr c v).haltOnEbreak = s.haltOnEbreak := rfl
@[simp] theorem State.writeCsr_waiting (s : State) (c : Csr) (v : Word) : (s.writeCsr c v).waiting = s.waiting := rfl
@[simp] theorem State.writeCsr_csrs (s : State) (c : Csr) (v : Word) : (s.writeCsr c v).csrs = CsrBank.set s.csrs c (maskedWrite (s.readCsr c) (CsrBank.get s.cfg.wmask c) v) := rfl
@[simp] theorem State.writeCsr_resv (s : State) (c : Csr) (v : Word) : (s.writeCsr c v).resv = s.resv := rfl
@[simp] theorem State.writeCsr_ram (s : State) (c : Csr) (v : Word) : (s.writeCsr c v).ram = s.ram := rfl
@[simp] theorem State.writeCsr_io (s : State) (c : Csr) (v : Word) : (s.writeCsr c v).io = s.io := rfl
@[simp] theorem State.writeCsr_events (s : State) (c : Csr) (v : Word) : (s.writeCsr c v).events = s.events := rfl

/-! ### `notify` -/

@[simp] theorem State.notify_cfg (s : State) (e : Event) : (s.notify e).cfg = s.cfg := rfl
@[simp] theorem State.notify_regs (s : State) (e : Event) : (s.notify e).regs = s.regs := rfl
@[simp] theorem State.notify_pc (s : State) (e : Event) : (s.notify e).pc = s.pc := rfl
@[simp] theorem State.notify_halted (s : State) (e : Event) : (s.notify e).halted = s.halted := rfl
@[simp] theorem State.notify_haltOnEbreak (s : State) (e : Event) : (s.notify e).haltOnEbreak = s.haltOnEbreak := rfl
@[simp] theorem State.notify_waiting (s : State) (e : Event) : (s.notify e).waiting = s.waiting := rfl
@[simp] theorem State.notify_csrs (s : State) (e : Event) : (s.notify e).csrs = s.csrs := rfl
@[simp] theorem State.notify_resv (s : State) (e : Event) : (s.notify e).resv = s.resv := rfl
@[simp] theorem State.notify_ram (s : State) (e : Event) : (s.notify e).ram = s.ram := rfl
@[simp] theorem State.notify_io (s : State) (e : Event) : (s.notify e).io = s.io := rfl
@[simp] theorem State.notify_events (s : State) (e : Event) : (s.notify e).events = s.events ++ [e] := rfl

/-! ### `setIoState` -/

@[simp] theorem State.setIoState_cfg (s : State) (k : Nat) (d : IoState) : (s.setIoState k d).cfg = s.cfg := rfl
@[simp] theorem State.setIoState_regs (s : State) (k : Nat) (d : IoState) : (s.setIoState k d).regs = s.regs := rfl
@[simp] theorem State.setIoState_pc (s : State) (k : Nat) (d : IoState) : (s.setIoState k d).pc = s.pc := rfl
@[simp] theorem State.setIoState_halted (s : State) (k : Nat) (d : IoState) : (s.setIoState k d).halted = s.halted := rfl
@[simp] theorem State.setIoState_haltOnEbreak (s : State) (k : Nat) (d : IoState) : (s.setIoState k d).haltOnEbreak = s.haltOnEbreak := rfl
@[simp] theorem State.setIoState_waiting (s : State) (k : Nat) (d : IoState) : (s.setIoState k d).waiting = s.waiting := rfl
@[simp] theorem State.setIoState_csrs (s : State) (k : Nat) (d : IoState) : (s.setIoState k d).csrs = s.csrs := rfl
@[simp] theorem State.setIoState_resv (s : State) (k : Nat) (d : IoState) : (s.setIoState k d).resv = s.resv := rfl
@[simp] theorem State.setIoState_ram (s : State) (k : Nat) (d : IoState) : (s.setIoState k d).ram = s.ram := rfl
@[simp] theorem State.setIoState_io (s : State) (k : Nat) (d : IoState) : (s.setIoState k d).io = s.io.set k d := rfl
@[simp] theorem State.setIoState_events (s : State) (k : Nat) (d : IoState) : (s.setIoState k d).events = s.events := rfl

/-! ### `dropReservation` -/

@[simp] theorem State.dropReservation_cfg (s : State) : (s.dropReservation).cfg = s.cfg := rfl
@[simp] theorem State.dropReservation_regs (s : State) : (s.dropReservation).regs = s.regs := rfl
@[simp] theorem State.dropReservation_pc (s : State) : (s.dropReservation).pc = s.pc := rfl
@[simp] theorem State.dropReservation_halted (s : State) : (s.dropReservation).halted = s.halted := rfl
@[simp] theorem State.dropReservation_haltOnEbreak (s : State) : (s.dropReservation).haltOnEbreak = s.haltOnEbreak := rfl
@[simp] theorem State.dropReservation_waiting (s : State) : (s.dropReservation).waiting = s.waiting := rfl
@[simp] theorem State.dropReservation_csrs (s : State) : (s.dropReservation).csrs = s.csrs := rfl
@[simp] theorem State.dropReservation_resv (s : State) : (s.dropReservation).resv = none := rfl
@[simp] theorem State.dropReservation_ram (s : State) : (s.dropReservation).ram = s.ram := rfl
@[simp] theorem State.dropReservation_io (s : State) : (s.dropReservation).io = s.io := rfl
@[simp] theorem State.dropReservation_events (s : State) : (s.dropReservation).events = s.events := rfl

/-! ### `setHalted` -/

@[simp] theorem State.setHalted_cfg (s : State) (b : Bool) : (s.setHalted b).cfg = s.cfg := rfl
@[simp] theorem State.setHalted_regs (s : State) (b : Bool) : (s.setHalted b).regs = s.regs := rfl
@[simp] theorem State.setHalted_pc (s : State) (b : Bool) : (s.setHalted b).pc = s.pc := rfl
@[simp] theorem State.setHalted_halted (s : State) (b : Bool) : (s.setHalted b).halted = b := rfl
@[simp] theorem State.setHalted_haltOnEbreak (s : State) (b : Bool) : (s.setHalted b).haltOnEbreak = s.haltOnEbreak := rfl
@[simp] theorem State.setHalted_waiting (s : State) (b : Bool) : (s.setHalted b).waiting = s.waiting := rfl
@[simp] theorem State.setHalted_csrs (s : State) (b : Bool) : (s.setHalted b).csrs = s.csrs := rfl
@[simp] theorem State.setHalted_resv (s : State) (b : Bool) : (s.setHalted b).resv = s.resv := rfl
@[simp] theorem State.setHalted_ram (s : State) (b : Bool) : (s.setHalted b).ram = s.ram := rfl
@[simp] theorem State.setHalted_io (s : State) (b : Bool) : (s.setHalted b).io = s.io := rfl
@[simp] theorem State.setHalted_events (s : State) (b : Bool) : (s.setHalted b).events = s.events := rfl

/-! ### `setHaltOnEbreak` -/

@[simp] theorem State.setHaltOnEbreak_cfg (s : State) (b : Bool) : (s.setHaltOnEbreak b).cfg = s.cfg := rfl
@[simp] theorem State.setHaltOnEbreak_regs (s : State) (b : Bool) : (s.setHaltOnEbreak b).regs = s.regs := rfl
@[simp] theorem State.setHaltOnEbreak_pc (s : State) (b : Bool) : (s.setHaltOnEbreak b).pc = s.pc := rfl
@[simp] theorem State.setHaltOnEbreak_halted (s : State) (b : Bool) : (s.setHaltOnEbreak b).halted = s.halted := rfl
@[simp] theorem State.setHaltOnEbreak_haltOnEbreak (s : State) (b : Bool) : (s.setHaltOnEbreak b).haltOnEbreak = b := rfl
@[simp] theorem State.setHaltOnEbreak_waiting (s : State) (b : Bool) : (s.setHaltOnEbreak b).waiting = s.waiting := rfl
@[simp] theorem State.setHaltOnEbreak_csrs (s : State) (b : Bool) : (s.setHaltOnEbreak b).csrs = s.csrs := rfl
@[simp] theorem State.setHaltOnEbreak_resv (s : State) (b : Bool) : (s.setHaltOnEbreak b).resv = s.resv := rfl
@[simp] theorem State.setHaltOnEbreak_ram (s : State) (b : Bool) : (s.setHaltOnEbreak b).ram = s.ram := rfl
@[simp] theorem State.setHaltOnEbreak_io (s : State) (b : Bool) : (s.setHaltOnEbreak b).io = s.io := rfl
@[simp] theorem State.setHaltOnEbreak_events (s : State) (b : Bool) : (s.setHaltOnEbreak b).events = s.events := rfl

/-! ### `signalIrq` -/

@[simp] theorem State.signalIrq_cfg (s : State) (g : IrqSignal) : (s.signalIrq g).cfg = s.cfg := by
  cases g <;> rfl
@[simp] theorem State.signalIrq_regs (s : State) (g : IrqSignal) : (s.signalIrq g).regs = s.regs := by
  cases g <;> rfl
@[simp] theorem State.signalIrq_pc (s : State) (g : IrqSignal) : (s.signalIrq g).pc = s.pc := by
  cases g <;> rfl
@[simp] theorem State.signalIrq_halted (s : State) (g : IrqSignal) : (s.signalIrq g).halted = s.halted := by
  cases g <;> rfl
@[simp] theorem State.signalIrq_haltOnEbreak (s : State) (g : IrqSignal) : (s.signalIrq g).haltOnEbreak = s.haltOnEbreak := by
  cases g <;> rfl
@[simp] theorem State.signalIrq_waiting (s : State) (g : IrqSignal) : (s.signalIrq g).waiting = s.waiting := by
  cases g <;> rfl
@[simp] theorem State.signalIrq_resv (s : State) (g : IrqSignal) : (s.signalIrq g).resv = s.resv := by
  cases g <;> rfl
@[simp] theorem State.signalIrq_ram (s : State) (g : IrqSignal) : (s.signalIrq g).ram = s.ram := by
  cases g <;> rfl
@[simp] theorem State.signalIrq_io (s : State) (g : IrqSignal) : (s.signalIrq g).io = s.io := by
  cases g <;> rfl
@[simp] theorem State.signalIrq_events (s : State) (g : IrqSignal) : (s.signalIrq g).events = s.events := by
  cases g <;> rfl
@[simp] theorem State.signalIrq_csrs (s : State) (g : IrqSignal) :
    (s.signalIrq g).csrs = { s.csrs with mip := setBit s.csrs.mip bitExternal (g == .request) } := by
  cases g <;> rfl

/-! ### `takeTrap` -/

@[simp] theorem State.takeTrap_cfg (s : State) : s.takeTrap.cfg = s.cfg := rfl
@[simp] theorem State.takeTrap_regs (s : State) : s.takeTrap.regs = s.regs := rfl
@[simp] theorem State.takeTrap_pc (s : State) : s.takeTrap.pc = alignDown4 s.csrs.mtvec := rfl
@[simp] theorem State.takeTrap_halted (s : State) : s.takeTrap.halted = s.halted := rfl
@[simp] theorem State.takeTrap_haltOnEbreak (s : State) : s.takeTrap.haltOnEbreak = s.haltOnEbreak := rfl
@[simp] theorem State.takeTrap_waiting (s : State) : s.takeTrap.waiting = false := rfl
@[simp] theorem State.takeTrap_resv (s : State) : s.takeTrap.resv = s.resv := rfl
@[simp] theorem State.takeTrap_ram (s : State) : s.takeTrap.ram = s.ram := rfl
@[simp] theorem State.takeTrap_io (s : State) : s.takeTrap.io = s.io := rfl
@[simp] theorem State.takeTrap_events (s : State) : s.takeTrap.events = s.events := rfl
@[simp] theorem State.takeTrap_mstatus (s : State) : s.takeTrap.csrs.mstatus = setBit (setBit s.csrs.mstatus bitMPIE s.mieFlag) bitMIE false := rfl
@[simp] theorem State.takeTrap_mie (s : State) : s.takeTrap.csrs.mie = s.csrs.mie := rfl
@[simp] theorem State.takeTrap_mtvec (s : State) : s.takeTrap.csrs.mtvec = s.csrs.mtvec := rfl
@[simp] theorem State.takeTrap_mscratch (s : State) : s.takeTrap.csrs.mscratch = s.csrs.mscratch := rfl
@[simp] theorem State.takeTrap_mepc (s : State) : s.takeTrap.csrs.mepc = alignDown4 s.pc := rfl
@[simp] theorem State.takeTrap_mcause (s : State) : s.takeTrap.csrs.mcause = causeExternal := rfl
@[simp] theorem State.takeTrap_mtval (s : State) : s.takeTrap.csrs.mtval = 0 := rfl
@[simp] theorem State.takeTrap_mip (s : State) : s.takeTrap.csrs.mip = s.csrs.mip := rfl

/-! ### `trapReturn` -/

@[simp] theorem State.trapReturn_cfg (s : State) : s.trapReturn.cfg = s.cfg := rfl
@[simp] theorem State.trapReturn_regs (s : State) : s.trapReturn.regs = s.regs := rfl
@[simp] theorem State.trapReturn_pc (s : State) : s.trapReturn.pc = s.csrs.mepc := rfl
@[simp] theorem State.trapReturn_halted (s : State) : s.trapReturn.halted = s.halted := rfl
@[simp] theorem State.trapReturn_haltOnEbreak (s : State) : s.trapReturn.haltOnEbreak = s.haltOnEbreak := rfl
@[simp] theorem State.trapReturn_waiting (s : State) : s.trapReturn.waiting = s.waiting := rfl
@[simp] theorem State.trapReturn_resv (s : State) : s.trapReturn.resv = s.resv := rfl
@[simp] theorem State.trapReturn_ram (s : State) : s.trapReturn.ram = s.ram := rfl
@[simp] theorem State.trapReturn_io (s : State) : s.trapReturn.io = s.io := rfl
@[simp] theorem State.trapReturn_events (s : State) : s.trapReturn.events = s.events := rfl
@[simp] theorem State.trapReturn_mstatus (s : State) : s.trapReturn.csrs.mstatus = setBit (setBit s.csrs.mstatus bitMIE s.mpieFlag) bitMPIE true := rfl
@[simp] theorem State.trapReturn_mie (s : State) : s.trapReturn.csrs.mie = s.csrs.mie := rfl
@[simp] theorem State.trapReturn_mtvec (s : State) : s.trapReturn.csrs.mtvec = s.csrs.mtvec := rfl
@[simp] theorem State.trapReturn_mscratch (s : State) : s.trapReturn.csrs.mscratch = s.csrs.mscratch := rfl
@[simp] theorem State.trapReturn_mepc (s : State) : s.trapReturn.csrs.mepc = s.csrs.mepc := rfl
@[simp] theorem State.trapReturn_mcause (s : State) : s.trapReturn.csrs.mcause = s.csrs.mcause := rfl
@[simp] theorem State.trapReturn_mtval (s : State) : s.trapReturn.csrs.mtval = s.csrs.mtval := rfl
@[simp] theorem State.trapReturn_mip (s : State) : s.trapReturn.csrs.mip = s.csrs.mip := rfl

/-! ### What an update leaves of the registers and of the CSRs -/

@[simp] theorem State.setPc_readReg (s : State) (v : Word) (r : RegId) : (s.setPc v).readReg r = s.readReg r := rfl
@[simp] theorem State.setCsr_readReg (s : State) (c : Csr) (v : Word) (r : RegId) : (s.setCsr c v).readReg r = s.readReg r := rfl
@[simp] theorem State.writeCsr_readReg (s : State) (c : Csr) (v : Word) (r : RegId) : (s.writeCsr c v).readReg r = s.readReg r := rfl
@[simp] theorem State.notify_readReg (s : State) (e : Event) (r : RegId) : (s.notify e).readReg r = s.readReg r := rfl
@[simp] theorem State.setIoState_readReg (s : State) (k : Nat) (d : IoState) (r : RegId) : (s.setIoState k d).readReg r = s.readReg r := rfl
@[simp] theorem State.dropReservation_readReg (s : State) (r : RegId) : (s.dropReservation).readReg r = s.readReg r := rfl
@[simp] theorem State.setHalted_readReg (s : State) (b : Bool) (r : RegId) : (s.setHalted b).readReg r = s.readReg r := rfl
@[simp] theorem State.setHaltOnEbreak_readReg (s : State) (b : Bool) (r : RegId) : (s.setHaltOnEbreak b).readReg r = s.readReg r := rfl
@[simp] theorem State.takeTrap_readReg (s : State) (r : RegId) : s.takeTrap.readReg r = s.readReg r := rfl
@[simp] theorem State.trapReturn_readReg (s : State) (r : RegId) : s.trapReturn.readReg r = s.readReg r := rfl
@[simp] theorem State.signalIrq_readReg (s : State) (g : IrqSignal) (r : RegId) :
    (s.signalIrq g).readReg r = s.readReg r := by
  cases g <;> rfl

/-- The two ways an instruction completes. -/
theorem State.retire_eq (s : State) : s.retire = .next (s.setPc (s.pc + 4)) := rfl

theorem State.retireReg_eq (s : State) (rd : RegId) (v : Word) :
    s.retireReg rd v = .next ((s.writeReg rd v).setPc (s.pc + 4)) := rfl

@[simp] theorem CsrBank.get_set (b : CsrBank) (c d : Csr) (v : Word) :
    CsrBank.get (CsrBank.set b c v) d = if d = c then v else CsrBank.get b d := by
  cases c <;> cases d <;> rfl

/-- A bank is its eight entries. -/
theorem CsrBank.ext_get {b c : CsrBank} (h : ∀ d, CsrBank.get b d = CsrBank.get c d) : b = c := by
  cases b; cases c
  simp only [CsrBank.mk.injEq]
  exact ⟨h .mstatus, h .mie, h .mtvec, h .mscratch, h .mepc, h .mcause, h .mtval, h .mip⟩

theorem State.ioState_setIoState (s : State) (k j : Nat) (d : IoState) (h : k < s.io.length) :
    (s.setIoState k d).ioState j = if j = k then d else s.ioState j := by
  unfold State.ioState State.setIoState
  simp only [List.getD_eq_getElem?_getD, List.getElem?_set]
  by_cases hjk : k = j
  · subst hjk; simp [h]
  · simp [hjk, Ne.symm hjk]

@[simp] theorem State.setIoState_self (s : State) (k : Nat) : s.setIoState k (s.ioState k) = s := by
  cases s with
  | mk cfg regs pc halted hoe waiting csrs resv ram io events =>
    simp only [State.setIoState, State.ioState, List.getD_eq_getElem?_getD, State.mk.injEq, true_and,
      and_true]
    apply List.ext_getElem?
    intro j
    rw [List.getElem?_set]
    by_cases hk : k = j
    · subst hk
      by_cases hl : k < io.length
      · simp [hl]
      · simp [hl]
    · simp [hk]

end Sys2Proof.Machine
end

