-- ==== Sys2Proof/Laws/Bus.lean ====
section
/-!
SUPPORT. The bus (20_memory R61 to R82): which platforms build a machine, where routing sends an access,
and everything a bus read or write can answer.
-/

namespace Sys2Proof.Machine

open Sys2Proof.Safety

/-! ### Well-formed platforms -/

theorem inRange_iff (start size addr : Nat) :
    inRange start size addr = true ↔ start ≤ addr ∧ addr < start + size := by
  simp [inRange]

theorem rangesDisjoint_iff (d e : Range) :
    rangesDisjoint d e = true ↔ d.1 + d.2 ≤ e.1 ∨ e.1 + e.2 ≤ d.1 := by
  simp [rangesDisjoint]

theorem firstBadRange_none (l : List Range) :
    firstBadRange l = none ↔ ∀ d ∈ l, d.2 ≠ 0 ∧ d.1 + d.2 ≤ addressSpaceEnd := by
  induction l with
  | nil => simp [firstBadRange]
  | cons d l ih =>
    unfold firstBadRange
    by_cases h : d.2 = 0
    · simp [h]
    · by_cases h2 : addressSpaceEnd < d.1 + d.2
      · simp [h, h2]
      · simp [h, h2, ih]
        intro _
        omega

theorem firstOverlap_none (l : List Range) :
    firstOverlap l = none ↔ l.Pairwise fun d e => rangesDisjoint d e = true := by
  induction l with
  | nil => simp [firstOverlap]
  | cons d l ih =>
    unfold firstOverlap
    rw [List.pairwise_cons, ← ih]
    cases h : l.find? fun e => !rangesDisjoint d e with
    | none =>
      have := List.find?_eq_none.1 h
      simp only [Bool.not_eq_true', Bool.not_eq_false] at this
      exact ⟨fun hn => ⟨this, hn⟩, fun hn => hn.2⟩
    | some e =>
      have h1 := List.find?_some h
      have h2 := List.mem_of_find?_eq_some h
      simp only [reduceCtorEq, false_iff, not_and]
      intro h3
      simp [h3 e h2] at h1

/-- What construction asks of a platform (R62, R257). -/
theorem Platform.wf_iff (p : Platform) :
    Platform.wf p = true ↔
      (∀ d ∈ Platform.ranges p, d.2 ≠ 0 ∧ d.1 + d.2 ≤ addressSpaceEnd) ∧
      ((Platform.ranges p).Pairwise fun d e => rangesDisjoint d e = true) ∧ 9 ≤ p.ioSize := by
  rw [← firstBadRange_none, ← firstOverlap_none]
  unfold Platform.wf configError
  cases firstBadRange (Platform.ranges p) with
  | some e => simp
  | none =>
    cases firstOverlap (Platform.ranges p) with
    | some e => simp
    | none => by_cases h : p.ioSize < 9 <;> (simp [h]; try omega)

theorem construct_ok_iff (p : Platform) (l : Launch) (s : State) :
    construct p l = .ok s ↔
      Platform.wf p = true ∧ l.image.length ≤ p.ramSize ∧ s = State.ofLaunch p l := by
  unfold construct Platform.wf configError
  cases firstBadRange (Platform.ranges p) with
  | some e => simp
  | none =>
    cases firstOverlap (Platform.ranges p) with
    | some e => simp
    | none =>
      by_cases h : p.ioSize < 9
      · simp [h]
      · by_cases h2 : p.ramSize < l.image.length
        · simp [h, h2]
        · simp [h, h2, eq_comm]
          omega

theorem ioBase_mem_ranges {p : Platform} {k b : Nat} (h : p.ioBases[k]? = some b) :
    (b, p.ioSize) ∈ Platform.ranges p := by
  simp only [Platform.ranges, List.mem_cons, List.mem_map]
  exact .inr ⟨b, List.mem_of_getElem? h, rfl⟩

/-- The RAM and an IO device share no address. -/
theorem ram_io_disjoint {p : Platform} (hp : Platform.wf p = true) {k b : Nat}
    (h : p.ioBases[k]? = some b) : p.ramBase + p.ramSize ≤ b ∨ b + p.ioSize ≤ p.ramBase := by
  have ⟨_, h2, _⟩ := (Platform.wf_iff p).1 hp
  simp only [Platform.ranges, List.pairwise_cons, List.mem_map] at h2
  exact (rangesDisjoint_iff _ _).1 (h2.1 _ ⟨b, List.mem_of_getElem? h, rfl⟩)

/-- Two IO devices share no address. -/
theorem io_io_disjoint {p : Platform} (hp : Platform.wf p = true) {j k a b : Nat} (hjk : j ≠ k)
    (hj : p.ioBases[j]? = some a) (hk : p.ioBases[k]? = some b) :
    a + p.ioSize ≤ b ∨ b + p.ioSize ≤ a := by
  have ⟨_, h2, _⟩ := (Platform.wf_iff p).1 hp
  simp only [Platform.ranges, List.pairwise_cons] at h2
  have h3 := h2.2
  rw [List.pairwise_map, List.pairwise_iff_getElem] at h3
  obtain ⟨hjl, rfl⟩ := List.getElem?_eq_some_iff.1 hj
  obtain ⟨hkl, rfl⟩ := List.getElem?_eq_some_iff.1 hk
  rcases Nat.lt_or_gt_of_ne hjk with h | h
  · exact (rangesDisjoint_iff _ _).1 (h3 j k hjl hkl h)
  · exact ((rangesDisjoint_iff _ _).1 (h3 k j hkl hjl h)).symm

/-! ### Routing -/

theorem ioOwner_some {ioSize addr : Nat} {bases : List Nat} {k index b : Nat}
    (h : ioOwner ioSize addr bases k = some (index, b)) :
    k ≤ index ∧ bases[index - k]? = some b ∧ b ≤ addr ∧ addr < b + ioSize := by
  induction bases generalizing k with
  | nil => simp [ioOwner] at h
  | cons a bases ih =>
    unfold ioOwner at h
    split at h
    · rename_i hr
      have hr := (inRange_iff _ _ _).1 hr
      simp only [Option.some.injEq, Prod.mk.injEq] at h
      obtain ⟨rfl, rfl⟩ := h
      simp [hr]
    · obtain ⟨h1, h2, h3⟩ := ih h
      refine ⟨by omega, ?_, h3⟩
      rw [show index - k = (index - (k + 1)) + 1 by omega]
      simpa using h2

theorem ioOwner_none {ioSize addr : Nat} {bases : List Nat} {k : Nat} :
    ioOwner ioSize addr bases k = none ↔ ∀ b ∈ bases, ¬ (b ≤ addr ∧ addr < b + ioSize) := by
  induction bases generalizing k with
  | nil => simp [ioOwner]
  | cons a bases ih =>
    unfold ioOwner
    by_cases h : inRange a ioSize addr = true
    · have := (inRange_iff _ _ _).1 h
      simp [h, this]
    · have h' := h
      rw [inRange_iff] at h'
      simp only [h, Bool.false_eq_true, ↓reduceIte, List.mem_cons, forall_eq_or_imp]
      exact ⟨fun hn => ⟨h', ih.1 hn⟩, fun hn => ih.2 hn.2⟩

/-- An access inside the RAM device goes to it. -/
theorem route_of_inRam {p : Platform} {addr : Word} {n : Nat} (hn : 0 < n) (h : InRam p addr n) :
    Platform.route p addr n = some (.ram, ramOffset p addr) := by
  obtain ⟨h1, h2⟩ := h
  have hr : inRange p.ramBase p.ramSize addr.toNat = true := (inRange_iff _ _ _).2 ⟨h1, by omega⟩
  simp [Platform.route, Platform.owner, hr, h2, ramOffset]

/-- An access inside an IO device's window goes to it. -/
theorem route_of_inIo {p : Platform} (hp : Platform.wf p = true) {addr : Word} {n k off : Nat}
    (hn : 0 < n) (h : InIo p addr n k off) : Platform.route p addr n = some (.io k, off) := by
  obtain ⟨b, hb, ha, ho⟩ := h
  have hr : ¬ inRange p.ramBase p.ramSize addr.toNat = true := by
    rw [inRange_iff]
    have := ram_io_disjoint hp hb
    omega
  have hio : ioOwner p.ioSize addr.toNat p.ioBases 0 = some (k, b) := by
    cases hc : ioOwner p.ioSize addr.toNat p.ioBases 0 with
    | none =>
      exact absurd ⟨by omega, by omega⟩ (ioOwner_none.1 hc b (List.mem_of_getElem? hb))
    | some r =>
      obtain ⟨j, a⟩ := r
      obtain ⟨_, hj, h3, h4⟩ := ioOwner_some hc
      rw [Nat.sub_zero] at hj
      by_cases hjk : j = k
      · subst hjk
        rw [hb] at hj
        simp only [Option.some.injEq] at hj
        rw [hj]
      · have := io_io_disjoint hp hjk hj hb
        omega
  have hle : addr.toNat + n ≤ b + p.ioSize := by omega
  simp [Platform.route, Platform.owner, hr, hio, hle]
  omega

/-- Where routing sends an access, the bytes lie: the RAM. -/
theorem inRam_of_route {p : Platform} {addr : Word} {n off : Nat}
    (h : Platform.route p addr n = some (.ram, off)) : InRam p addr n ∧ off = ramOffset p addr := by
  unfold Platform.route Platform.owner at h
  by_cases hr : inRange p.ramBase p.ramSize addr.toNat = true
  · have := (inRange_iff _ _ _).1 hr
    simp only [hr, ↓reduceIte] at h
    split at h
    · rename_i hle
      simp only [Option.some.injEq, Prod.mk.injEq, true_and] at h
      exact ⟨⟨this.1, hle⟩, h.symm⟩
    · cases h
  · simp only [hr, Bool.false_eq_true, ↓reduceIte] at h
    cases hc : ioOwner p.ioSize addr.toNat p.ioBases 0 with
    | none => simp [hc] at h
    | some r =>
      obtain ⟨j, a⟩ := r
      simp only [hc] at h
      split at h <;> simp at h

/-- Where routing sends an access, the bytes lie: an IO device. -/
theorem inIo_of_route {p : Platform} {addr : Word} {n k off : Nat}
    (h : Platform.route p addr n = some (.io k, off)) : InIo p addr n k off := by
  unfold Platform.route Platform.owner at h
  by_cases hr : inRange p.ramBase p.ramSize addr.toNat = true
  · simp only [hr, ↓reduceIte] at h
    split at h <;> simp at h
  · simp only [hr, Bool.false_eq_true, ↓reduceIte] at h
    cases hc : ioOwner p.ioSize addr.toNat p.ioBases 0 with
    | none => simp [hc] at h
    | some r =>
      obtain ⟨j, a⟩ := r
      obtain ⟨_, hj, h3, h4⟩ := ioOwner_some hc
      rw [Nat.sub_zero] at hj
      simp only [hc] at h
      split at h
      · simp only [Option.some.injEq, Prod.mk.injEq, Device.io.injEq] at h
        obtain ⟨rfl, rfl⟩ := h
        exact ⟨a, hj, by omega, by omega⟩
      · cases h

/-- An unmapped access goes nowhere. -/
theorem route_of_unmapped {p : Platform} {addr : Word} {n : Nat} (h : Unmapped p addr n) :
    Platform.route p addr n = none := by
  cases hc : Platform.route p addr n with
  | none => rfl
  | some r =>
    obtain ⟨d, off⟩ := r
    cases d with
    | ram => exact absurd (inRam_of_route hc).1 h.1
    | io k => exact absurd (inIo_of_route hc) (h.2 k off)

/-- An access that goes nowhere is unmapped. -/
theorem unmapped_of_route {p : Platform} (hp : Platform.wf p = true) {addr : Word} {n : Nat}
    (hn : 0 < n) (h : Platform.route p addr n = none) : Unmapped p addr n :=
  ⟨fun hr => by simp [route_of_inRam hn hr] at h,
   fun _ _ hi => by simp [route_of_inIo hp hn hi] at h⟩

theorem Size.bytes_pos (sz : Size) : 0 < sz.bytes := by cases sz <;> decide

theorem Size.bytes_le (sz : Size) : sz.bytes ≤ 4 := by cases sz <;> decide

/-- The three sizes and no other (R65). -/
theorem Size.ofBytes_bytes (sz : Size) : Size.ofBytes sz.bytes = some sz := by cases sz <;> rfl

/-! ### The IO device -/

/-- Everything an IO read can answer (R78, R80, R81). -/
theorem ioRead_cases {sh : Bool} {d e : IoState} {off : Nat} {sz : Size} {v : Word}
    (h : ioRead sh d off sz = some (v, e)) :
    (off = 8 ∧ sz = .byte ∧ d.inFifo = [] ∧ v = 0 ∧ e = d) ∨
    (off = 8 ∧ sz = .byte ∧ ∃ c rest, d.inFifo = c :: rest ∧ v = c.setWidth 32 ∧
      e = { d with inFifo := rest }) ∨
    (sh = true ∧ off + sz.bytes ≤ 4 ∧ v = ofLeBytes (shadowBytes d.shadow off sz.bytes) ∧ e = d) := by
  unfold ioRead at h
  split_ifs at h with h1 h2
  · obtain ⟨rfl, rfl⟩ := h1
    cases hf : d.inFifo with
    | nil =>
      simp only [hf, Option.some.injEq, Prod.mk.injEq] at h
      exact .inl ⟨rfl, rfl, rfl, h.1.symm, h.2.symm⟩
    | cons c rest =>
      simp only [hf, Option.some.injEq, Prod.mk.injEq] at h
      exact .inr (.inl ⟨rfl, rfl, c, rest, rfl, h.1.symm, h.2.symm⟩)
  · simp only [Option.some.injEq, Prod.mk.injEq] at h
    exact .inr (.inr ⟨h2.1, h2.2, h.1.symm, h.2.symm⟩)

/-- An IO read leaves the output and the shadow. -/
theorem ioRead_frame {sh : Bool} {d e : IoState} {off : Nat} {sz : Size} {v : Word}
    (h : ioRead sh d off sz = some (v, e)) : e.outLog = d.outLog ∧ e.shadow = d.shadow := by
  rcases ioRead_cases h with ⟨_, _, _, _, rfl⟩ | ⟨_, _, _, _, _, _, rfl⟩ | ⟨_, _, _, rfl⟩ <;>
    exact ⟨rfl, rfl⟩

/-- Everything an IO write can answer (R76, R77, R81). -/
theorem ioWrite_cases {sh : Bool} {d e : IoState} {off : Nat} {sz : Size} {v : Word}
    {g : Option IrqSignal} (h : ioWrite sh d off sz v = some (e, g)) :
    (off = 0 ∧ g = none ∧
      e = { d with
              outLog := d.outLog ++ leBytes sz.bytes v
              shadow := if sh then shadowWrite d.shadow (leBytes sz.bytes v) else d.shadow }) ∨
    (off = 4 ∧ sz = .word ∧ v = 0 ∧ g = some .clear ∧ e = d) := by
  unfold ioWrite at h
  split_ifs at h with h1 h2 h3
  · simp only [Option.some.injEq, Prod.mk.injEq] at h
    exact .inl ⟨h1, h.2.symm, by rw [← h.1, if_pos h2]⟩
  · simp only [Option.some.injEq, Prod.mk.injEq] at h
    exact .inl ⟨h1, h.2.symm, by rw [← h.1, if_neg h2]⟩
  · simp only [Option.some.injEq, Prod.mk.injEq] at h
    exact .inr ⟨h3.1, h3.2.1, h3.2.2, h.2.symm, h.1.symm⟩

/-! ### Bus reads and writes -/

/-- A read of RAM. -/
theorem memRead_ram {s : State} {addr : Word} {sz : Size} (h : InRam s.cfg addr sz.bytes) :
    s.memRead addr sz = .ok (s.ram.readLe (ramOffset s.cfg addr) sz.bytes, s) := by
  simp [State.memRead, route_of_inRam sz.bytes_pos h]

/-- A read of an IO device. -/
theorem memRead_io {s : State} (hp : Platform.wf s.cfg = true) {addr : Word} {sz : Size} {k off : Nat}
    (h : InIo s.cfg addr sz.bytes k off) :
    s.memRead addr sz =
      match ioRead s.cfg.ioShadow (s.ioState k) off sz with
      | some (v, d) => .ok (v, s.setIoState k d)
      | none => .error (.ioUnspecified addr sz.bytes false) := by
  cases hc : ioRead s.cfg.ioShadow (s.ioState k) off sz <;>
    simp [State.memRead, route_of_inIo hp sz.bytes_pos h, hc]

/-- A read where no device is. -/
theorem memRead_unmapped {s : State} {addr : Word} {sz : Size} (h : Unmapped s.cfg addr sz.bytes) :
    s.memRead addr sz = .error (.unmapped addr) := by
  simp [State.memRead, route_of_unmapped h]

/-- Everything a bus read can answer (R66). -/
theorem memRead_cases {s t : State} {addr : Word} {sz : Size} {v : Word}
    (h : s.memRead addr sz = .ok (v, t)) :
    (InRam s.cfg addr sz.bytes ∧ v = s.ram.readLe (ramOffset s.cfg addr) sz.bytes ∧ t = s) ∨
    (∃ k off d, InIo s.cfg addr sz.bytes k off ∧
      ioRead s.cfg.ioShadow (s.ioState k) off sz = some (v, d) ∧ t = s.setIoState k d) := by
  unfold State.memRead at h
  split at h
  · cases h
  · rename_i off hr
    simp only [Except.ok.injEq, Prod.mk.injEq] at h
    obtain ⟨h1, h2⟩ := inRam_of_route hr
    exact .inl ⟨h1, by rw [← h.1, h2], h.2.symm⟩
  · rename_i k off hr
    split at h
    · rename_i v' d hd
      simp only [Except.ok.injEq, Prod.mk.injEq] at h
      exact .inr ⟨k, off, d, inIo_of_route hr, by rw [← h.1]; exact hd, h.2.symm⟩
    · cases h

/-- Why a bus read fails (R66, R81). -/
theorem memRead_error {s : State} {addr : Word} {sz : Size} {e : BusError}
    (h : s.memRead addr sz = .error e) :
    (e = .unmapped addr ∧ Platform.route s.cfg addr sz.bytes = none) ∨
    (e = .ioUnspecified addr sz.bytes false ∧ ∃ k off, InIo s.cfg addr sz.bytes k off ∧
      ioRead s.cfg.ioShadow (s.ioState k) off sz = none) := by
  unfold State.memRead at h
  split at h
  · rename_i hr
    simp only [Except.error.injEq] at h
    exact .inl ⟨h.symm, hr⟩
  · cases h
  · rename_i k off hr
    split at h
    · cases h
    · rename_i hd
      simp only [Except.error.injEq] at h
      exact .inr ⟨h.symm, k, off, inIo_of_route hr, hd⟩

/-- A bus read changes at most an input queue. -/
theorem memRead_frame {s t : State} {addr : Word} {sz : Size} {v : Word}
    (h : s.memRead addr sz = .ok (v, t)) :
    t.cfg = s.cfg ∧ t.regs = s.regs ∧ t.pc = s.pc ∧ t.halted = s.halted ∧
    t.haltOnEbreak = s.haltOnEbreak ∧ t.waiting = s.waiting ∧ t.csrs = s.csrs ∧ t.resv = s.resv ∧
    t.ram = s.ram ∧ t.events = s.events ∧ t.io.length = s.io.length := by
  rcases memRead_cases h with ⟨_, _, rfl⟩ | ⟨k, off, d, _, _, rfl⟩
  · simp
  · simp

/-- A write of RAM. -/
theorem memWrite_ram {s : State} {addr : Word} {sz : Size} (v : Word)
    (h : InRam s.cfg addr sz.bytes) :
    s.memWrite addr sz v =
      .ok (State.dropReservation { s with ram := s.ram.writeLe (ramOffset s.cfg addr) sz.bytes v }) := by
  simp [State.memWrite, State.deviceWrite, route_of_inRam sz.bytes_pos h]

/-- A write of an IO device. -/
theorem memWrite_io {s : State} (hp : Platform.wf s.cfg = true) {addr : Word} {sz : Size}
    {k off : Nat} (v : Word) (h : InIo s.cfg addr sz.bytes k off) :
    s.memWrite addr sz v =
      match ioWrite s.cfg.ioShadow (s.ioState k) off sz v with
      | some (d, none) => .ok (s.setIoState k d).dropReservation
      | some (d, some g) => .ok ((s.setIoState k d).signalIrq g).dropReservation
      | none => .error (.ioUnspecified addr sz.bytes true) := by
  unfold State.memWrite State.deviceWrite
  rw [route_of_inIo hp sz.bytes_pos h]
  dsimp only
  split <;> split <;> simp_all

/-- A write where no device is. -/
theorem memWrite_unmapped {s : State} {addr : Word} {sz : Size} (v : Word)
    (h : Unmapped s.cfg addr sz.bytes) : s.memWrite addr sz v = .error (.unmapped addr) := by
  simp [State.memWrite, State.deviceWrite, route_of_unmapped h]

/-- Everything a bus write can answer (R67). -/
theorem memWrite_cases {s t : State} {addr : Word} {sz : Size} {v : Word}
    (h : s.memWrite addr sz v = .ok t) :
    (InRam s.cfg addr sz.bytes ∧
      t = State.dropReservation { s with ram := s.ram.writeLe (ramOffset s.cfg addr) sz.bytes v }) ∨
    (∃ k d, InIo s.cfg addr sz.bytes k 0 ∧
      d = { s.ioState k with
              outLog := (s.ioState k).outLog ++ leBytes sz.bytes v
              shadow := if s.cfg.ioShadow then shadowWrite (s.ioState k).shadow (leBytes sz.bytes v)
                        else (s.ioState k).shadow } ∧
      t = (s.setIoState k d).dropReservation) ∨
    (∃ k, InIo s.cfg addr sz.bytes k 4 ∧ sz = .word ∧ v = 0 ∧
      t = (s.signalIrq .clear).dropReservation) := by
  unfold State.memWrite at h
  split at h
  · rename_i u hu
    simp only [Except.ok.injEq] at h
    subst h
    unfold State.deviceWrite at hu
    split at hu
    · cases hu
    · rename_i off hr
      obtain ⟨h1, rfl⟩ := inRam_of_route hr
      simp only [Except.ok.injEq] at hu
      exact .inl ⟨h1, by rw [hu]⟩
    · rename_i k off hr
      have hio := inIo_of_route hr
      split at hu
      · rename_i d hd
        simp only [Except.ok.injEq] at hu
        rcases ioWrite_cases hd with ⟨rfl, _, hd'⟩ | ⟨_, _, _, hg, _⟩
        · exact .inr (.inl ⟨k, d, hio, hd', by rw [hu]⟩)
        · cases hg
      · rename_i d g hd
        simp only [Except.ok.injEq] at hu
        rcases ioWrite_cases hd with ⟨_, hg, _⟩ | ⟨rfl, h2, h3, hg, rfl⟩
        · cases hg
        · simp only [Option.some.injEq] at hg
          subst hg
          rw [State.setIoState_self] at hu
          exact .inr (.inr ⟨k, hio, h2, h3, by rw [hu]⟩)
      · cases hu
  · cases h

/-- Why a bus write fails (R67, R81). -/
theorem memWrite_error {s : State} {addr : Word} {sz : Size} {v : Word} {e : BusError}
    (h : s.memWrite addr sz v = .error e) :
    (e = .unmapped addr ∧ Platform.route s.cfg addr sz.bytes = none) ∨
    (e = .ioUnspecified addr sz.bytes true ∧ ∃ k off, InIo s.cfg addr sz.bytes k off ∧
      ioWrite s.cfg.ioShadow (s.ioState k) off sz v = none) := by
  unfold State.memWrite at h
  split at h
  · cases h
  · rename_i e' hu
    simp only [Except.error.injEq] at h
    subst h
    unfold State.deviceWrite at hu
    split at hu
    · rename_i hr
      simp only [Except.error.injEq] at hu
      exact .inl ⟨hu.symm, hr⟩
    · cases hu
    · rename_i k off hr
      split at hu
      · cases hu
      · cases hu
      · rename_i hd
        simp only [Except.error.injEq] at hu
        exact .inr ⟨hu.symm, k, off, inIo_of_route hr, hd⟩

/-- A completed write leaves everything but RAM, a device, the reservation and `mip`. -/
theorem memWrite_frame {s t : State} {addr : Word} {sz : Size} {v : Word}
    (h : s.memWrite addr sz v = .ok t) :
    t.cfg = s.cfg ∧ t.regs = s.regs ∧ t.pc = s.pc ∧ t.halted = s.halted ∧
    t.haltOnEbreak = s.haltOnEbreak ∧ t.waiting = s.waiting ∧ t.resv = none ∧
    t.events = s.events ∧ t.io.length = s.io.length ∧
    (t.csrs = s.csrs ∨ t.csrs = { s.csrs with mip := setBit s.csrs.mip bitExternal false }) := by
  rcases memWrite_cases h with ⟨_, rfl⟩ | ⟨k, d, _, _, rfl⟩ | ⟨k, _, _, _, rfl⟩
  · simp
  · simp
  · refine ⟨rfl, rfl, rfl, rfl, rfl, rfl, rfl, rfl, rfl, .inr rfl⟩

/-! ### The RAM's numbers -/

/-- A little-endian read is the number of its bytes (R66, R70). -/
theorem toNat_readLe (m : Memory) (off n : Nat) (hn : n ≤ 4) :
    (m.readLe off n).toNat =
      ((List.range n).map fun k => (Memory.readByte m (off + k)).toNat * 256 ^ k).sum := by
  unfold Memory.readLe Memory.readBytes
  rw [toNat_ofLeBytes _ (by simpa using hn)]
  simp only [List.length_map, List.length_range]
  congr 1
  apply List.map_congr_left
  intro k hk
  have hk := List.mem_range.1 hk
  simp [List.getD_eq_getElem?_getD, hk]

/-- A read of RAM gives the number `ramNumber` names. -/
theorem readLe_eq_ramNumber (s : State) (addr : Word) (n : Nat) (hn : n ≤ 4) :
    s.ram.readLe (ramOffset s.cfg addr) n = BitVec.ofNat 32 (ramNumber s addr n) := by
  apply BitVec.eq_of_toNat_eq
  rw [BitVec.toNat_ofNat, ramNumber, ← toNat_readLe _ _ _ hn]
  exact (Nat.mod_eq_of_lt (BitVec.isLt _)).symm

/-- What a byte reads as after a store to RAM (R67, R72). -/
theorem readByte_writeLe (m : Memory) (off n : Nat) (v : Word) (k : Nat) (h : Memory.wf m = true) :
    Memory.readByte (m.writeLe off n v) k =
      if off ≤ k ∧ k < off + n then byteOfWord v (k - off) else Memory.readByte m k := by
  unfold Memory.writeLe
  rw [Memory.readByte_writeBytes _ _ _ _ h, leBytes_length]
  split
  · rename_i hk
    rw [leBytes_getD _ _ _ _ (by omega)]
  · rfl

/-- A word read after a word write of the same bytes gives the word (R72). -/
theorem readLe_writeLe_self (m : Memory) (off : Nat) (v : Word) (h : Memory.wf m = true) :
    (m.writeLe off 4 v).readLe off 4 = v := by
  have hb : (m.writeLe off 4 v).readBytes off 4 = leBytes 4 v := by
    unfold Memory.readBytes leBytes
    apply List.map_congr_left
    intro k hk
    have hk := List.mem_range.1 hk
    rw [readByte_writeLe _ _ _ _ _ h, if_pos (by omega), Nat.add_sub_cancel_left]
  rw [Memory.readLe, hb, ofLeBytes_leBytes]

end Sys2Proof.Machine
end

