-- ==== Sys2Proof/Laws/Decode.lean ====
section
/-!
SUPPORT. The decoder on the opcode table (30_encoding R112): rows are apart, so a word of a row decodes to
that row's instruction; and the fields of the words the encoder builds.
-/

namespace Sys2Proof

/-- Two rows differ in a bit that both fix. -/
def OpcodeRow.apart (r q : OpcodeRow) : Prop := r.mask &&& q.mask &&& (r.pattern ^^^ q.pattern) ≠ 0

theorem OpcodeRow.not_both {r q : OpcodeRow} (h : r.apart q) (w : Word) :
    ¬ (r.matchesWord w = true ∧ q.matchesWord w = true) := by
  rintro ⟨h1, h2⟩
  simp only [OpcodeRow.matchesWord, beq_iff_eq] at h1 h2
  apply h
  rw [← h1, ← h2]
  ext j hj
  simp
  cases w[j] <;> cases r.mask[j] <;> cases q.mask[j] <;> simp

/-- The mask and the pattern of each row. -/
def opcodeBits : List (Word × Word) := opcodeTable.map fun r => (r.mask, r.pattern)

theorem opcodeBits_apart :
    opcodeBits.Pairwise fun a b => (a.1 &&& b.1 &&& (a.2 ^^^ b.2) == 0) = false := by
  decide +kernel

theorem opcodeTable_apart : opcodeTable.Pairwise OpcodeRow.apart := by
  have h := opcodeBits_apart
  rw [opcodeBits, List.pairwise_map] at h
  exact h.imp fun hab => by simpa [OpcodeRow.apart] using hab

/-- At most one row matches a word. -/
theorem row_unique {r q : OpcodeRow} {w : Word} (hr : r ∈ opcodeTable) (hq : q ∈ opcodeTable)
    (hrw : r.matchesWord w = true) (hqw : q.matchesWord w = true) : r = q := by
  by_contra hne
  have hs : Std.Symm OpcodeRow.apart := ⟨fun a b h => by
    unfold OpcodeRow.apart at *
    rwa [BitVec.and_comm b.mask, BitVec.xor_comm b.pattern]⟩
  exact OpcodeRow.not_both (opcodeTable_apart.forall hr hq hne) w ⟨hrw, hqw⟩

/-- A word that matches a row decodes to the row's instruction. -/
theorem decodeWord_of_row {r : OpcodeRow} {w : Word} (hr : r ∈ opcodeTable)
    (hw : r.matchesWord w = true) : decodeWord w = .ok (r.build w) := by
  unfold decodeWord
  cases hf : opcodeTable.find? fun r => r.matchesWord w with
  | none => exact absurd hw (by simpa using List.find?_eq_none.1 hf r hr)
  | some q =>
    have hq := List.find?_some hf
    rw [row_unique hr (List.mem_of_find?_eq_some hf) hw hq]

/-- A decoded instruction comes from a row that matches. -/
theorem row_of_decodeWord {w : Word} {i : Instr} (h : decodeWord w = .ok i) :
    ∃ r ∈ opcodeTable, r.matchesWord w = true ∧ r.build w = i := by
  unfold decodeWord at h
  split at h
  · rename_i r hf
    simp only [Except.ok.injEq] at h
    exact ⟨r, List.mem_of_find?_eq_some hf,
      by simpa using List.find?_some hf, h⟩
  · cases h

/-- A word that matches no row is unrecognised. -/
theorem decodeWord_of_no_row {w : Word} (h : ∀ r ∈ opcodeTable, r.matchesWord w = false) :
    decodeWord w = .error (.unrecognised w) := by
  unfold decodeWord
  rw [List.find?_eq_none.2 fun r hr => by simp [h r hr]]

/-- An unrecognised word matches no row. -/
theorem no_row_of_decodeWord {w : Word} {e : Reject} (h : decodeWord w = .error e) :
    ∀ r ∈ opcodeTable, r.matchesWord w = false := by
  intro r hr
  cases hw : r.matchesWord w with
  | false => rfl
  | true => rw [decodeWord_of_row hr hw] at h; cases h

/-- The decoder on the four bytes of a word. -/
theorem decode_leBytes (w : Word) :
    decode (leBytes 4 w) =
      match decodeWord w with
      | .ok i => .ok (i, [])
      | .error e => .error e := by
  have h := ofLeBytes_leBytes w
  have hb : leBytes 4 w = [byteOfWord w 0, byteOfWord w 1, byteOfWord w 2, byteOfWord w 3] := rfl
  rw [hb] at h ⊢
  rw [decode, h]
  all_goals cases decodeWord w <;> rfl

/-! ### Fields of the words the encoder builds -/

/-- A slice that lies in the lower part of a concatenation. -/
theorem extract_append_low {a b n k : Nat} (x : BitVec a) (y : BitVec b) (h : k + n ≤ b) :
    (x ++ y).extractLsb' k n = y.extractLsb' k n := by
  ext j hj
  simp only [BitVec.getElem_extractLsb', BitVec.getLsbD_append]
  rw [if_pos (by omega)]

/-- A slice that lies in the upper part of a concatenation. -/
theorem extract_append_high {a b n k : Nat} (x : BitVec a) (y : BitVec b) (h : b ≤ k) :
    (x ++ y).extractLsb' k n = x.extractLsb' (k - b) n := by
  ext j hj
  simp only [BitVec.getElem_extractLsb', BitVec.getLsbD_append]
  rw [if_neg (by omega), show k + j - b = k - b + j by omega]

theorem extract_full {n : Nat} (x : BitVec n) : x.extractLsb' 0 n = x := by
  ext j hj
  simp

/-! ### The bits a row's mask keeps, and the fields it extracts -/

theorem and_all7 (x : BitVec 7) : x &&& 0x7F#7 = x := BitVec.and_allOnes
theorem and_all5 (x : BitVec 5) : x &&& 0x1F#5 = x := BitVec.and_allOnes
theorem and_all3 (x : BitVec 3) : x &&& 7#3 = x := BitVec.and_allOnes

section Masks

variable (f7 : BitVec 7) (rs2 rs1 rd : RegId) (f3 : BitVec 3) (op : BitVec 7) (i12 : BitVec 12)
  (i13 : BitVec 13) (i20 : BitVec 20) (i21 : BitVec 21) (f5 : BitVec 5) (aq rl : BitVec 1)

/-- Masking a word of six fields masks each field. -/
theorem encodeR_and (m7 : BitVec 7) (m2 m1 md : BitVec 5) (m3 : BitVec 3) (mo : BitVec 7) :
    encodeR f7 rs2 rs1 f3 rd op &&& encodeR m7 m2 m1 m3 md mo =
      encodeR (f7 &&& m7) (rs2 &&& m2) (rs1 &&& m1) (f3 &&& m3) (rd &&& md) (op &&& mo) := by
  show ((f7 ++ rs2 ++ rs1 ++ f3 ++ rd ++ op : BitVec (7 + 5 + 5 + 3 + 5 + 7))
      &&& (m7 ++ m2 ++ m1 ++ m3 ++ md ++ mo : BitVec (7 + 5 + 5 + 3 + 5 + 7))) = _
  rw [BitVec.and_append, BitVec.and_append, BitVec.and_append, BitVec.and_append, BitVec.and_append]
  rfl

/-- The same for a word of five fields. -/
theorem encodeI_and (mi : BitVec 12) (m1 md : BitVec 5) (m3 : BitVec 3) (mo : BitVec 7) :
    encodeI i12 rs1 f3 rd op &&& encodeI mi m1 m3 md mo =
      encodeI (i12 &&& mi) (rs1 &&& m1) (f3 &&& m3) (rd &&& md) (op &&& mo) := by
  show ((i12 ++ rs1 ++ f3 ++ rd ++ op : BitVec (12 + 5 + 3 + 5 + 7))
      &&& (mi ++ m1 ++ m3 ++ md ++ mo : BitVec (12 + 5 + 3 + 5 + 7))) = _
  rw [BitVec.and_append, BitVec.and_append, BitVec.and_append, BitVec.and_append]
  rfl

/-- The same for a word of three fields. -/
theorem encodeU_and (mi : BitVec 20) (md : BitVec 5) (mo : BitVec 7) :
    encodeU i20 rd op &&& encodeU mi md mo = encodeU (i20 &&& mi) (rd &&& md) (op &&& mo) := by
  show ((i20 ++ rd ++ op : BitVec (20 + 5 + 7)) &&& (mi ++ md ++ mo : BitVec (20 + 5 + 7))) = _
  rw [BitVec.and_append, BitVec.and_append]
  rfl

/-- The B format is the R format with the immediate in the places of funct7 and rd. -/
theorem encodeB_eq (imm : BitVec 13) :
    encodeB imm rs2 rs1 f3 op =
      encodeR (imm.extractLsb' 12 1 ++ imm.extractLsb' 5 6) rs2 rs1 f3
        (imm.extractLsb' 1 4 ++ imm.extractLsb' 11 1) op := by
  unfold encodeB encodeR
  congr 1
  apply BitVec.eq_of_getLsbD_eq
  intro j hj
  simp only [BitVec.getLsbD_append]
  by_cases h1 : j < 1
  · simp [h1, show j < 5 by omega]
  · by_cases h2 : j < 5
    · simp [h1, h2, show j - 1 < 4 by omega]
    · simp [h1, h2, show ¬ j - 1 < 4 by omega, show j - 1 - 4 = j - 5 by omega]

/-- The J format is the U format with the immediate bits permuted. -/
theorem encodeJ_eq (imm : BitVec 21) :
    encodeJ imm rd op =
      encodeU (imm.extractLsb' 20 1 ++ imm.extractLsb' 1 10 ++ imm.extractLsb' 11 1
        ++ imm.extractLsb' 12 8) rd op := rfl

/-- The S format is the R format with the immediate in the places of funct7 and rd. -/
theorem encodeS_eq (imm : BitVec 12) :
    encodeS imm rs2 rs1 f3 op =
      encodeR (imm.extractLsb' 5 7) rs2 rs1 f3 (imm.extractLsb' 0 5) op := rfl

/-- The atomic form is the R format with funct7 split. -/
theorem encodeAtomic_eq :
    encodeAtomic f5 aq rl rs2 rs1 rd = encodeR (f5 ++ aq ++ rl) rs2 rs1 0b010#3 rd 0b0101111#7 := rfl

theorem encodeR_mask :
    encodeR f7 rs2 rs1 f3 rd op &&& 0xFE00707F = encodeR f7 0 0 f3 0 op := by
  rw [show (0xFE00707F : Word) = encodeR 0x7F 0 0 7 0 0x7F from rfl, encodeR_and]
  simp [and_all7, and_all3]

theorem encodeR_mask_f3 :
    encodeR f7 rs2 rs1 f3 rd op &&& 0x0000707F = encodeR 0 0 0 f3 0 op := by
  rw [show (0x0000707F : Word) = encodeR 0 0 0 7 0 0x7F from rfl, encodeR_and]
  simp [and_all7, and_all3]

theorem encodeI_mask : encodeI i12 rs1 f3 rd op &&& 0x0000707F = encodeI 0 0 f3 0 op := by
  rw [show (0x0000707F : Word) = encodeI 0 0 7 0 0x7F from rfl, encodeI_and]
  simp [and_all7, and_all3]

theorem encodeU_mask : encodeU i20 rd op &&& 0x0000007F = encodeU 0 0 op := by
  rw [show (0x0000007F : Word) = encodeU 0 0 0x7F from rfl, encodeU_and]
  simp [and_all7]

theorem funct5_mask : (f5 ++ aq ++ rl : BitVec 7) &&& 0x7C#7 = f5 ++ 0#1 ++ 0#1 := by
  show ((f5 ++ aq ++ rl : BitVec (5 + 1 + 1)) &&& (0x1F#5 ++ 0#1 ++ 0#1 : BitVec (5 + 1 + 1))) = _
  rw [BitVec.and_append, BitVec.and_append]
  simp [and_all5]

theorem encodeAtomic_mask :
    encodeAtomic f5 aq rl rs2 rs1 rd &&& 0xF800707F = encodeAtomic f5 0 0 0 0 0 := by
  rw [show (0xF800707F : Word) = encodeR 0x7C#7 0 0 7 0 0x7F from rfl, encodeAtomic_eq, encodeR_and,
    funct5_mask]
  simp
  rfl

theorem encodeLr_mask :
    encodeAtomic f5 aq rl rs2 rs1 rd &&& 0xF9F0707F = encodeAtomic f5 0 0 rs2 0 0 := by
  rw [show (0xF9F0707F : Word) = encodeR 0x7C#7 0x1F 0 7 0 0x7F from rfl, encodeAtomic_eq,
    encodeR_and, funct5_mask]
  simp [and_all5]
  rfl

end Masks

section Fields

variable (f7 : BitVec 7) (rs2 rs1 rd : RegId) (f3 : BitVec 3) (op : BitVec 7) (i12 : BitVec 12)
  (i13 : BitVec 13) (i20 : BitVec 20) (i21 : BitVec 21) (f5 : BitVec 5) (aq rl : BitVec 1)

theorem fields_encodeR :
    fieldRd (encodeR f7 rs2 rs1 f3 rd op) = rd ∧ fieldRs1 (encodeR f7 rs2 rs1 f3 rd op) = rs1 ∧
    fieldRs2 (encodeR f7 rs2 rs1 f3 rd op) = rs2 ∧
    (encodeR f7 rs2 rs1 f3 rd op).extractLsb' 25 7 = f7 := by
  refine ⟨?_, ?_, ?_, ?_⟩ <;>
    simp (disch := omega) only [fieldRd, fieldRs1, fieldRs2, encodeR, extract_append_low,
      extract_append_high, extract_full, Nat.reduceSub, Nat.sub_self]

theorem fields_encodeI :
    fieldRd (encodeI i12 rs1 f3 rd op) = rd ∧ fieldRs1 (encodeI i12 rs1 f3 rd op) = rs1 ∧
    fieldImmI (encodeI i12 rs1 f3 rd op) = i12 := by
  refine ⟨?_, ?_, ?_⟩ <;>
    simp (disch := omega) only [fieldRd, fieldRs1, fieldImmI, encodeI, extract_append_low,
      extract_append_high, extract_full, Nat.reduceSub, Nat.sub_self]

theorem fields_encodeU :
    fieldRd (encodeU i20 rd op) = rd ∧ fieldImmU (encodeU i20 rd op) = i20 := by
  refine ⟨?_, ?_⟩ <;>
    simp (disch := omega) only [fieldRd, fieldImmU, encodeU, extract_append_low,
      extract_append_high, extract_full, Nat.reduceSub, Nat.sub_self]

theorem fields_encodeAtomic :
    fieldAq (encodeAtomic f5 aq rl rs2 rs1 rd) = aq ∧
    fieldRl (encodeAtomic f5 aq rl rs2 rs1 rd) = rl := by
  refine ⟨?_, ?_⟩ <;>
    simp (disch := omega) only [fieldAq, fieldRl, encodeAtomic, extract_append_low,
      extract_append_high, extract_full, Nat.reduceSub, Nat.sub_self]

theorem fieldImmS_encodeS (imm : BitVec 12) : fieldImmS (encodeS imm rs2 rs1 f3 op) = imm := by
  have ⟨h1, _, _, h2⟩ := fields_encodeR (imm.extractLsb' 5 7) rs2 rs1 (imm.extractLsb' 0 5) f3 op
  unfold fieldImmS
  rw [encodeS_eq, h2]
  unfold fieldRd at h1
  rw [h1]
  apply BitVec.eq_of_getLsbD_eq
  intro j hj
  simp only [BitVec.getLsbD_append, BitVec.getLsbD_extractLsb']
  by_cases h5 : j < 5
  · simp [h5]
  · simp [h5, show j - 5 < 7 by omega, show 5 + (j - 5) = j by omega]

theorem fieldImmB_encodeB (imm : BitVec 13) (h : evenOffset13 imm = true) :
    fieldImmB (encodeB imm rs2 rs1 f3 op) = imm := by
  have h : imm[0] = false := by simpa [evenOffset13] using h
  simp (disch := omega) only [fieldImmB, encodeB, extract_append_low,
    extract_append_high, extract_full, Nat.reduceSub, Nat.sub_self]
  apply BitVec.eq_of_getLsbD_eq
  intro j hj
  simp only [BitVec.getLsbD_append, BitVec.getLsbD_extractLsb']
  interval_cases j <;> simp [h]

theorem fieldImmJ_encodeJ (imm : BitVec 21) (h : evenOffset21 imm = true) :
    fieldImmJ (encodeJ imm rd op) = imm := by
  have h : imm[0] = false := by simpa [evenOffset21] using h
  simp (disch := omega) only [fieldImmJ, encodeJ, extract_append_low,
    extract_append_high, extract_full, Nat.reduceSub, Nat.sub_self]
  apply BitVec.eq_of_getLsbD_eq
  intro j hj
  simp only [BitVec.getLsbD_append, BitVec.getLsbD_extractLsb']
  interval_cases j <;> simp [h]
end Fields
/-! ### Encoding a row's fields and extracting them again -/

theorem matchesWord_of {r : OpcodeRow} {w : Word} (h : w &&& r.mask = r.pattern) :
    r.matchesWord w = true := by
  simpa [OpcodeRow.matchesWord] using h

section Build

variable (rd rs1 rs2 : RegId) (f3 : BitVec 3) (op : BitVec 7)

theorem buildU_encodeU (f : RegId → BitVec 20 → Instr) (imm : BitVec 20) :
    buildU f (encodeU imm rd op) = f rd imm := by
  rw [buildU, (fields_encodeU rd op imm).1, (fields_encodeU rd op imm).2]

theorem buildJ_encodeJ (f : RegId → BitVec 21 → Instr) (imm : BitVec 21)
    (h : evenOffset21 imm = true) : buildJ f (encodeJ imm rd op) = f rd imm := by
  rw [buildJ, fieldImmJ_encodeJ _ _ _ h, encodeJ_eq, (fields_encodeU _ _ _).1]

theorem buildI_encodeI (f : RegId → RegId → BitVec 12 → Instr) (imm : BitVec 12) :
    buildI f (encodeI imm rs1 f3 rd op) = f rd rs1 imm := by
  obtain ⟨h1, h2, h3⟩ := fields_encodeI rs1 rd f3 op imm
  rw [buildI, h1, h2, h3]

theorem buildB_encodeB (f : RegId → RegId → BitVec 13 → Instr) (imm : BitVec 13)
    (h : evenOffset13 imm = true) : buildB f (encodeB imm rs2 rs1 f3 op) = f rs1 rs2 imm := by
  rw [buildB, fieldImmB_encodeB _ _ _ _ _ h, encodeB_eq, (fields_encodeR _ _ _ _ _ _).2.1,
    (fields_encodeR _ _ _ _ _ _).2.2.1]

theorem buildS_encodeS (f : RegId → RegId → BitVec 12 → Instr) (imm : BitVec 12) :
    buildS f (encodeS imm rs2 rs1 f3 op) = f rs1 rs2 imm := by
  rw [buildS, fieldImmS_encodeS, encodeS_eq, (fields_encodeR _ _ _ _ _ _).2.1,
    (fields_encodeR _ _ _ _ _ _).2.2.1]

theorem buildR_encodeR (f : RegId → RegId → RegId → Instr) (f7 : BitVec 7) :
    buildR f (encodeR f7 rs2 rs1 f3 rd op) = f rd rs1 rs2 := by
  obtain ⟨h1, h2, h3, _⟩ := fields_encodeR f7 rs2 rs1 rd f3 op
  rw [buildR, h1, h2, h3]

theorem buildAtomic_encodeAtomic (f : RegId → RegId → RegId → BitVec 1 → BitVec 1 → Instr)
    (f5 : BitVec 5) (aq rl : BitVec 1) :
    buildAtomic f (encodeAtomic f5 aq rl rs2 rs1 rd) = f rd rs1 rs2 aq rl := by
  rw [buildAtomic, (fields_encodeAtomic _ _ _ _ _ _).1, (fields_encodeAtomic _ _ _ _ _ _).2,
    encodeAtomic_eq, (fields_encodeR _ _ _ _ _ _).1, (fields_encodeR _ _ _ _ _ _).2.1,
    (fields_encodeR _ _ _ _ _ _).2.2.1]

theorem buildLr_encodeAtomic (f : RegId → RegId → BitVec 1 → BitVec 1 → Instr) (f5 : BitVec 5)
    (aq rl : BitVec 1) : buildLr f (encodeAtomic f5 aq rl rs2 rs1 rd) = f rd rs1 aq rl := by
  rw [buildLr, (fields_encodeAtomic _ _ _ _ _ _).1, (fields_encodeAtomic _ _ _ _ _ _).2,
    encodeAtomic_eq, (fields_encodeR _ _ _ _ _ _).1, (fields_encodeR _ _ _ _ _ _).2.1]

theorem encodeJ_mask (imm : BitVec 21) : encodeJ imm rd op &&& 0x0000007F = encodeU 0 0 op := by
  rw [encodeJ_eq, encodeU_mask]

theorem encodeS_mask (imm : BitVec 12) :
    encodeS imm rs2 rs1 f3 op &&& 0x0000707F = encodeR 0 0 0 f3 0 op := by
  rw [encodeS_eq, encodeR_mask_f3]

theorem encodeB_mask (imm : BitVec 13) :
    encodeB imm rs2 rs1 f3 op &&& 0x0000707F = encodeR 0 0 0 f3 0 op := by
  rw [encodeB_eq, encodeR_mask_f3]

end Build

/-! ### A word is its fields put together again -/

/-- Two adjacent fields of a word are one field. -/
theorem append_fields {a b n k : Nat} {w : Word} (h : k = b + n) :
    (w.extractLsb' k a ++ w.extractLsb' b n : BitVec (a + n)) = w.extractLsb' b (a + n) := by
  subst h
  apply BitVec.eq_of_getLsbD_eq
  intro j hj
  simp only [BitVec.getLsbD_append, BitVec.getLsbD_extractLsb']
  by_cases h1 : j < n
  · simp [h1, hj]
  · simp [h1, hj, show j - n < a by omega, show b + n + (j - n) = b + j by omega]

theorem encodeR_fields (w : Word) :
    encodeR (w.extractLsb' 25 7) (fieldRs2 w) (fieldRs1 w) (w.extractLsb' 12 3) (fieldRd w)
      (w.extractLsb' 0 7) = w := by
  simp only [encodeR, fieldRs2, fieldRs1, fieldRd]
  rw [append_fields (k := 25) (b := 20) (n := 5) rfl, append_fields (k := 20) (b := 15) (n := 5) rfl,
    append_fields (k := 15) (b := 12) (n := 3) rfl, append_fields (k := 12) (b := 7) (n := 5) rfl,
    append_fields (k := 7) (b := 0) (n := 7) rfl]
  exact extract_full w

theorem encodeI_fields (w : Word) :
    encodeI (fieldImmI w) (fieldRs1 w) (w.extractLsb' 12 3) (fieldRd w) (w.extractLsb' 0 7) = w := by
  simp only [encodeI, fieldImmI, fieldRs1, fieldRd]
  rw [append_fields (k := 20) (b := 15) (n := 5) rfl,
    append_fields (k := 15) (b := 12) (n := 3) rfl, append_fields (k := 12) (b := 7) (n := 5) rfl,
    append_fields (k := 7) (b := 0) (n := 7) rfl]
  exact extract_full w

theorem encodeU_fields (w : Word) : encodeU (fieldImmU w) (fieldRd w) (w.extractLsb' 0 7) = w := by
  simp only [encodeU, fieldImmU, fieldRd]
  rw [append_fields (k := 12) (b := 7) (n := 5) rfl, append_fields (k := 7) (b := 0) (n := 7) rfl]
  exact extract_full w

theorem op_encodeR (f7 : BitVec 7) (rs2 rs1 rd : RegId) (f3 : BitVec 3) (op : BitVec 7) :
    (encodeR f7 rs2 rs1 f3 rd op).extractLsb' 0 7 = op ∧
    (encodeR f7 rs2 rs1 f3 rd op).extractLsb' 12 3 = f3 := by
  refine ⟨?_, ?_⟩ <;>
  simp (disch := omega) only [encodeR, extract_append_low, extract_append_high, extract_full,
    Nat.reduceSub, Nat.sub_self]

theorem op_encodeI (imm : BitVec 12) (rs1 rd : RegId) (f3 : BitVec 3) (op : BitVec 7) :
    (encodeI imm rs1 f3 rd op).extractLsb' 0 7 = op ∧
    (encodeI imm rs1 f3 rd op).extractLsb' 12 3 = f3 := by
  refine ⟨?_, ?_⟩ <;>
  simp (disch := omega) only [encodeI, extract_append_low, extract_append_high, extract_full,
    Nat.reduceSub, Nat.sub_self]

theorem op_encodeU (imm : BitVec 20) (rd : RegId) (op : BitVec 7) :
    (encodeU imm rd op).extractLsb' 0 7 = op := by
  simp (disch := omega) only [encodeU, extract_append_low, extract_full]

end Sys2Proof
end

