-- ==== Sys2Proof/Laws/Registers.lean ====
section
/-!
SUPPORT. The register file: what a read gives after a write (10_state R21, R22), and the frame
predicates of Safety on the updates of the machine.
-/

namespace Sys2Proof.Machine

open Sys2Proof.Safety

/-- A write is seen by a read of the same register other than `x[0]`, and by no other read. -/
theorem RegFile.read_write (f : RegFile) (w r : RegId) (v : Word) :
    (f.write w v).read r = if r = w ∧ w ≠ 0 then v else f.read r := by
  unfold RegFile.read RegFile.write
  have hw : w.toNat < 32 := w.isLt
  have hr : r.toNat < 32 := r.isLt
  have hrw : r = w ↔ r.toNat = w.toNat := BitVec.toNat_inj.symm
  have hw0 : w = 0 ↔ w.toNat = 0 := BitVec.toNat_inj.symm
  simp only [ne_eq, hrw, hw0]
  rcases hwn : w.toNat with _ | m
  · simp
  · rcases hrn : r.toNat with _ | k
    · simp
    · have hm : m < 31 := by omega
      have hk : k < 31 := by omega
      by_cases h : k = m
      · subst h; simp [Vector.getD, hk]
      · simp [Vector.getD, hk, h, Ne.symm h]

@[simp] theorem State.readReg_zero (s : State) : s.readReg 0 = 0 := rfl

theorem State.readReg_writeReg (s : State) (w r : RegId) (v : Word) :
    (s.writeReg w v).readReg r = if r = w ∧ w ≠ 0 then v else s.readReg r :=
  RegFile.read_write s.regs w r v

@[simp] theorem State.writeReg_zero (s : State) (v : Word) : s.writeReg 0 v = s := rfl

/-- A register file is its 32 reads. -/
theorem RegFile.ext_read {f g : RegFile} (h : ∀ r, f.read r = g.read r) : f = g := by
  apply Vector.ext
  intro k hk
  have hn : (BitVec.ofNat 5 (k + 1)).toNat = k + 1 := by
    rw [BitVec.toNat_ofNat]; omega
  have := h (BitVec.ofNat 5 (k + 1))
  unfold RegFile.read at this
  rw [hn] at this
  simpa [Vector.getD, hk] using this

theorem regWritten_writeReg (s : State) (rd : RegId) (v : Word) : RegWritten rd v s (s.writeReg rd v) :=
  fun r => State.readReg_writeReg s rd r v

/-- The frame of an instruction that writes a register and retires. -/
theorem onlyRegsAndPc_writeReg (s : State) (rd : RegId) (v p : Word) :
    OnlyRegsAndPc s ((s.writeReg rd v).setPc p) :=
  ⟨rfl, ⟨rfl, rfl, rfl⟩, rfl, rfl, fun _ => rfl, rfl, rfl⟩

/-- The frame of an instruction that only moves `PC`. -/
theorem onlyRegsAndPc_setPc (s : State) (p : Word) : OnlyRegsAndPc s (s.setPc p) :=
  ⟨rfl, ⟨rfl, rfl, rfl⟩, rfl, rfl, fun _ => rfl, rfl, rfl⟩

theorem sameRegs_setPc (s : State) (p : Word) : SameRegs s (s.setPc p) := fun _ => rfl

/-- What `retireReg` answers, once for every computational instruction. -/
theorem State.retireReg_spec (s : State) (rd : RegId) (v : Word) :
    ∃ t, s.retireReg rd v = .next t ∧ t.pc = s.pc + 4 ∧ RegWritten rd v s t ∧ OnlyRegsAndPc s t :=
  ⟨_, rfl, rfl, regWritten_writeReg s rd v, onlyRegsAndPc_writeReg s rd v _⟩

end Sys2Proof.Machine
end

