-- ==== Sys2Proof/Laws/Exec.lean ====
section
/-!
SUPPORT. What an instruction, a step and a call of the host can do, each said once: `exec_next`, `exec_stop`,
`step_next`, `step_fault`. Proofs cite these and unfold neither `exec` nor `step`.
-/

namespace Sys2Proof.Machine

open Sys2Proof.Safety

/-! ### The shared meanings -/

theorem load_next {sz : Size} {ext : Word → Word} {rd rs1 : RegId} {imm : BitVec 12} {s t : State}
    (h : load sz ext rd rs1 imm s = .next t) :
    ∃ v u, s.memRead (s.effectiveAddress rs1 imm) sz = .ok (v, u) ∧
      t = (u.writeReg rd (ext v)).setPc (s.pc + 4) := by
  unfold load at h
  split at h
  · rename_i e _; cases e <;> cases h
  · rename_i v u hm
    cases h
    have hf := (memRead_frame hm).2.2.1
    exact ⟨v, u, hm, by rw [← hf]; rfl⟩

theorem store_next {sz : Size} {rs1 rs2 : RegId} {imm : BitVec 12} {s t : State}
    (h : store sz rs1 rs2 imm s = .next t) :
    ∃ u, s.memWrite (s.effectiveAddress rs1 imm) sz (s.readReg rs2) = .ok u ∧
      t = u.setPc (s.pc + 4) := by
  unfold store at h
  split at h
  · rename_i e _; cases e <;> cases h
  · rename_i u hm
    cases h
    have hf := (memWrite_frame hm).2.2.1
    exact ⟨u, hm, by rw [← hf]; rfl⟩

theorem amo_next {op : Word → Word → Word} {rd rs1 rs2 : RegId} {s t : State}
    (h : amo op rd rs1 rs2 s = .next t) :
    wordAligned (s.readReg rs1) = true ∧
    ∃ v u w, s.memRead (s.readReg rs1) .word = .ok (v, u) ∧
      u.memWrite (s.readReg rs1) .word (op v (s.readReg rs2)) = .ok w ∧
      t = (w.writeReg rd v).setPc (s.pc + 4) := by
  unfold amo at h
  dsimp only at h
  split at h
  · rename_i ha
    split at h
    · rename_i e _; cases e <;> cases h
    · rename_i v u hm
      split at h
      · rename_i e _; cases e <;> cases h
      · rename_i w hw
        cases h
        have hf := (memRead_frame hm).2.2.1
        have hg := (memWrite_frame hw).2.2.1
        exact ⟨ha, v, u, w, hm, hw, by rw [← hf, ← hg]; rfl⟩
  · cases h

theorem execLrW_next {rd rs1 : RegId} {s t : State} (h : execLrW rd rs1 s = .next t) :
    wordAligned (s.readReg rs1) = true ∧
    ∃ v u, s.memRead (s.readReg rs1) .word = .ok (v, u) ∧
      t = (State.writeReg { u with resv := some (s.readReg rs1) } rd v).setPc (s.pc + 4) := by
  unfold execLrW at h
  dsimp only at h
  split at h
  · rename_i ha
    split at h
    · rename_i e _; cases e <;> cases h
    · rename_i v u hm
      cases h
      have hf := (memRead_frame hm).2.2.1
      exact ⟨ha, v, u, hm, by rw [← hf]; rfl⟩
  · cases h

theorem execScW_next {rd rs1 rs2 : RegId} {s t : State} (h : execScW rd rs1 rs2 s = .next t) :
    (s.resv = some (s.readReg rs1) ∧
      ∃ u, s.memWrite (s.readReg rs1) .word (s.readReg rs2) = .ok u ∧
        t = (u.dropReservation.writeReg rd 0).setPc (s.pc + 4)) ∨
    (s.resv ≠ some (s.readReg rs1) ∧ t = (s.dropReservation.writeReg rd 1).setPc (s.pc + 4)) := by
  unfold execScW at h
  dsimp only at h
  split at h
  · rename_i hr
    split at h
    · rename_i e _; cases e <;> cases h
    · rename_i u hm
      cases h
      have hf := (memWrite_frame hm).2.2.1
      exact .inl ⟨hr, u, hm, by rw [← hf]; rfl⟩
  · rename_i hr
    cases h
    exact .inr ⟨hr, rfl⟩

theorem csrAccess_next {new : Word → Word → Word} {rd : RegId} {n : CsrNumber} {src : Word} {s t : State}
    (h : csrAccess new rd n src s = .next t) :
    ∃ c, Csr.ofNumber n = some c ∧
      t = ((s.writeReg rd (s.readCsr c)).writeCsr c (new (s.readCsr c) src)).setPc (s.pc + 4) := by
  unfold csrAccess at h
  split at h
  · cases h
  · rename_i c hc
    cases h
    exact ⟨c, hc, rfl⟩

theorem branch_next {cond : Word → Word → Bool} {rs1 rs2 : RegId} {imm : BitVec 13} {s t : State}
    (h : branch cond rs1 rs2 imm s = .next t) : ∃ p, t = s.setPc p := by
  unfold branch at h
  split at h <;> cases h <;> exact ⟨_, rfl⟩

/-! ### Every instruction -/

/-- Everything a completed instruction can have done. -/
inductive Effect (i : Instr) (s t : State) : Prop
  /-- A register (or, with `x0`, none) and `PC`. -/
  | plain (rd : RegId) (v p : Word) (bus : usesBus i = false) (csr : isZicsr i = false)
      (mret : i ≠ .mret) (ebreak : i ≠ .ebreak) (wfi : i ≠ .wfi)
      (eq : t = (s.writeReg rd v).setPc p)
  | load (sz : Size) (a : Word) (u : State) (rd : RegId) (v w : Word) (kind : isLoad i = true)
      (read : s.memRead a sz = .ok (v, u)) (eq : t = (u.writeReg rd w).setPc (s.pc + 4))
  | store (sz : Size) (a : Word) (u : State) (v : Word) (kind : isStore i = true)
      (write : s.memWrite a sz v = .ok u) (eq : t = u.setPc (s.pc + 4))
  | reserve (rd rs1 : RegId) (aq rl : BitVec 1) (v : Word) (u : State)
      (kind : i = .lrW rd rs1 aq rl) (aligned : wordAligned (s.readReg rs1) = true)
      (read : s.memRead (s.readReg rs1) .word = .ok (v, u))
      (eq : t = (State.writeReg { u with resv := some (s.readReg rs1) } rd v).setPc (s.pc + 4))
  | conditional (rd rs1 rs2 : RegId) (aq rl : BitVec 1) (u : State)
      (kind : i = .scW rd rs1 rs2 aq rl) (held : s.resv = some (s.readReg rs1))
      (write : s.memWrite (s.readReg rs1) .word (s.readReg rs2) = .ok u)
      (eq : t = (u.dropReservation.writeReg rd 0).setPc (s.pc + 4))
  | failed (rd rs1 rs2 : RegId) (aq rl : BitVec 1)
      (kind : i = .scW rd rs1 rs2 aq rl) (held : s.resv ≠ some (s.readReg rs1))
      (eq : t = (s.dropReservation.writeReg rd 1).setPc (s.pc + 4))
  | amo (rd rs1 : RegId) (v w : Word) (u x : State) (kind : isAmo i = true)
      (aligned : wordAligned (s.readReg rs1) = true)
      (read : s.memRead (s.readReg rs1) .word = .ok (v, u))
      (write : u.memWrite (s.readReg rs1) .word w = .ok x)
      (eq : t = (x.writeReg rd v).setPc (s.pc + 4))
  | csr (rd : RegId) (n : CsrNumber) (c : Csr) (v : Word) (kind : isZicsr i = true)
      (number : Csr.ofNumber n = some c)
      (eq : t = ((s.writeReg rd (s.readCsr c)).writeCsr c v).setPc (s.pc + 4))
  | syscall (kind : i = .ecall)
      (eq : t = (s.notify (.syscall (s.readReg 17) s.syscallArgs)).setPc (s.pc + 4))
  | breakpoint (kind : i = .ebreak)
      (eq : t = State.setPc { s.notify (.breakpoint s.pc) with halted := s.halted || s.haltOnEbreak }
        (s.pc + 4))
  | wait (kind : i = .wfi) (eq : t = State.setPc { s with waiting := true } (s.pc + 4))
  | trapReturn (kind : i = .mret) (eq : t = s.trapReturn)

theorem Effect.ofReg {i : Instr} {s t : State} {rd : RegId} {v : Word}
    (h : s.retireReg rd v = .next t) (hb : usesBus i = false) (hz : isZicsr i = false)
    (hm : i ≠ .mret) (he : i ≠ .ebreak) (hw : i ≠ .wfi) : Effect i s t := by
  cases h; exact .plain rd v _ hb hz hm he hw rfl

theorem Effect.ofJump {i : Instr} {s t : State} {rd : RegId} {v : Word}
    (h : jumpAndLink rd v s = .next t) (hb : usesBus i = false) (hz : isZicsr i = false)
    (hm : i ≠ .mret) (he : i ≠ .ebreak) (hw : i ≠ .wfi) : Effect i s t := by
  cases h; exact .plain rd _ _ hb hz hm he hw rfl

theorem Effect.ofBranch {i : Instr} {s t : State} {cond : Word → Word → Bool} {rs1 rs2 : RegId}
    {imm : BitVec 13} (h : branch cond rs1 rs2 imm s = .next t) (hb : usesBus i = false)
    (hz : isZicsr i = false) (hm : i ≠ .mret) (he : i ≠ .ebreak) (hw : i ≠ .wfi) : Effect i s t := by
  obtain ⟨p, rfl⟩ := branch_next h
  exact .plain 0 0 p hb hz hm he hw rfl

theorem Effect.ofLoad {i : Instr} {s t : State} {sz : Size} {ext : Word → Word} {rd rs1 : RegId}
    {imm : BitVec 12} (h : Machine.load sz ext rd rs1 imm s = .next t) (hk : isLoad i = true) :
    Effect i s t := by
  obtain ⟨v, u, hm, rfl⟩ := load_next h
  exact .load sz _ u rd v _ hk hm rfl

theorem Effect.ofStore {i : Instr} {s t : State} {sz : Size} {rs1 rs2 : RegId}
    {imm : BitVec 12} (h : Machine.store sz rs1 rs2 imm s = .next t) (hk : isStore i = true) :
    Effect i s t := by
  obtain ⟨u, hm, rfl⟩ := store_next h
  exact .store sz _ u _ hk hm rfl

theorem Effect.ofAmo {i : Instr} {s t : State} {op : Word → Word → Word} {rd rs1 rs2 : RegId}
    (h : Machine.amo op rd rs1 rs2 s = .next t) (hk : isAmo i = true) : Effect i s t := by
  obtain ⟨ha, v, u, w, hr, hw, rfl⟩ := amo_next h
  exact .amo rd rs1 v _ u w hk ha hr hw rfl

theorem Effect.ofCsr {i : Instr} {s t : State} {new : Word → Word → Word} {rd : RegId}
    {n : CsrNumber} {src : Word} (h : csrAccess new rd n src s = .next t) (hk : isZicsr i = true) :
    Effect i s t := by
  obtain ⟨c, hc, rfl⟩ := csrAccess_next h
  exact .csr rd n c _ hk hc rfl

/-- Everything an instruction that completes can have done. -/
theorem exec_next {i : Instr} {s t : State} (h : exec i s = .next t) : Effect i s t := by
  cases i with
  | lui | auipc | addi | slti | sltiu | xori | ori | andi | slli | srli | srai | add | sub | sll | slt
  | sltu | xor | srl | sra | or | and | mul | mulh | mulhsu | mulhu | div | divu | rem | remu =>
    exact .ofReg h rfl rfl nofun nofun nofun
  | jal | jalr => exact .ofJump h rfl rfl nofun nofun nofun
  | beq | bne | blt | bge | bltu | bgeu =>
    simp only [exec, execBeq, execBne, execBlt, execBge, execBltu, execBgeu] at h
    exact .ofBranch h rfl rfl nofun nofun nofun
  | lb | lh | lw | lbu | lhu =>
    simp only [exec, execLb, execLh, execLw, execLbu, execLhu] at h
    exact .ofLoad h rfl
  | sb | sh | sw =>
    simp only [exec, execSb, execSh, execSw] at h
    exact .ofStore h rfl
  | lrW rd rs1 aq rl =>
    obtain ⟨ha, v, u, hm, rfl⟩ := execLrW_next h
    exact .reserve rd rs1 aq rl v u rfl ha hm rfl
  | scW rd rs1 rs2 aq rl =>
    rcases execScW_next h with ⟨hr, u, hm, rfl⟩ | ⟨hr, rfl⟩
    · exact .conditional rd rs1 rs2 aq rl u rfl hr hm rfl
    · exact .failed rd rs1 rs2 aq rl rfl hr rfl
  | amoswapW | amoaddW | amoxorW | amoandW | amoorW | amominW | amomaxW | amominuW | amomaxuW =>
    simp only [exec, execAmoswapW, execAmoaddW, execAmoxorW, execAmoandW, execAmoorW, execAmominW,
      execAmomaxW, execAmominuW, execAmomaxuW] at h
    exact .ofAmo h rfl
  | csrrw | csrrs | csrrc | csrrwi | csrrsi | csrrci =>
    simp only [exec, execCsrrw, execCsrrs, execCsrrc, execCsrrwi, execCsrrsi, execCsrrci] at h
    exact .ofCsr h rfl
  | ecall => cases h; exact .syscall rfl rfl
  | ebreak => cases h; exact .breakpoint rfl rfl
  | wfi => cases h; exact .wait rfl rfl
  | mret => cases h; exact .trapReturn rfl rfl

/-! ### The step -/

/-- The step's trap condition, bit by bit (R260). -/
theorem trapPending_iff (s : State) : s.trapPending = true ↔
    s.csrs.mstatus.getLsbD 3 = true ∧ s.csrs.mie.getLsbD 11 = true ∧ s.csrs.mip.getLsbD 11 = true := by
  simp [State.trapPending, State.mieFlag, State.meieFlag, State.meipFlag, bitMIE, bitExternal, and_assoc]

theorem step_halted {s : State} (h : s.halted = true) : step s = .next s := by simp [step, h]

theorem step_trap {s : State} (h : s.halted = false) (ht : s.trapPending = true) :
    step s = .next s.takeTrap := by simp [step, h, ht]

theorem step_waiting {s : State} (h : s.waiting = true) (ht : s.trapPending = false) :
    step s = .next s := by simp [step, h, ht]

theorem step_running {s : State} (h : Running s) : step s = runInstruction s := by
  have ht : s.trapPending = false := by
    rw [← Bool.not_eq_true, trapPending_iff]; exact h.noTrap
  simp [step, h.notHalted, h.notWaiting, ht]

/-- A step is idle, takes the trap, or runs one instruction (R130). -/
theorem step_cases (s : State) :
    (s.halted = true ∧ step s = .next s) ∨
    (s.halted = false ∧ s.trapPending = true ∧ step s = .next s.takeTrap) ∨
    (s.waiting = true ∧ s.halted = false ∧ s.trapPending = false ∧ step s = .next s) ∨
    (Running s ∧ step s = runInstruction s) := by
  cases hh : s.halted with
  | true => exact .inl ⟨rfl, step_halted hh⟩
  | false =>
    cases ht : s.trapPending with
    | true => exact .inr (.inl ⟨rfl, rfl, step_trap hh ht⟩)
    | false =>
      cases hw : s.waiting with
      | true => exact .inr (.inr (.inl ⟨rfl, rfl, rfl, step_waiting hw ht⟩))
      | false =>
        have hr : Running s := ⟨hh, by rw [← trapPending_iff, ht]; simp, hw⟩
        exact .inr (.inr (.inr ⟨hr, step_running hr⟩))

/-- What running one instruction can be: the fetch fails, or it gives a word that decodes, or one that
does not (R134, R239). -/
theorem runInstruction_cases (s : State) :
    (∃ e, s.memRead s.pc .word = .error e ∧ runInstruction s = e.result s.pc) ∨
    (∃ w u i, s.memRead s.pc .word = .ok (w, u) ∧ decodeWord w = .ok i ∧ runInstruction s = exec i u) ∨
    (∃ w u, s.memRead s.pc .word = .ok (w, u) ∧ (∀ i, decodeWord w ≠ .ok i) ∧
      runInstruction s = .next ((u.notify (.diagnostic s.pc w)).setPc (s.pc + 4))) := by
  unfold runInstruction State.fetch
  cases hm : s.memRead s.pc .word with
  | error e => exact .inl ⟨e, rfl, rfl⟩
  | ok r =>
    obtain ⟨w, u⟩ := r
    dsimp only
    cases hd : decodeWord w with
    | ok i => exact .inr (.inl ⟨w, u, i, rfl, hd, rfl⟩)
    | error e =>
      refine .inr (.inr ⟨w, u, rfl, fun i hi => by simp [hd] at hi, ?_⟩)
      have hf := (memRead_frame hm).2.2.1
      rw [← hf]; rfl

/-- Everything a step that answers a state can have done. -/
theorem step_next {s t : State} (h : step s = .next t) :
    (s.halted = true ∧ t = s) ∨
    (s.halted = false ∧ s.trapPending = true ∧ t = s.takeTrap) ∨
    (s.waiting = true ∧ s.halted = false ∧ s.trapPending = false ∧ t = s) ∨
    (Running s ∧ ∃ w u, s.memRead s.pc .word = .ok (w, u) ∧
      ((∃ i, decodeWord w = .ok i ∧ exec i u = .next t) ∨
       ((∀ i, decodeWord w ≠ .ok i) ∧ t = (u.notify (.diagnostic s.pc w)).setPc (s.pc + 4)))) := by
  rcases step_cases s with ⟨h1, h2⟩ | ⟨h1, h2, h3⟩ | ⟨h1, h2, h3, h4⟩ | ⟨h1, h2⟩
  · rw [h] at h2; cases h2; exact .inl ⟨h1, rfl⟩
  · rw [h] at h3; cases h3; exact .inr (.inl ⟨h1, h2, rfl⟩)
  · rw [h] at h4; cases h4; exact .inr (.inr (.inl ⟨h1, h2, h3, rfl⟩))
  · refine .inr (.inr (.inr ⟨h1, ?_⟩))
    rw [h2] at h
    rcases runInstruction_cases s with ⟨e, _, he⟩ | ⟨w, u, i, hm, hd, he⟩ | ⟨w, u, hm, hd, he⟩
    · rw [h] at he; cases e <;> cases he
    · exact ⟨w, u, hm, .inl ⟨i, hd, he ▸ h⟩⟩
    · rw [h] at he; cases he; exact ⟨w, u, hm, .inr ⟨hd, rfl⟩⟩

/-! ### Calls of the host -/

theorem enqueue_next {s t : State} {k : Nat} {c : Byte} (h : s.enqueue k c = .next t) :
    k < s.io.length ∧
    t = (s.setIoState k { s.ioState k with inFifo := (s.ioState k).inFifo ++ [c] }).signalIrq
      .request := by
  unfold State.enqueue at h
  split at h
  · cases h
    exact ⟨‹_›, rfl⟩
  · cases h

/-- What every call keeps, a run keeps. -/
theorem runCalls_induct {P : State → Prop}
    (hP : ∀ s t c, applyCall s c = .next t → P s → P t) (calls : List HostCall) (s t : State)
    (hs : P s) (h : runCalls calls s = .next t) : P t := by
  induction calls generalizing s with
  | nil => cases h; exact hs
  | cons c calls ih =>
    simp only [runCalls] at h
    split at h
    · exact ih _ (hP _ _ _ ‹_› hs) h
    · cases h
    · cases h

end Sys2Proof.Machine
end

