-- ==== Sys2Proof/Laws/Operands.lean ====
section
/-!
SUPPORT. The operand forms and the shared computations as arithmetic on the numbers a pattern stands for
(00_scope R9, R10): each lemma gives a function of Operands, Flags, Integer or Atomic as the 32-bit pattern
of an integer.
-/

namespace Sys2Proof.Machine

open Sys2Proof.Safety

/-! ### Immediates and extensions -/

theorem immISValue_toInt (imm : BitVec 12) : (immISValue imm).toInt = imm.toInt := by
  rw [immISValue, BitVec.toInt_signExtend_of_le (by omega)]

theorem immUValue_eq (imm : BitVec 20) : immUValue imm = BitVec.ofNat 32 (imm.toNat * 4096) := by
  apply BitVec.eq_of_toNat_eq
  rw [immUValue, BitVec.toNat_append, BitVec.toNat_ofNat, Nat.shiftLeft_eq]
  have := imm.isLt
  simp
  omega

theorem sext8_eq_ofInt (v : Word) :
    sext8 v = BitVec.ofInt 32
      (if v.toNat % 256 < 128 then ((v.toNat % 256 : Nat) : Int) else ((v.toNat % 256 : Nat) : Int) - 256) := by
  unfold sext8
  apply BitVec.eq_of_toInt_eq
  rw [BitVec.toInt_signExtend_of_le (by omega), BitVec.toInt_ofInt, BitVec.toInt_eq_toNat_cond,
    BitVec.extractLsb'_toNat, show v.toNat >>> 0 % 2 ^ 8 = v.toNat % 256 by simp]
  have hlt : v.toNat % 256 < 256 := Nat.mod_lt _ (by norm_num)
  generalize v.toNat % 256 = n at *
  rw [Int.bmod_eq_of_le (by norm_num; split <;> omega) (by norm_num; split <;> omega)]
  norm_num
  split <;> split <;> omega

theorem sext16_eq_ofInt (v : Word) :
    sext16 v = BitVec.ofInt 32
      (if v.toNat % 65536 < 32768 then ((v.toNat % 65536 : Nat) : Int) else ((v.toNat % 65536 : Nat) : Int) - 65536) := by
  unfold sext16
  apply BitVec.eq_of_toInt_eq
  rw [BitVec.toInt_signExtend_of_le (by omega), BitVec.toInt_ofInt, BitVec.toInt_eq_toNat_cond,
    BitVec.extractLsb'_toNat, show v.toNat >>> 0 % 2 ^ 16 = v.toNat % 65536 by simp]
  have hlt : v.toNat % 65536 < 65536 := Nat.mod_lt _ (by norm_num)
  generalize v.toNat % 65536 = n at *
  rw [Int.bmod_eq_of_le (by norm_num; split <;> omega) (by norm_num; split <;> omega)]
  norm_num
  split <;> split <;> omega

theorem zext8_eq_ofNat (v : Word) : zext8 v = BitVec.ofNat 32 (v.toNat % 256) := by
  apply BitVec.eq_of_toNat_eq
  simp [zext8]

theorem zext16_eq_ofNat (v : Word) : zext16 v = BitVec.ofNat 32 (v.toNat % 65536) := by
  apply BitVec.eq_of_toNat_eq
  simp [zext16]

/-! ### Comparisons and shifts -/

theorem flagWord_signedLess (a b : Word) :
    flagWord (signedLess a b) = if a.toInt < b.toInt then 1 else 0 := by
  simp [flagWord, signedLess]

theorem flagWord_unsignedLess (a b : Word) :
    flagWord (unsignedLess a b) = if a.toNat < b.toNat then 1 else 0 := by
  simp [flagWord, unsignedLess]

theorem shiftAmount_eq (b : Word) : shiftAmount b = b.toNat % 32 := by simp [shiftAmount]

theorem shiftLeft_eq (a : Word) (n : Nat) : shiftLeft a n = BitVec.ofNat 32 (a.toNat * 2 ^ n) := by
  apply BitVec.eq_of_toNat_eq
  simp [shiftLeft, Nat.shiftLeft_eq]

theorem shiftRightLogical_eq (a : Word) (n : Nat) :
    shiftRightLogical a n = BitVec.ofNat 32 (a.toNat / 2 ^ n) := by
  apply BitVec.eq_of_toNat_eq
  rw [shiftRightLogical, BitVec.toNat_ushiftRight, BitVec.toNat_ofNat, Nat.shiftRight_eq_div_pow,
    Nat.mod_eq_of_lt (Nat.lt_of_le_of_lt (Nat.div_le_self _ _) a.isLt)]

theorem shiftRightArithmetic_eq (a : Word) (n : Nat) :
    shiftRightArithmetic a n = BitVec.ofInt 32 (a.toInt / 2 ^ n) := by
  have h := BitVec.ofInt_toInt (x := shiftRightArithmetic a n)
  rw [← h, shiftRightArithmetic, BitVec.toInt_sshiftRight, Int.shiftRight_eq_div_pow]
  norm_cast

/-! ### Alignment -/

theorem wordAligned_iff (a : Word) : wordAligned a = true ↔ a.toNat % 4 = 0 := by
  unfold wordAligned
  rw [beq_iff_eq, ← BitVec.toNat_inj]
  simp

theorem alignDown4_toNat (v : Word) : (alignDown4 v).toNat = v.toNat / 4 * 4 := by
  have hm : ∀ i < 32, (0xFFFFFFFC : Word).getLsbD i = decide (2 ≤ i) := by decide
  have h : alignDown4 v = (v >>> 2) <<< 2 := by
    apply BitVec.eq_of_getLsbD_eq
    intro i hi
    simp only [alignDown4, BitVec.getLsbD_and, hm i hi, BitVec.getLsbD_shiftLeft,
      BitVec.getLsbD_ushiftRight]
    by_cases h2 : 2 ≤ i
    · simp [h2, hi, show ¬ i < 2 by omega]
    · simp [h2]
      omega
  rw [h, BitVec.toNat_shiftLeft, BitVec.toNat_ushiftRight, Nat.shiftRight_eq_div_pow,
    Nat.shiftLeft_eq, Nat.mod_eq_of_lt]
  have := v.isLt
  omega

/-! ### Numbers of bytes -/

theorem ramNumber_lt (s : State) (a : Word) (n : Nat) : ramNumber s a n < 256 ^ n := by
  unfold ramNumber
  induction n with
  | zero => simp
  | succ n ih =>
    rw [List.range_succ, List.map_append, List.sum_append]
    simp only [List.map_cons, List.map_nil, List.sum_cons, List.sum_nil, Nat.add_zero]
    have h := (Memory.readByte s.ram (ramOffset s.cfg a + n)).isLt
    have := Nat.mul_le_mul_right (256 ^ n)
      (show (Memory.readByte s.ram (ramOffset s.cfg a + n)).toNat ≤ 255 by omega)
    rw [Nat.pow_succ]
    omega

/-- A number is the sum of its bytes. -/
theorem sum_bytes (n m : Nat) :
    ((List.range m).map fun k => n / 256 ^ k % 256 * 256 ^ k).sum = n % 256 ^ m := by
  induction m with
  | zero => simp [Nat.mod_one]
  | succ m ih =>
    rw [List.range_succ, List.map_append, List.sum_append, ih]
    simp only [List.map_cons, List.map_nil, List.sum_cons, List.sum_nil, Nat.add_zero]
    rw [Nat.pow_succ, Nat.mod_mul, Nat.mul_comm (256 ^ m)]

end Sys2Proof.Machine
end

