-- ==== Sys2Proof/Laws/PerInstr.lean ====
section
/-!
SUPPORT. The law `Encoding`, for each instruction: the word the encoder builds matches the instruction's
row of the opcode table, and the row's fields of that word give the instruction back (30_encoding R112,
R114).
-/

namespace Sys2Proof.Laws.Encoding

def Statement (i : Instr) : Prop :=
  i.wf = true → ∃ r ∈ opcodeTable, r.matchesWord (encode i) = true ∧ r.build (encode i) = i

/-- From a row at a place of the table. -/
theorem of_row {i : Instr} (k : Nat) (r : OpcodeRow) (hk : opcodeTable[k]? = some r) {v : Word}
    (hm : encode i &&& r.mask = v) (hv : v = r.pattern) (hb : r.build (encode i) = i) :
    ∃ r ∈ opcodeTable, r.matchesWord (encode i) = true ∧ r.build (encode i) = i :=
  ⟨r, List.mem_of_getElem? hk, matchesWord_of (hm.trans hv), hb⟩

theorem lui (rd : RegId) (imm : BitVec 20) : Statement (.lui rd imm) := fun _ =>
  of_row 0 ⟨"LUI", 0x0000007F, 0x00000037, buildU .lui⟩ rfl
    (encodeU_mask rd 0b0110111#7 imm) (by decide)
    (buildU_encodeU rd 0b0110111#7 .lui imm)
theorem auipc (rd : RegId) (imm : BitVec 20) : Statement (.auipc rd imm) := fun _ =>
  of_row 1 ⟨"AUIPC", 0x0000007F, 0x00000017, buildU .auipc⟩ rfl
    (encodeU_mask rd 0b0010111#7 imm) (by decide)
    (buildU_encodeU rd 0b0010111#7 .auipc imm)
theorem jal (rd : RegId) (imm : BitVec 21) : Statement (.jal rd imm) := fun h =>
  of_row 2 ⟨"JAL", 0x0000007F, 0x0000006F, buildJ .jal⟩ rfl
    (encodeJ_mask rd 0b1101111#7 imm) (by decide)
    (buildJ_encodeJ rd 0b1101111#7 .jal imm h)
theorem jalr (rd rs1 : RegId) (imm : BitVec 12) : Statement (.jalr rd rs1 imm) := fun _ =>
  of_row 3 ⟨"JALR", 0x0000707F, 0x00000067, buildI .jalr⟩ rfl
    (encodeI_mask rs1 rd 0b000#3 0b1100111#7 imm) (by decide)
    (buildI_encodeI rd rs1 0b000#3 0b1100111#7 .jalr imm)
theorem beq (rs1 rs2 : RegId) (imm : BitVec 13) : Statement (.beq rs1 rs2 imm) := fun h =>
  of_row 4 ⟨"BEQ", 0x0000707F, 0x00000063, buildB .beq⟩ rfl
    (encodeB_mask rs1 rs2 0b000#3 0b1100011#7 imm) (by decide)
    (buildB_encodeB rs1 rs2 0b000#3 0b1100011#7 .beq imm h)
theorem bne (rs1 rs2 : RegId) (imm : BitVec 13) : Statement (.bne rs1 rs2 imm) := fun h =>
  of_row 5 ⟨"BNE", 0x0000707F, 0x00001063, buildB .bne⟩ rfl
    (encodeB_mask rs1 rs2 0b001#3 0b1100011#7 imm) (by decide)
    (buildB_encodeB rs1 rs2 0b001#3 0b1100011#7 .bne imm h)
theorem blt (rs1 rs2 : RegId) (imm : BitVec 13) : Statement (.blt rs1 rs2 imm) := fun h =>
  of_row 6 ⟨"BLT", 0x0000707F, 0x00004063, buildB .blt⟩ rfl
    (encodeB_mask rs1 rs2 0b100#3 0b1100011#7 imm) (by decide)
    (buildB_encodeB rs1 rs2 0b100#3 0b1100011#7 .blt imm h)
theorem bge (rs1 rs2 : RegId) (imm : BitVec 13) : Statement (.bge rs1 rs2 imm) := fun h =>
  of_row 7 ⟨"BGE", 0x0000707F, 0x00005063, buildB .bge⟩ rfl
    (encodeB_mask rs1 rs2 0b101#3 0b1100011#7 imm) (by decide)
    (buildB_encodeB rs1 rs2 0b101#3 0b1100011#7 .bge imm h)
theorem bltu (rs1 rs2 : RegId) (imm : BitVec 13) : Statement (.bltu rs1 rs2 imm) := fun h =>
  of_row 8 ⟨"BLTU", 0x0000707F, 0x00006063, buildB .bltu⟩ rfl
    (encodeB_mask rs1 rs2 0b110#3 0b1100011#7 imm) (by decide)
    (buildB_encodeB rs1 rs2 0b110#3 0b1100011#7 .bltu imm h)
theorem bgeu (rs1 rs2 : RegId) (imm : BitVec 13) : Statement (.bgeu rs1 rs2 imm) := fun h =>
  of_row 9 ⟨"BGEU", 0x0000707F, 0x00007063, buildB .bgeu⟩ rfl
    (encodeB_mask rs1 rs2 0b111#3 0b1100011#7 imm) (by decide)
    (buildB_encodeB rs1 rs2 0b111#3 0b1100011#7 .bgeu imm h)
theorem lb (rd rs1 : RegId) (imm : BitVec 12) : Statement (.lb rd rs1 imm) := fun _ =>
  of_row 10 ⟨"LB", 0x0000707F, 0x00000003, buildI .lb⟩ rfl
    (encodeI_mask rs1 rd 0b000#3 0b0000011#7 imm) (by decide)
    (buildI_encodeI rd rs1 0b000#3 0b0000011#7 .lb imm)
theorem lh (rd rs1 : RegId) (imm : BitVec 12) : Statement (.lh rd rs1 imm) := fun _ =>
  of_row 11 ⟨"LH", 0x0000707F, 0x00001003, buildI .lh⟩ rfl
    (encodeI_mask rs1 rd 0b001#3 0b0000011#7 imm) (by decide)
    (buildI_encodeI rd rs1 0b001#3 0b0000011#7 .lh imm)
theorem lw (rd rs1 : RegId) (imm : BitVec 12) : Statement (.lw rd rs1 imm) := fun _ =>
  of_row 12 ⟨"LW", 0x0000707F, 0x00002003, buildI .lw⟩ rfl
    (encodeI_mask rs1 rd 0b010#3 0b0000011#7 imm) (by decide)
    (buildI_encodeI rd rs1 0b010#3 0b0000011#7 .lw imm)
theorem lbu (rd rs1 : RegId) (imm : BitVec 12) : Statement (.lbu rd rs1 imm) := fun _ =>
  of_row 13 ⟨"LBU", 0x0000707F, 0x00004003, buildI .lbu⟩ rfl
    (encodeI_mask rs1 rd 0b100#3 0b0000011#7 imm) (by decide)
    (buildI_encodeI rd rs1 0b100#3 0b0000011#7 .lbu imm)
theorem lhu (rd rs1 : RegId) (imm : BitVec 12) : Statement (.lhu rd rs1 imm) := fun _ =>
  of_row 14 ⟨"LHU", 0x0000707F, 0x00005003, buildI .lhu⟩ rfl
    (encodeI_mask rs1 rd 0b101#3 0b0000011#7 imm) (by decide)
    (buildI_encodeI rd rs1 0b101#3 0b0000011#7 .lhu imm)
theorem sb (rs1 rs2 : RegId) (imm : BitVec 12) : Statement (.sb rs1 rs2 imm) := fun _ =>
  of_row 15 ⟨"SB", 0x0000707F, 0x00000023, buildS .sb⟩ rfl
    (encodeS_mask rs1 rs2 0b000#3 0b0100011#7 imm) (by decide)
    (buildS_encodeS rs1 rs2 0b000#3 0b0100011#7 .sb imm)
theorem sh (rs1 rs2 : RegId) (imm : BitVec 12) : Statement (.sh rs1 rs2 imm) := fun _ =>
  of_row 16 ⟨"SH", 0x0000707F, 0x00001023, buildS .sh⟩ rfl
    (encodeS_mask rs1 rs2 0b001#3 0b0100011#7 imm) (by decide)
    (buildS_encodeS rs1 rs2 0b001#3 0b0100011#7 .sh imm)
theorem sw (rs1 rs2 : RegId) (imm : BitVec 12) : Statement (.sw rs1 rs2 imm) := fun _ =>
  of_row 17 ⟨"SW", 0x0000707F, 0x00002023, buildS .sw⟩ rfl
    (encodeS_mask rs1 rs2 0b010#3 0b0100011#7 imm) (by decide)
    (buildS_encodeS rs1 rs2 0b010#3 0b0100011#7 .sw imm)
theorem addi (rd rs1 : RegId) (imm : BitVec 12) : Statement (.addi rd rs1 imm) := fun _ =>
  of_row 18 ⟨"ADDI", 0x0000707F, 0x00000013, buildI .addi⟩ rfl
    (encodeI_mask rs1 rd 0b000#3 0b0010011#7 imm) (by decide)
    (buildI_encodeI rd rs1 0b000#3 0b0010011#7 .addi imm)
theorem slti (rd rs1 : RegId) (imm : BitVec 12) : Statement (.slti rd rs1 imm) := fun _ =>
  of_row 19 ⟨"SLTI", 0x0000707F, 0x00002013, buildI .slti⟩ rfl
    (encodeI_mask rs1 rd 0b010#3 0b0010011#7 imm) (by decide)
    (buildI_encodeI rd rs1 0b010#3 0b0010011#7 .slti imm)
theorem sltiu (rd rs1 : RegId) (imm : BitVec 12) : Statement (.sltiu rd rs1 imm) := fun _ =>
  of_row 20 ⟨"SLTIU", 0x0000707F, 0x00003013, buildI .sltiu⟩ rfl
    (encodeI_mask rs1 rd 0b011#3 0b0010011#7 imm) (by decide)
    (buildI_encodeI rd rs1 0b011#3 0b0010011#7 .sltiu imm)
theorem xori (rd rs1 : RegId) (imm : BitVec 12) : Statement (.xori rd rs1 imm) := fun _ =>
  of_row 21 ⟨"XORI", 0x0000707F, 0x00004013, buildI .xori⟩ rfl
    (encodeI_mask rs1 rd 0b100#3 0b0010011#7 imm) (by decide)
    (buildI_encodeI rd rs1 0b100#3 0b0010011#7 .xori imm)
theorem ori (rd rs1 : RegId) (imm : BitVec 12) : Statement (.ori rd rs1 imm) := fun _ =>
  of_row 22 ⟨"ORI", 0x0000707F, 0x00006013, buildI .ori⟩ rfl
    (encodeI_mask rs1 rd 0b110#3 0b0010011#7 imm) (by decide)
    (buildI_encodeI rd rs1 0b110#3 0b0010011#7 .ori imm)
theorem andi (rd rs1 : RegId) (imm : BitVec 12) : Statement (.andi rd rs1 imm) := fun _ =>
  of_row 23 ⟨"ANDI", 0x0000707F, 0x00007013, buildI .andi⟩ rfl
    (encodeI_mask rs1 rd 0b111#3 0b0010011#7 imm) (by decide)
    (buildI_encodeI rd rs1 0b111#3 0b0010011#7 .andi imm)
theorem slli (rd rs1 : RegId) (shamt : BitVec 5) : Statement (.slli rd rs1 shamt) := fun _ =>
  of_row 24 ⟨"SLLI", 0xFE00707F, 0x00001013, buildShift .slli⟩ rfl
    (encodeR_mask 0b0000000#7 shamt rs1 rd 0b001#3 0b0010011#7) (by decide)
    (buildR_encodeR rd rs1 shamt 0b001#3 0b0010011#7 .slli 0b0000000#7)
theorem srli (rd rs1 : RegId) (shamt : BitVec 5) : Statement (.srli rd rs1 shamt) := fun _ =>
  of_row 25 ⟨"SRLI", 0xFE00707F, 0x00005013, buildShift .srli⟩ rfl
    (encodeR_mask 0b0000000#7 shamt rs1 rd 0b101#3 0b0010011#7) (by decide)
    (buildR_encodeR rd rs1 shamt 0b101#3 0b0010011#7 .srli 0b0000000#7)
theorem srai (rd rs1 : RegId) (shamt : BitVec 5) : Statement (.srai rd rs1 shamt) := fun _ =>
  of_row 26 ⟨"SRAI", 0xFE00707F, 0x40005013, buildShift .srai⟩ rfl
    (encodeR_mask 0b0100000#7 shamt rs1 rd 0b101#3 0b0010011#7) (by decide)
    (buildR_encodeR rd rs1 shamt 0b101#3 0b0010011#7 .srai 0b0100000#7)
theorem add (rd rs1 rs2 : RegId) : Statement (.add rd rs1 rs2) := fun _ =>
  of_row 27 ⟨"ADD", 0xFE00707F, 0x00000033, buildR .add⟩ rfl
    (encodeR_mask 0b0000000#7 rs2 rs1 rd 0b000#3 0b0110011#7) (by decide)
    (buildR_encodeR rd rs1 rs2 0b000#3 0b0110011#7 .add 0b0000000#7)
theorem sub (rd rs1 rs2 : RegId) : Statement (.sub rd rs1 rs2) := fun _ =>
  of_row 28 ⟨"SUB", 0xFE00707F, 0x40000033, buildR .sub⟩ rfl
    (encodeR_mask 0b0100000#7 rs2 rs1 rd 0b000#3 0b0110011#7) (by decide)
    (buildR_encodeR rd rs1 rs2 0b000#3 0b0110011#7 .sub 0b0100000#7)
theorem sll (rd rs1 rs2 : RegId) : Statement (.sll rd rs1 rs2) := fun _ =>
  of_row 29 ⟨"SLL", 0xFE00707F, 0x00001033, buildR .sll⟩ rfl
    (encodeR_mask 0b0000000#7 rs2 rs1 rd 0b001#3 0b0110011#7) (by decide)
    (buildR_encodeR rd rs1 rs2 0b001#3 0b0110011#7 .sll 0b0000000#7)
theorem slt (rd rs1 rs2 : RegId) : Statement (.slt rd rs1 rs2) := fun _ =>
  of_row 30 ⟨"SLT", 0xFE00707F, 0x00002033, buildR .slt⟩ rfl
    (encodeR_mask 0b0000000#7 rs2 rs1 rd 0b010#3 0b0110011#7) (by decide)
    (buildR_encodeR rd rs1 rs2 0b010#3 0b0110011#7 .slt 0b0000000#7)
theorem sltu (rd rs1 rs2 : RegId) : Statement (.sltu rd rs1 rs2) := fun _ =>
  of_row 31 ⟨"SLTU", 0xFE00707F, 0x00003033, buildR .sltu⟩ rfl
    (encodeR_mask 0b0000000#7 rs2 rs1 rd 0b011#3 0b0110011#7) (by decide)
    (buildR_encodeR rd rs1 rs2 0b011#3 0b0110011#7 .sltu 0b0000000#7)
theorem xor (rd rs1 rs2 : RegId) : Statement (.xor rd rs1 rs2) := fun _ =>
  of_row 32 ⟨"XOR", 0xFE00707F, 0x00004033, buildR .xor⟩ rfl
    (encodeR_mask 0b0000000#7 rs2 rs1 rd 0b100#3 0b0110011#7) (by decide)
    (buildR_encodeR rd rs1 rs2 0b100#3 0b0110011#7 .xor 0b0000000#7)
theorem srl (rd rs1 rs2 : RegId) : Statement (.srl rd rs1 rs2) := fun _ =>
  of_row 33 ⟨"SRL", 0xFE00707F, 0x00005033, buildR .srl⟩ rfl
    (encodeR_mask 0b0000000#7 rs2 rs1 rd 0b101#3 0b0110011#7) (by decide)
    (buildR_encodeR rd rs1 rs2 0b101#3 0b0110011#7 .srl 0b0000000#7)
theorem sra (rd rs1 rs2 : RegId) : Statement (.sra rd rs1 rs2) := fun _ =>
  of_row 34 ⟨"SRA", 0xFE00707F, 0x40005033, buildR .sra⟩ rfl
    (encodeR_mask 0b0100000#7 rs2 rs1 rd 0b101#3 0b0110011#7) (by decide)
    (buildR_encodeR rd rs1 rs2 0b101#3 0b0110011#7 .sra 0b0100000#7)
theorem or (rd rs1 rs2 : RegId) : Statement (.or rd rs1 rs2) := fun _ =>
  of_row 35 ⟨"OR", 0xFE00707F, 0x00006033, buildR .or⟩ rfl
    (encodeR_mask 0b0000000#7 rs2 rs1 rd 0b110#3 0b0110011#7) (by decide)
    (buildR_encodeR rd rs1 rs2 0b110#3 0b0110011#7 .or 0b0000000#7)
theorem and (rd rs1 rs2 : RegId) : Statement (.and rd rs1 rs2) := fun _ =>
  of_row 36 ⟨"AND", 0xFE00707F, 0x00007033, buildR .and⟩ rfl
    (encodeR_mask 0b0000000#7 rs2 rs1 rd 0b111#3 0b0110011#7) (by decide)
    (buildR_encodeR rd rs1 rs2 0b111#3 0b0110011#7 .and 0b0000000#7)
theorem mul (rd rs1 rs2 : RegId) : Statement (.mul rd rs1 rs2) := fun _ =>
  of_row 37 ⟨"MUL", 0xFE00707F, 0x02000033, buildR .mul⟩ rfl
    (encodeR_mask 0b0000001#7 rs2 rs1 rd 0b000#3 0b0110011#7) (by decide)
    (buildR_encodeR rd rs1 rs2 0b000#3 0b0110011#7 .mul 0b0000001#7)
theorem mulh (rd rs1 rs2 : RegId) : Statement (.mulh rd rs1 rs2) := fun _ =>
  of_row 38 ⟨"MULH", 0xFE00707F, 0x02001033, buildR .mulh⟩ rfl
    (encodeR_mask 0b0000001#7 rs2 rs1 rd 0b001#3 0b0110011#7) (by decide)
    (buildR_encodeR rd rs1 rs2 0b001#3 0b0110011#7 .mulh 0b0000001#7)
theorem mulhsu (rd rs1 rs2 : RegId) : Statement (.mulhsu rd rs1 rs2) := fun _ =>
  of_row 39 ⟨"MULHSU", 0xFE00707F, 0x02002033, buildR .mulhsu⟩ rfl
    (encodeR_mask 0b0000001#7 rs2 rs1 rd 0b010#3 0b0110011#7) (by decide)
    (buildR_encodeR rd rs1 rs2 0b010#3 0b0110011#7 .mulhsu 0b0000001#7)
theorem mulhu (rd rs1 rs2 : RegId) : Statement (.mulhu rd rs1 rs2) := fun _ =>
  of_row 40 ⟨"MULHU", 0xFE00707F, 0x02003033, buildR .mulhu⟩ rfl
    (encodeR_mask 0b0000001#7 rs2 rs1 rd 0b011#3 0b0110011#7) (by decide)
    (buildR_encodeR rd rs1 rs2 0b011#3 0b0110011#7 .mulhu 0b0000001#7)
theorem div (rd rs1 rs2 : RegId) : Statement (.div rd rs1 rs2) := fun _ =>
  of_row 41 ⟨"DIV", 0xFE00707F, 0x02004033, buildR .div⟩ rfl
    (encodeR_mask 0b0000001#7 rs2 rs1 rd 0b100#3 0b0110011#7) (by decide)
    (buildR_encodeR rd rs1 rs2 0b100#3 0b0110011#7 .div 0b0000001#7)
theorem divu (rd rs1 rs2 : RegId) : Statement (.divu rd rs1 rs2) := fun _ =>
  of_row 42 ⟨"DIVU", 0xFE00707F, 0x02005033, buildR .divu⟩ rfl
    (encodeR_mask 0b0000001#7 rs2 rs1 rd 0b101#3 0b0110011#7) (by decide)
    (buildR_encodeR rd rs1 rs2 0b101#3 0b0110011#7 .divu 0b0000001#7)
theorem rem (rd rs1 rs2 : RegId) : Statement (.rem rd rs1 rs2) := fun _ =>
  of_row 43 ⟨"REM", 0xFE00707F, 0x02006033, buildR .rem⟩ rfl
    (encodeR_mask 0b0000001#7 rs2 rs1 rd 0b110#3 0b0110011#7) (by decide)
    (buildR_encodeR rd rs1 rs2 0b110#3 0b0110011#7 .rem 0b0000001#7)
theorem remu (rd rs1 rs2 : RegId) : Statement (.remu rd rs1 rs2) := fun _ =>
  of_row 44 ⟨"REMU", 0xFE00707F, 0x02007033, buildR .remu⟩ rfl
    (encodeR_mask 0b0000001#7 rs2 rs1 rd 0b111#3 0b0110011#7) (by decide)
    (buildR_encodeR rd rs1 rs2 0b111#3 0b0110011#7 .remu 0b0000001#7)
theorem lrW (rd rs1 : RegId) (aq rl : BitVec 1) : Statement (.lrW rd rs1 aq rl) := fun _ =>
  of_row 45 ⟨"LR.W", 0xF9F0707F, 0x1000202F, buildLr .lrW⟩ rfl
    (encodeLr_mask 0b00000#5 rs1 rd 0b00010#5 aq rl) (by decide)
    (buildLr_encodeAtomic rd rs1 0b00000#5 .lrW 0b00010#5 aq rl)
theorem scW (rd rs1 rs2 : RegId) (aq rl : BitVec 1) : Statement (.scW rd rs1 rs2 aq rl) := fun _ =>
  of_row 46 ⟨"SC.W", 0xF800707F, 0x1800202F, buildAtomic .scW⟩ rfl
    (encodeAtomic_mask rs2 rs1 rd 0b00011#5 aq rl) (by decide)
    (buildAtomic_encodeAtomic rd rs1 rs2 .scW 0b00011#5 aq rl)
theorem amoswapW (rd rs1 rs2 : RegId) (aq rl : BitVec 1) : Statement (.amoswapW rd rs1 rs2 aq rl) := fun _ =>
  of_row 47 ⟨"AMOSWAP.W", 0xF800707F, 0x0800202F, buildAtomic .amoswapW⟩ rfl
    (encodeAtomic_mask rs2 rs1 rd 0b00001#5 aq rl) (by decide)
    (buildAtomic_encodeAtomic rd rs1 rs2 .amoswapW 0b00001#5 aq rl)
theorem amoaddW (rd rs1 rs2 : RegId) (aq rl : BitVec 1) : Statement (.amoaddW rd rs1 rs2 aq rl) := fun _ =>
  of_row 48 ⟨"AMOADD.W", 0xF800707F, 0x0000202F, buildAtomic .amoaddW⟩ rfl
    (encodeAtomic_mask rs2 rs1 rd 0b00000#5 aq rl) (by decide)
    (buildAtomic_encodeAtomic rd rs1 rs2 .amoaddW 0b00000#5 aq rl)
theorem amoxorW (rd rs1 rs2 : RegId) (aq rl : BitVec 1) : Statement (.amoxorW rd rs1 rs2 aq rl) := fun _ =>
  of_row 49 ⟨"AMOXOR.W", 0xF800707F, 0x2000202F, buildAtomic .amoxorW⟩ rfl
    (encodeAtomic_mask rs2 rs1 rd 0b00100#5 aq rl) (by decide)
    (buildAtomic_encodeAtomic rd rs1 rs2 .amoxorW 0b00100#5 aq rl)
theorem amoandW (rd rs1 rs2 : RegId) (aq rl : BitVec 1) : Statement (.amoandW rd rs1 rs2 aq rl) := fun _ =>
  of_row 50 ⟨"AMOAND.W", 0xF800707F, 0x6000202F, buildAtomic .amoandW⟩ rfl
    (encodeAtomic_mask rs2 rs1 rd 0b01100#5 aq rl) (by decide)
    (buildAtomic_encodeAtomic rd rs1 rs2 .amoandW 0b01100#5 aq rl)
theorem amoorW (rd rs1 rs2 : RegId) (aq rl : BitVec 1) : Statement (.amoorW rd rs1 rs2 aq rl) := fun _ =>
  of_row 51 ⟨"AMOOR.W", 0xF800707F, 0x4000202F, buildAtomic .amoorW⟩ rfl
    (encodeAtomic_mask rs2 rs1 rd 0b01000#5 aq rl) (by decide)
    (buildAtomic_encodeAtomic rd rs1 rs2 .amoorW 0b01000#5 aq rl)
theorem amominW (rd rs1 rs2 : RegId) (aq rl : BitVec 1) : Statement (.amominW rd rs1 rs2 aq rl) := fun _ =>
  of_row 52 ⟨"AMOMIN.W", 0xF800707F, 0x8000202F, buildAtomic .amominW⟩ rfl
    (encodeAtomic_mask rs2 rs1 rd 0b10000#5 aq rl) (by decide)
    (buildAtomic_encodeAtomic rd rs1 rs2 .amominW 0b10000#5 aq rl)
theorem amomaxW (rd rs1 rs2 : RegId) (aq rl : BitVec 1) : Statement (.amomaxW rd rs1 rs2 aq rl) := fun _ =>
  of_row 53 ⟨"AMOMAX.W", 0xF800707F, 0xA000202F, buildAtomic .amomaxW⟩ rfl
    (encodeAtomic_mask rs2 rs1 rd 0b10100#5 aq rl) (by decide)
    (buildAtomic_encodeAtomic rd rs1 rs2 .amomaxW 0b10100#5 aq rl)
theorem amominuW (rd rs1 rs2 : RegId) (aq rl : BitVec 1) : Statement (.amominuW rd rs1 rs2 aq rl) := fun _ =>
  of_row 54 ⟨"AMOMINU.W", 0xF800707F, 0xC000202F, buildAtomic .amominuW⟩ rfl
    (encodeAtomic_mask rs2 rs1 rd 0b11000#5 aq rl) (by decide)
    (buildAtomic_encodeAtomic rd rs1 rs2 .amominuW 0b11000#5 aq rl)
theorem amomaxuW (rd rs1 rs2 : RegId) (aq rl : BitVec 1) : Statement (.amomaxuW rd rs1 rs2 aq rl) := fun _ =>
  of_row 55 ⟨"AMOMAXU.W", 0xF800707F, 0xE000202F, buildAtomic .amomaxuW⟩ rfl
    (encodeAtomic_mask rs2 rs1 rd 0b11100#5 aq rl) (by decide)
    (buildAtomic_encodeAtomic rd rs1 rs2 .amomaxuW 0b11100#5 aq rl)
theorem csrrw (rd rs1 : RegId) (csr : CsrNumber) : Statement (.csrrw rd rs1 csr) := fun _ =>
  of_row 56 ⟨"CSRRW", 0x0000707F, 0x00001073, buildCsr .csrrw⟩ rfl
    (encodeI_mask rs1 rd 0b001#3 0b1110011#7 csr) (by decide)
    (buildI_encodeI rd rs1 0b001#3 0b1110011#7 .csrrw csr)
theorem csrrs (rd rs1 : RegId) (csr : CsrNumber) : Statement (.csrrs rd rs1 csr) := fun _ =>
  of_row 57 ⟨"CSRRS", 0x0000707F, 0x00002073, buildCsr .csrrs⟩ rfl
    (encodeI_mask rs1 rd 0b010#3 0b1110011#7 csr) (by decide)
    (buildI_encodeI rd rs1 0b010#3 0b1110011#7 .csrrs csr)
theorem csrrc (rd rs1 : RegId) (csr : CsrNumber) : Statement (.csrrc rd rs1 csr) := fun _ =>
  of_row 58 ⟨"CSRRC", 0x0000707F, 0x00003073, buildCsr .csrrc⟩ rfl
    (encodeI_mask rs1 rd 0b011#3 0b1110011#7 csr) (by decide)
    (buildI_encodeI rd rs1 0b011#3 0b1110011#7 .csrrc csr)
theorem csrrwi (rd : RegId) (uimm : BitVec 5) (csr : CsrNumber) : Statement (.csrrwi rd uimm csr) := fun _ =>
  of_row 59 ⟨"CSRRWI", 0x0000707F, 0x00005073, buildCsrImm .csrrwi⟩ rfl
    (encodeI_mask uimm rd 0b101#3 0b1110011#7 csr) (by decide)
    (buildI_encodeI rd uimm 0b101#3 0b1110011#7 .csrrwi csr)
theorem csrrsi (rd : RegId) (uimm : BitVec 5) (csr : CsrNumber) : Statement (.csrrsi rd uimm csr) := fun _ =>
  of_row 60 ⟨"CSRRSI", 0x0000707F, 0x00006073, buildCsrImm .csrrsi⟩ rfl
    (encodeI_mask uimm rd 0b110#3 0b1110011#7 csr) (by decide)
    (buildI_encodeI rd uimm 0b110#3 0b1110011#7 .csrrsi csr)
theorem csrrci (rd : RegId) (uimm : BitVec 5) (csr : CsrNumber) : Statement (.csrrci rd uimm csr) := fun _ =>
  of_row 61 ⟨"CSRRCI", 0x0000707F, 0x00007073, buildCsrImm .csrrci⟩ rfl
    (encodeI_mask uimm rd 0b111#3 0b1110011#7 csr) (by decide)
    (buildI_encodeI rd uimm 0b111#3 0b1110011#7 .csrrci csr)
theorem ecall : Statement .ecall := fun _ =>
  of_row 62 ⟨"ECALL", 0xFFFFFFFF, 0x00000073, buildFixed .ecall⟩ rfl
    (rfl) (by decide)
    (rfl)
theorem ebreak : Statement .ebreak := fun _ =>
  of_row 63 ⟨"EBREAK", 0xFFFFFFFF, 0x00100073, buildFixed .ebreak⟩ rfl
    (rfl) (by decide)
    (rfl)
theorem wfi : Statement .wfi := fun _ =>
  of_row 64 ⟨"WFI", 0xFFFFFFFF, 0x10500073, buildFixed .wfi⟩ rfl
    (rfl) (by decide)
    (rfl)
theorem mret : Statement .mret := fun _ =>
  of_row 65 ⟨"MRET", 0xFFFFFFFF, 0x30200073, buildFixed .mret⟩ rfl
    (rfl) (by decide)
    (rfl)

end Sys2Proof.Laws.Encoding
end

