-- ==== Sys2Proof/Tests/Slice0.lean ====
section
/-!
SUPPORT. Tests: well-formedness, one word of each instruction, one step of each instruction, the machine's
other behaviours, and for each statement with hypotheses a state that meets them. The expected values are
the examples of the rules named (spec/4x) and the vectors of spec/95_test_vectors.
-/

namespace Sys2Proof.Tests

open Sys2Proof.Machine Sys2Proof.Safety Sys2Proof.Claims

/-! ### Small states -/

/-- The reset state at `pc` with some registers set. -/
def startAt (pc : Word) (regs : List (RegId × Word)) : State :=
  regs.foldl (fun s r => s.writeReg r.1 r.2) { State.reset with pc := pc }

/-- With some bytes in RAM. -/
def withBytes (off : Nat) (bs : List Byte) (s : State) : State := { s with ram := s.ram.writeBytes off bs }

/-- With some CSRs set. -/
def withCsrs (cs : List (Csr × Word)) (s : State) : State := cs.foldl (fun s c => s.setCsr c.1 c.2) s

/-- The start of the AMO examples (45_atomics). -/
def amoStart : State := withBytes 0x200 [5, 0, 0, 0x80] (startAt 0 [(10, 0x200), (6, 3)])

/-- The next state of an instruction, if it has one. -/
def after (i : Instr) (s : State) : Option State :=
  match exec i s with
  | .next t => some t
  | _ => none

/-- The next state of a step, if it has one. -/
def afterStep (s : State) : Option State :=
  match step s with
  | .next t => some t
  | _ => none

/-! ### Well-formedness (30_encoding R105, R107: the offset is even) -/

theorem test_wf_refuses_odd_jal : (Instr.jal 1 3).wf = false := by decide
theorem test_wf_refuses_odd_beq : (Instr.beq 1 2 3).wf = false := by decide
theorem test_wf_refuses_odd_bne : (Instr.bne 1 2 3).wf = false := by decide
theorem test_wf_refuses_odd_blt : (Instr.blt 1 2 3).wf = false := by decide
theorem test_wf_refuses_odd_bge : (Instr.bge 1 2 3).wf = false := by decide
theorem test_wf_refuses_odd_bltu : (Instr.bltu 1 2 3).wf = false := by decide
theorem test_wf_refuses_odd_bgeu : (Instr.bgeu 1 2 3).wf = false := by decide
theorem test_wf_accepts_even_jal : (Instr.jal 1 2).wf = true := by decide
theorem test_wf_accepts_even_branch : (Instr.beq 1 2 0x1FFE).wf = true := by decide

/-! ### A word of each instruction, its fields as the format lays them out -/

theorem test_decode_lui : decodeWord 0b00010010001101000101_00101_0110111 =
    .ok (.lui 5 0x12345) := by decide
theorem test_decode_auipc : decodeWord 0b00000000000000000001_00101_0010111 = .ok (.auipc 5 1) := by decide
theorem test_decode_addi : decodeWord 0b111111111111_00001_000_00001_0010011 =
    .ok (.addi 1 1 0xFFF) := by decide
theorem test_decode_slti : decodeWord 0b111111111111_00001_010_00011_0010011 =
    .ok (.slti 3 1 0xFFF) := by decide
theorem test_decode_sltiu : decodeWord 0b111111111111_00001_011_00011_0010011 =
    .ok (.sltiu 3 1 0xFFF) := by decide
theorem test_decode_xori : decodeWord 0b111111111111_00001_100_00011_0010011 =
    .ok (.xori 3 1 0xFFF) := by decide
theorem test_decode_ori : decodeWord 0b000011110000_00001_110_00011_0010011 =
    .ok (.ori 3 1 0x0F0) := by decide
theorem test_decode_andi : decodeWord 0b000011111111_00001_111_00011_0010011 =
    .ok (.andi 3 1 0x0FF) := by decide
theorem test_decode_slli : decodeWord 0b0000000_00100_00001_001_00011_0010011 =
    .ok (.slli 3 1 4) := by decide
theorem test_decode_srli : decodeWord 0b0000000_00100_00001_101_00011_0010011 =
    .ok (.srli 3 1 4) := by decide
theorem test_decode_srai : decodeWord 0b0100000_00100_00001_101_00011_0010011 =
    .ok (.srai 3 1 4) := by decide
theorem test_decode_add : decodeWord 0b0000000_00010_00001_000_00011_0110011 = .ok (.add 3 1 2) := by decide
theorem test_decode_sub : decodeWord 0b0100000_00010_00001_000_00011_0110011 = .ok (.sub 3 1 2) := by decide
theorem test_decode_sll : decodeWord 0b0000000_00010_00001_001_00011_0110011 = .ok (.sll 3 1 2) := by decide
theorem test_decode_slt : decodeWord 0b0000000_00010_00001_010_00011_0110011 = .ok (.slt 3 1 2) := by decide
theorem test_decode_sltu : decodeWord 0b0000000_00010_00001_011_00011_0110011 =
    .ok (.sltu 3 1 2) := by decide
theorem test_decode_xor : decodeWord 0b0000000_00010_00001_100_00011_0110011 = .ok (.xor 3 1 2) := by decide
theorem test_decode_srl : decodeWord 0b0000000_00010_00001_101_00011_0110011 = .ok (.srl 3 1 2) := by decide
theorem test_decode_sra : decodeWord 0b0100000_00010_00001_101_00011_0110011 = .ok (.sra 3 1 2) := by decide
theorem test_decode_or : decodeWord 0b0000000_00010_00001_110_00011_0110011 = .ok (.or 3 1 2) := by decide
theorem test_decode_and : decodeWord 0b0000000_00010_00001_111_00011_0110011 = .ok (.and 3 1 2) := by decide
theorem test_decode_mul : decodeWord 0b0000001_00010_00001_000_00011_0110011 = .ok (.mul 3 1 2) := by decide
theorem test_decode_mulh : decodeWord 0b0000001_00010_00001_001_00011_0110011 =
    .ok (.mulh 3 1 2) := by decide
theorem test_decode_mulhsu : decodeWord 0b0000001_00010_00001_010_00011_0110011 =
    .ok (.mulhsu 3 1 2) := by decide
theorem test_decode_mulhu : decodeWord 0b0000001_00010_00001_011_00011_0110011 =
    .ok (.mulhu 3 1 2) := by decide
theorem test_decode_div : decodeWord 0b0000001_00010_00001_100_00011_0110011 = .ok (.div 3 1 2) := by decide
theorem test_decode_divu : decodeWord 0b0000001_00010_00001_101_00011_0110011 =
    .ok (.divu 3 1 2) := by decide
theorem test_decode_rem : decodeWord 0b0000001_00010_00001_110_00011_0110011 = .ok (.rem 3 1 2) := by decide
theorem test_decode_remu : decodeWord 0b0000001_00010_00001_111_00011_0110011 =
    .ok (.remu 3 1 2) := by decide
theorem test_decode_jal : decodeWord 0b0_0000000100_0_00000000_00001_1101111 = .ok (.jal 1 8) := by decide
theorem test_decode_jalr : decodeWord 0b000000000000_00001_000_00001_1100111 =
    .ok (.jalr 1 1 0) := by decide
theorem test_decode_beq : decodeWord 0b0_000000_00010_00001_000_1000_0_1100011 =
    .ok (.beq 1 2 16) := by decide
theorem test_decode_bne : decodeWord 0b1_111111_00010_00001_001_1100_1_1100011 =
    .ok (.bne 1 2 0x1FF8) := by decide
theorem test_decode_blt : decodeWord 0b0_000000_00010_00001_100_1000_0_1100011 =
    .ok (.blt 1 2 16) := by decide
theorem test_decode_bge : decodeWord 0b0_000000_00010_00001_101_1000_0_1100011 =
    .ok (.bge 1 2 16) := by decide
theorem test_decode_bltu : decodeWord 0b0_000000_00010_00001_110_1000_0_1100011 =
    .ok (.bltu 1 2 16) := by decide
theorem test_decode_bgeu : decodeWord 0b0_000000_00010_00001_111_1000_0_1100011 =
    .ok (.bgeu 1 2 16) := by decide
theorem test_decode_lb : decodeWord 0b000000000100_00010_000_00101_0000011 = .ok (.lb 5 2 4) := by decide
theorem test_decode_lh : decodeWord 0b000000000100_00010_001_00101_0000011 = .ok (.lh 5 2 4) := by decide
theorem test_decode_lw : decodeWord 0b000000000100_00010_010_00101_0000011 = .ok (.lw 5 2 4) := by decide
theorem test_decode_lbu : decodeWord 0b000000000100_00010_100_00101_0000011 = .ok (.lbu 5 2 4) := by decide
theorem test_decode_lhu : decodeWord 0b000000000100_00010_101_00101_0000011 = .ok (.lhu 5 2 4) := by decide
theorem test_decode_sb : decodeWord 0b0000000_00101_00010_000_00100_0100011 = .ok (.sb 2 5 4) := by decide
theorem test_decode_sh : decodeWord 0b0000000_00101_00010_001_00100_0100011 = .ok (.sh 2 5 4) := by decide
theorem test_decode_sw : decodeWord 0b0000000_00101_00010_010_00100_0100011 = .ok (.sw 2 5 4) := by decide
theorem test_decode_lrW : decodeWord 0b00010_0_0_00000_01010_010_00101_0101111 =
    .ok (.lrW 5 10 0 0) := by decide
theorem test_decode_scW : decodeWord 0b00011_0_0_00111_01010_010_00110_0101111 =
    .ok (.scW 6 10 7 0 0) := by decide
theorem test_decode_amoswapW : decodeWord 0b00001_0_0_00110_01010_010_00101_0101111 =
    .ok (.amoswapW 5 10 6 0 0) := by decide
theorem test_decode_amoaddW : decodeWord 0b00000_0_0_00110_01010_010_00101_0101111 =
    .ok (.amoaddW 5 10 6 0 0) := by decide
theorem test_decode_amoxorW : decodeWord 0b00100_0_0_00110_01010_010_00101_0101111 =
    .ok (.amoxorW 5 10 6 0 0) := by decide
theorem test_decode_amoandW : decodeWord 0b01100_0_0_00110_01010_010_00101_0101111 =
    .ok (.amoandW 5 10 6 0 0) := by decide
theorem test_decode_amoorW : decodeWord 0b01000_0_0_00110_01010_010_00101_0101111 =
    .ok (.amoorW 5 10 6 0 0) := by decide
theorem test_decode_amominW : decodeWord 0b10000_0_0_00110_01010_010_00101_0101111 =
    .ok (.amominW 5 10 6 0 0) := by decide
theorem test_decode_amomaxW : decodeWord 0b10100_0_0_00110_01010_010_00101_0101111 =
    .ok (.amomaxW 5 10 6 0 0) := by decide
theorem test_decode_amominuW : decodeWord 0b11000_0_0_00110_01010_010_00101_0101111 =
    .ok (.amominuW 5 10 6 0 0) := by decide
theorem test_decode_amomaxuW : decodeWord 0b11100_0_0_00110_01010_010_00101_0101111 =
    .ok (.amomaxuW 5 10 6 0 0) := by decide
theorem test_decode_csrrw : decodeWord 0b001101000000_00110_001_00101_1110011 =
    .ok (.csrrw 5 6 0x340) := by decide
theorem test_decode_csrrs : decodeWord 0b001101000000_00110_010_00101_1110011 =
    .ok (.csrrs 5 6 0x340) := by decide
theorem test_decode_csrrc : decodeWord 0b001101000000_00110_011_00101_1110011 =
    .ok (.csrrc 5 6 0x340) := by decide
theorem test_decode_csrrwi : decodeWord 0b001100000000_01000_101_00101_1110011 =
    .ok (.csrrwi 5 8 0x300) := by decide
theorem test_decode_csrrsi : decodeWord 0b001100000000_01000_110_00101_1110011 =
    .ok (.csrrsi 5 8 0x300) := by decide
theorem test_decode_csrrci : decodeWord 0b001100000000_01000_111_00101_1110011 =
    .ok (.csrrci 5 8 0x300) := by decide
theorem test_decode_ecall : decodeWord 0b00000000000000000000000001110011 = .ok (.ecall) := by decide
theorem test_decode_ebreak : decodeWord 0b00000000000100000000000001110011 = .ok (.ebreak) := by decide
theorem test_decode_wfi : decodeWord 0b00010000010100000000000001110011 = .ok (.wfi) := by decide
theorem test_decode_mret : decodeWord 0b00110000001000000000000001110011 = .ok (.mret) := by decide

/-! ### One step of each instruction: the examples of the rules -/

theorem test_exec_lui :
    (after (.lui 5 0x12345) (startAt 0 [])).map (·.readReg 5) = some 0x12345000 := by decide
theorem test_exec_auipc :
    (after (.auipc 5 1) (startAt 0x100 [])).map (·.readReg 5) = some 0x00001100 := by decide
theorem test_exec_addi :
    (after (.addi 1 1 0xFFF) (startAt 0 [])).map (·.readReg 1) = some 0xFFFFFFFF := by decide
theorem test_exec_slti :
    (after (.slti 3 1 0xFFF) (startAt 0 [(1, 0xFFFFFFFE)])).map (·.readReg 3) = some 1 := by decide
theorem test_exec_sltiu :
    (after (.sltiu 3 1 0xFFF) (startAt 0 [(1, 5)])).map (·.readReg 3) = some 1 := by decide
theorem test_exec_xori :
    (after (.xori 3 1 0xFFF) (startAt 0 [(1, 0x0000FFFF)])).map (·.readReg 3) = some 0xFFFF0000 := by decide
theorem test_exec_ori :
    (after (.ori 3 1 0x0F0) (startAt 0 [(1, 0x0000000F)])).map (·.readReg 3) = some 0x000000FF := by decide
theorem test_exec_andi :
    (after (.andi 3 1 0x0FF) (startAt 0 [(1, 0x12345678)])).map (·.readReg 3) = some 0x00000078 := by decide
theorem test_exec_slli :
    (after (.slli 3 1 4) (startAt 0 [(1, 0xF0000001)])).map (·.readReg 3) = some 0x00000010 := by decide
theorem test_exec_srli :
    (after (.srli 3 1 4) (startAt 0 [(1, 0x80000010)])).map (·.readReg 3) = some 0x08000001 := by decide
theorem test_exec_srai :
    (after (.srai 3 1 4) (startAt 0 [(1, 0x80000010)])).map (·.readReg 3) = some 0xF8000001 := by decide
theorem test_exec_add :
    (after (.add 3 1 2) (startAt 0 [(1, 0x7FFFFFFF), (2, 1)])).map
      (·.readReg 3) = some 0x80000000 := by decide
theorem test_exec_sub :
    (after (.sub 3 1 2) (startAt 0 [(1, 0), (2, 1)])).map (·.readReg 3) = some 0xFFFFFFFF := by decide
theorem test_exec_sll :
    (after (.sll 3 1 2) (startAt 0 [(1, 1), (2, 33)])).map (·.readReg 3) = some 2 := by decide
theorem test_exec_slt :
    (after (.slt 3 1 2) (startAt 0 [(1, 0x80000000), (2, 1)])).map (·.readReg 3) = some 1 := by decide
theorem test_exec_sltu :
    (after (.sltu 3 1 2) (startAt 0 [(1, 0x80000000), (2, 1)])).map (·.readReg 3) = some 0 := by decide
theorem test_exec_xor :
    (after (.xor 3 1 2) (startAt 0 [(1, 0xFF00FF00), (2, 0x0FF00FF0)])).map
      (·.readReg 3) = some 0xF0F0F0F0 := by decide
theorem test_exec_srl :
    (after (.srl 3 1 2) (startAt 0 [(1, 0x80000000), (2, 31)])).map (·.readReg 3) = some 1 := by decide
theorem test_exec_sra :
    (after (.sra 3 1 2) (startAt 0 [(1, 0x80000000), (2, 31)])).map
      (·.readReg 3) = some 0xFFFFFFFF := by decide
theorem test_exec_or :
    (after (.or 3 1 2) (startAt 0 [(1, 0xF0F00000), (2, 0x00000F0F)])).map
      (·.readReg 3) = some 0xF0F00F0F := by decide
theorem test_exec_and :
    (after (.and 3 1 2) (startAt 0 [(1, 0xFF00FF00), (2, 0x0FF00FF0)])).map
      (·.readReg 3) = some 0x0F000F00 := by decide
theorem test_exec_mul :
    (after (.mul 3 1 2) (startAt 0 [(1, 0xFFFFFFFF), (2, 0xFFFFFFFF)])).map
      (·.readReg 3) = some 1 := by decide
theorem test_exec_mulh :
    (after (.mulh 3 1 2) (startAt 0 [(1, 0xFFFFFFFF), (2, 0xFFFFFFFF)])).map
      (·.readReg 3) = some 0 := by decide
theorem test_exec_mulhsu :
    (after (.mulhsu 3 1 2) (startAt 0 [(1, 0xFFFFFFFF), (2, 0xFFFFFFFF)])).map
      (·.readReg 3) = some 0xFFFFFFFF := by decide
theorem test_exec_mulhu :
    (after (.mulhu 3 1 2) (startAt 0 [(1, 0xFFFFFFFF), (2, 0xFFFFFFFF)])).map
      (·.readReg 3) = some 0xFFFFFFFE := by decide
theorem test_exec_div :
    (after (.div 3 1 2) (startAt 0 [(1, 0xFFFFFFF9), (2, 2)])).map
      (·.readReg 3) = some 0xFFFFFFFD := by decide
theorem test_exec_divu :
    (after (.divu 3 1 2) (startAt 0 [(1, 0xFFFFFFF9), (2, 2)])).map
      (·.readReg 3) = some 0x7FFFFFFC := by decide
theorem test_exec_rem :
    (after (.rem 3 1 2) (startAt 0 [(1, 0xFFFFFFF9), (2, 2)])).map
      (·.readReg 3) = some 0xFFFFFFFF := by decide
theorem test_exec_remu :
    (after (.remu 3 1 2) (startAt 0 [(1, 0xFFFFFFF9), (2, 2)])).map (·.readReg 3) = some 1 := by decide
theorem test_exec_jal :
    (after (.jal 1 8) (startAt 0x100 [])).map
      (fun t => (t.readReg 1, t.pc)) = some (0x104, 0x108) := by decide
theorem test_exec_jalr :
    (after (.jalr 1 1 0) (startAt 0x200 [(1, 0x300)])).map
      (fun t => (t.readReg 1, t.pc)) = some (0x204, 0x300) := by decide
theorem test_exec_beq :
    (after (.beq 1 2 16) (startAt 0x100 [(1, 7), (2, 7)])).map (·.pc) = some 0x110 := by decide
theorem test_exec_bne :
    (after (.bne 1 2 0x1FF8) (startAt 0x108 [(1, 3), (2, 0)])).map (·.pc) = some 0x100 := by decide
theorem test_exec_blt :
    (after (.blt 1 2 16) (startAt 0x100 [(1, 0xFFFFFFFF), (2, 1)])).map (·.pc) = some 0x110 := by decide
theorem test_exec_bge :
    (after (.bge 1 2 16) (startAt 0x100 [(1, 0xFFFFFFFF), (2, 1)])).map (·.pc) = some 0x104 := by decide
theorem test_exec_bltu :
    (after (.bltu 1 2 16) (startAt 0x100 [(1, 0xFFFFFFFF), (2, 1)])).map (·.pc) = some 0x104 := by decide
theorem test_exec_bgeu :
    (after (.bgeu 1 2 16) (startAt 0x100 [(1, 0xFFFFFFFF), (2, 1)])).map (·.pc) = some 0x110 := by decide
theorem test_exec_lb :
    (after (.lb 5 2 4) (withBytes 0x104 [0x80] (startAt 0 [(2, 0x100)]))).map
      (·.readReg 5) = some 0xFFFFFF80 := by decide
theorem test_exec_lh :
    (after (.lh 5 2 4) (withBytes 0x104 [0x34, 0xF2] (startAt 0 [(2, 0x100)]))).map
      (·.readReg 5) = some 0xFFFFF234 := by decide
theorem test_exec_lw :
    (after (.lw 5 2 4) (withBytes 0x104 [0x78, 0x56, 0x34, 0x12] (startAt 0 [(2, 0x100)]))).map
      (·.readReg 5) = some 0x12345678 := by decide
theorem test_exec_lbu :
    (after (.lbu 5 2 4) (withBytes 0x104 [0x80] (startAt 0 [(2, 0x100)]))).map
      (·.readReg 5) = some 0x00000080 := by decide
theorem test_exec_lhu :
    (after (.lhu 5 2 4) (withBytes 0x104 [0x34, 0xF2] (startAt 0 [(2, 0x100)]))).map
      (·.readReg 5) = some 0x0000F234 := by decide
theorem test_exec_sb :
    (after (.sb 2 5 4) (startAt 0 [(2, 0x100), (5, 0x12345678)])).map
      (·.ram) = some [(0x104, 0x78)] := by decide
theorem test_exec_sh :
    (after (.sh 2 5 4) (startAt 0 [(2, 0x100), (5, 0x12345678)])).map
      (·.ram) = some [(0x104, 0x78), (0x105, 0x56)] := by decide
theorem test_exec_sw :
    (after (.sw 2 5 4) (startAt 0 [(2, 0x100), (5, 0x12345678)])).map
      (·.ram) = some [(0x104, 0x78), (0x105, 0x56), (0x106, 0x34), (0x107, 0x12)] := by decide
theorem test_exec_lrW :
    (after (.lrW 5 10 0 0) (withBytes 0x200 [0x2A] (startAt 0 [(10, 0x200)]))).map
      (fun t => (t.readReg 5, t.resv)) = some (0x2A, some 0x200) := by decide
theorem test_exec_scW :
    (after (.scW 6 10 7 0 0) { withBytes 0x200 [0x2A] (startAt 0 [(7, 0x2B), (10, 0x200)]) with resv := some 0x200 }).map (fun t => (t.readReg 6, t.resv, t.ram)) =
      some (0, none, [(0x200, 0x2B)]) := by decide
theorem test_exec_amoswapW :
    (after (.amoswapW 5 10 6 0 0) amoStart).map
      (fun t => (t.readReg 5, t.ram.readLe 0x200 4)) = some (0x80000005, 0x00000003) := by decide
theorem test_exec_amoaddW :
    (after (.amoaddW 5 10 6 0 0) amoStart).map
      (fun t => (t.readReg 5, t.ram.readLe 0x200 4)) = some (0x80000005, 0x80000008) := by decide
theorem test_exec_amoxorW :
    (after (.amoxorW 5 10 6 0 0) amoStart).map
      (fun t => (t.readReg 5, t.ram.readLe 0x200 4)) = some (0x80000005, 0x80000006) := by decide
theorem test_exec_amoandW :
    (after (.amoandW 5 10 6 0 0) amoStart).map
      (fun t => (t.readReg 5, t.ram.readLe 0x200 4)) = some (0x80000005, 0x00000001) := by decide
theorem test_exec_amoorW :
    (after (.amoorW 5 10 6 0 0) amoStart).map
      (fun t => (t.readReg 5, t.ram.readLe 0x200 4)) = some (0x80000005, 0x80000007) := by decide
theorem test_exec_amominW :
    (after (.amominW 5 10 6 0 0) amoStart).map
      (fun t => (t.readReg 5, t.ram.readLe 0x200 4)) = some (0x80000005, 0x80000005) := by decide
theorem test_exec_amomaxW :
    (after (.amomaxW 5 10 6 0 0) amoStart).map
      (fun t => (t.readReg 5, t.ram.readLe 0x200 4)) = some (0x80000005, 0x00000003) := by decide
theorem test_exec_amominuW :
    (after (.amominuW 5 10 6 0 0) amoStart).map
      (fun t => (t.readReg 5, t.ram.readLe 0x200 4)) = some (0x80000005, 0x00000003) := by decide
theorem test_exec_amomaxuW :
    (after (.amomaxuW 5 10 6 0 0) amoStart).map
      (fun t => (t.readReg 5, t.ram.readLe 0x200 4)) = some (0x80000005, 0x80000005) := by decide
theorem test_exec_csrrw :
    (after (.csrrw 5 6 0x340) (withCsrs [(.mscratch, 0x11111111)] (startAt 0 [(6, 0x22222222)]))).map
      (fun t => (t.readReg 5, t.readCsr .mscratch)) = some (0x11111111, 0x22222222) := by decide
theorem test_exec_csrrs :
    (after (.csrrs 5 6 0x340) (withCsrs [(.mscratch, 0x0F0F0000)] (startAt 0 [(6, 0x000000FF)]))).map
      (fun t => (t.readReg 5, t.readCsr .mscratch)) = some (0x0F0F0000, 0x0F0F00FF) := by decide
theorem test_exec_csrrc :
    (after (.csrrc 5 6 0x340) (withCsrs [(.mscratch, 0x0F0F00FF)] (startAt 0 [(6, 0x0000000F)]))).map
      (fun t => (t.readReg 5, t.readCsr .mscratch)) = some (0x0F0F00FF, 0x0F0F00F0) := by decide
theorem test_exec_csrrwi :
    (after (.csrrwi 5 8 0x300) (withCsrs [(.mstatus, 0x80)] (startAt 0 []))).map
      (fun t => (t.readReg 5, t.readCsr .mstatus)) = some (0x80, 0x08) := by decide
theorem test_exec_csrrsi :
    (after (.csrrsi 5 8 0x300) (withCsrs [(.mstatus, 0x80)] (startAt 0 []))).map
      (fun t => (t.readReg 5, t.readCsr .mstatus)) = some (0x80, 0x88) := by decide
theorem test_exec_csrrci :
    (after (.csrrci 5 8 0x300) (withCsrs [(.mstatus, 0x88)] (startAt 0 []))).map
      (fun t => (t.readReg 5, t.readCsr .mstatus)) = some (0x88, 0x80) := by decide
theorem test_exec_ecall :
    (after (.ecall) (startAt 0x100 [(17, 11), (10, 0x41)])).map (fun t => (t.events, t.pc)) =
      some ([.syscall 11 #v[0x41, 0, 0, 0, 0, 0, 0]], 0x104) := by decide
theorem test_exec_ebreak :
    (after (.ebreak) (startAt 0x108 [])).map
      (fun t => (t.events, t.halted, t.pc)) = some ([.breakpoint 0x108], true, 0x10C) := by decide
theorem test_exec_wfi :
    (after (.wfi) (startAt 0x20 [])).map (fun t => (t.waiting, t.pc)) = some (true, 0x24) := by decide
theorem test_exec_mret :
    (after (.mret) (withCsrs [(.mstatus, 0x80), (.mepc, 0x24)] (startAt 0x9C []))).map
      (fun t => (t.csrs.mstatus, t.pc)) = some (0x88, 0x24) := by decide

/-! ### The machine around the instructions -/

/-- The default configuration builds the machine of `State.reset`. -/
theorem test_reset_is_constructed : construct Platform.default Launch.default = .ok State.reset := by decide

/-- 95_test_vectors 2.1 through a whole step: ADDI placed at the next fetch. -/
theorem test_step_runs_placed_word :
    (afterStep (State.reset.withFetchWord 32 0x00500093)).map (fun t => (t.readReg 1, t.pc)) =
      some (5, 4) := by decide

/-- The table's numbering of a word's bits is the word itself. -/
theorem test_decodeTableWord : decodeTableWord 32 0x00500093 = some (.addi 1 0 5) := by decide
theorem test_decodeTableWord_none : decodeTableWord 32 0 = none := by decide

/-- R239: the all-zero word. -/
theorem test_step_diagnostic :
    (afterStep State.reset).map (fun t => (t.events, t.pc)) = some ([.diagnostic 0 0], 4) := by decide

/-- R237's example: the trap that ends a wait. -/
theorem test_step_trap_wakes :
    (afterStep { withCsrs [(.mstatus, 0x08), (.mie, 0x800), (.mip, 0x800), (.mtvec, 0x80)]
      (startAt 0x24 []) with waiting := true }).map
        (fun t => (t.csrs.mepc, t.csrs.mcause, t.csrs.mstatus, t.pc, t.waiting)) =
      some (0x24, 0x8000000B, 0x80, 0x80, false) := by decide

/-- R76: a word store emits four bytes, NULs included. -/
theorem test_io_output :
    (after (.sw 2 5 0) (startAt 0 [(2, 0x10000000), (5, 0x41)])).map (fun t => t.io.map (·.outLog)) =
      some [[0x41, 0, 0, 0]] := by decide

/-- R78: a byte read at offset 8 pops the oldest character. -/
theorem test_io_input :
    (after (.lbu 5 2 8) { startAt 0 [(2, 0x10000000)] with
        io := [{ IoState.reset with inFifo := [0x61, 0x62] }] }).map
        (fun t => (t.readReg 5, t.io.map (·.inFifo))) =
      some (0x61, [[0x62]]) := by decide

/-- R77: a word write of 0 at offset 4 clears the pending bit. -/
theorem test_io_clear :
    (after (.sw 2 0 4) (withCsrs [(.mip, 0x800)] (startAt 0 [(2, 0x10000000)]))).map (·.csrs.mip) =
      some 0 := by decide

/-- R193's second example: a misaligned word. -/
theorem test_lw_misaligned :
    (after (.lw 5 2 3) (withBytes 0x103 [0xAA, 0x78, 0x56, 0x34] (startAt 0 [(2, 0x100)]))).map
      (·.readReg 5) = some 0x345678AA := by decide

/-- R198: "the same store to an address with no owning device fails". -/
theorem test_sw_unmapped :
    exec (.sw 2 5 0) (startAt 0x100 [(2, 0x20000000)]) =
      .fault (.unmappedAddress 0x20000000 0x104) := rfl

/-- R253: the access runs past the end of the RAM. -/
theorem test_lw_past_the_end :
    exec (.lw 5 2 0) (startAt 0x100 [(2, 0xFFFE)]) = .fault (.unmappedAddress 0xFFFE 0x104) := rfl

/-- R211: "Repeating the same SC.W: memory unchanged, x6 = 1". -/
theorem test_scW_fails :
    (after (.scW 6 10 7 0 0) (withBytes 0x200 [0x2B] (startAt 0 [(7, 0x2C), (10, 0x200)]))).map
      (fun t => (t.readReg 6, t.ram)) = some (1, [(0x200, 0x2B)]) := by decide

/-- R205, R207: the corner cases. -/
theorem test_div_by_zero :
    (after (.div 3 1 2) (startAt 0 [(1, 7)])).map (·.readReg 3) = some 0xFFFFFFFF := by decide
theorem test_div_overflow :
    (after (.div 3 1 2) (startAt 0 [(1, 0x80000000), (2, 0xFFFFFFFF)])).map (·.readReg 3) =
      some 0x80000000 := by decide
theorem test_rem_overflow :
    (after (.rem 3 1 2) (startAt 0 [(1, 0x80000000), (2, 0xFFFFFFFF)])).map (·.readReg 3) =
      some 0 := by decide

/-- R226's second example: the mask of `mstatus`. -/
theorem test_csrrw_masked :
    (after (.csrrw 5 6 0x300) (startAt 0 [(6, 0xFFFFFFFF)])).map (·.csrs) =
      some { CsrBank.zero with mstatus := 0x88 } := by decide

/-- R225 (a): `csrrs x0, 0xC00, x0` faults like any other. -/
theorem test_csrrs_unsupported :
    exec (.csrrs 0 0 0xC00) (startAt 0x100 []) = .fault (.unsupportedCsr 0xC00 0x104) := rfl

/-! ### Witnesses: a state and operands that meet a statement's hypotheses, clause by clause -/

/-- The words of the fifteen clauses of `UnrecognisedEncodings`, in order. -/
theorem witness_UnrecognisedEncodings :
    (0x0000000F : Word).extractLsb 6 0 ∉ ([0x37, 0x17, 0x6F, 0x67, 0x63, 0x03, 0x23, 0x13, 0x33, 0x2F,
      0x73] : List (BitVec 7)) ∧
    (0x00000001 : Word).extractLsb 1 0 ≠ 0b11#2 ∧
    ((0x00200073 : Word).extractLsb 6 0 = 0x73#7 ∧ (0x00200073 : Word).extractLsb 14 12 = 0b000#3 ∧
      (0x00200073 : Word) ∉ ([0x00000073, 0x00100073, 0x10500073, 0x30200073] : List Word)) ∧
    ((0x00004073 : Word).extractLsb 6 0 = 0x73#7 ∧ (0x00004073 : Word).extractLsb 14 12 = 0b100#3) ∧
    ((0x04000033 : Word).extractLsb 6 0 = 0x33#7 ∧
      (0x04000033 : Word).extractLsb 31 25 ∉ ([0x00, 0x20, 0x01] : List (BitVec 7))) ∧
    ((0x40001033 : Word).extractLsb 6 0 = 0x33#7 ∧ (0x40001033 : Word).extractLsb 31 25 = 0x20#7 ∧
      (0x40001033 : Word).extractLsb 14 12 ≠ 0b000#3 ∧ (0x40001033 : Word).extractLsb 14 12 ≠ 0b101#3) ∧
    ((0x02001013 : Word).extractLsb 6 0 = 0x13#7 ∧ (0x02001013 : Word).extractLsb 14 12 = 0b001#3 ∧
      (0x02001013 : Word).extractLsb 31 25 ≠ 0x00#7) ∧
    ((0x02005013 : Word).extractLsb 6 0 = 0x13#7 ∧ (0x02005013 : Word).extractLsb 14 12 = 0b101#3 ∧
      (0x02005013 : Word).extractLsb 31 25 ≠ 0x00#7 ∧ (0x02005013 : Word).extractLsb 31 25 ≠ 0x20#7) ∧
    ((0x00003003 : Word).extractLsb 6 0 = 0x03#7 ∧
      (0x00003003 : Word).extractLsb 14 12 ∈ ([3, 6, 7] : List (BitVec 3))) ∧
    ((0x00007023 : Word).extractLsb 6 0 = 0x23#7 ∧
      (0x00007023 : Word).extractLsb 14 12 ∈ ([3, 4, 5, 6, 7] : List (BitVec 3))) ∧
    ((0x00003063 : Word).extractLsb 6 0 = 0x63#7 ∧
      (0x00003063 : Word).extractLsb 14 12 ∈ ([2, 3] : List (BitVec 3))) ∧
    ((0x00007067 : Word).extractLsb 6 0 = 0x67#7 ∧ (0x00007067 : Word).extractLsb 14 12 ≠ 0b000#3) ∧
    ((0x0000302F : Word).extractLsb 6 0 = 0x2F#7 ∧ (0x0000302F : Word).extractLsb 14 12 ≠ 0b010#3) ∧
    ((0xF800202F : Word).extractLsb 6 0 = 0x2F#7 ∧ (0xF800202F : Word).extractLsb 31 27 ∉
      ([0x02, 0x03, 0x01, 0x00, 0x04, 0x0C, 0x08, 0x10, 0x14, 0x18, 0x1C] : List (BitVec 5))) ∧
    ((0x1010202F : Word).extractLsb 6 0 = 0x2F#7 ∧ (0x1010202F : Word).extractLsb 31 27 = 0x02#5 ∧
      (0x1010202F : Word).extractLsb 24 20 ≠ 0#5) := by decide

theorem witness_DecodeInvertsEncode : (Instr.beq 31 31 0x1FFE).wf = true := by decide

theorem witness_EncodeInvertsDecode : decodeWord 0x30200073 = .ok .mret := by decide

theorem witness_DivisionLaw :
    let s := startAt 0 [(1, 0xFFFFFFF9), (2, 2)]
    (5 : RegId) ≠ 0 ∧ (6 : RegId) ≠ 0 ∧ s.readReg 2 ≠ 0 ∧
    ¬ (s.readReg 1 = 0x80000000 ∧ s.readReg 2 = 0xFFFFFFFF) ∧
    (∃ t, exec (.div 5 1 2) s = .next t) ∧ (∃ u, exec (.rem 6 1 2) s = .next u) ∧
    (∃ t, exec (.divu 5 1 2) s = .next t) ∧ (∃ u, exec (.remu 6 1 2) s = .next u) :=
  ⟨by decide, by decide, by decide, by decide, ⟨_, rfl⟩, ⟨_, rfl⟩, ⟨_, rfl⟩, ⟨_, rfl⟩⟩

theorem witness_JumpResults : (0x1FFFFE : BitVec 21).getLsbD 0 = false := by decide

theorem witness_BranchResults : (0x1FFE : BitVec 13).getLsbD 0 = false := by decide

/-- The first and last address of each owner, and the first beyond each. -/
theorem witness_RoutingFindsTheOwner :
    Platform.wf Platform.default = true ∧
    Platform.owner Platform.default 0 = some (.ram, 0, 0x10000) ∧
    Platform.owner Platform.default 0xFFFF = some (.ram, 0, 0x10000) ∧
    Platform.owner Platform.default 0x10000 = none ∧
    Platform.owner Platform.default 0x10000000 = some (.io 0, 0x10000000, 0x1000000C) ∧
    Platform.owner Platform.default 0x1000000B = some (.io 0, 0x10000000, 0x1000000C) ∧
    Platform.owner Platform.default 0x1000000C = none := by decide

/-- The last byte, halfword and word of RAM. -/
theorem witness_RamAccess :
    InRam State.reset.cfg 0xFFFF 1 ∧ InRam State.reset.cfg 0xFFFE 2 ∧ InRam State.reset.cfg 0xFFFC 4 ∧
    Memory.wf State.reset.ram = true := by
  unfold InRam; decide

/-- A device with one character waiting. -/
def keyed : State := { State.reset with io := [{ IoState.reset with inFifo := [0x61] }] }

theorem witness_IoInputRead :
    Platform.wf State.reset.cfg = true ∧ InIo State.reset.cfg 0x10000008 1 0 8 ∧
    State.reset.io[0]? = some IoState.reset ∧ IoState.reset.inFifo = [] ∧
    InIo keyed.cfg 0x10000008 1 0 8 ∧ keyed.io[0]? = some { IoState.reset with inFifo := [0x61] } :=
  ⟨by decide, ⟨0x10000000, by decide⟩, rfl, rfl, ⟨0x10000000, by decide⟩, rfl⟩

theorem witness_IoWrites :
    Platform.wf State.reset.cfg = true ∧ State.reset.io[0]? = some IoState.reset ∧
    InIo State.reset.cfg 0x10000000 1 0 0 ∧ InIo State.reset.cfg 0x10000000 2 0 0 ∧
    InIo State.reset.cfg 0x10000000 4 0 0 ∧ InIo State.reset.cfg 0x10000004 4 0 4 :=
  ⟨by decide, rfl, ⟨0x10000000, by decide⟩, ⟨0x10000000, by decide⟩, ⟨0x10000000, by decide⟩,
    ⟨0x10000000, by decide⟩⟩

/-- The reset machine with the output shadow. -/
def shadowed : State := { State.reset with cfg := { Platform.default with ioShadow := true } }

theorem witness_IoShadowRead :
    Platform.wf shadowed.cfg = true ∧ shadowed.cfg.ioShadow = true ∧
    shadowed.io[0]? = some IoState.reset ∧ InIo shadowed.cfg 0x10000000 4 0 0 ∧
    InIo shadowed.cfg 0x10000003 1 0 3 :=
  ⟨by decide, rfl, rfl, ⟨0x10000000, by decide⟩, ⟨0x10000000, by decide⟩⟩

/-- A word read at offset 8, a byte read at offset 0 with no shadow, a byte write at offset 4, a word write
of 1 there, the last byte of the window, an AMO at an odd word. -/
theorem witness_UndefinedAccessesRefused :
    Platform.wf State.reset.cfg = true ∧
    (InIo State.reset.cfg 0x10000008 4 0 8 ∧ ¬ ((8 : Nat) = 8 ∧ Size.word = .byte) ∧
      ¬ (State.reset.cfg.ioShadow = true ∧ 8 + 4 ≤ 4)) ∧
    (InIo State.reset.cfg 0x10000000 1 0 0 ∧ ¬ ((0 : Nat) = 8 ∧ Size.byte = .byte) ∧
      ¬ (State.reset.cfg.ioShadow = true ∧ 0 + 1 ≤ 4)) ∧
    (InIo State.reset.cfg 0x10000004 1 0 4 ∧ (4 : Nat) ≠ 0 ∧
      ¬ ((4 : Nat) = 4 ∧ Size.byte = .word ∧ (0 : Word) = 0)) ∧
    (InIo State.reset.cfg 0x10000004 4 0 4 ∧ ¬ ((4 : Nat) = 4 ∧ Size.word = .word ∧ (1 : Word) = 0)) ∧
    InIo State.reset.cfg 0x1000000B 1 0 11 ∧
    ¬ Aligned4 ((startAt 0 [(10, 0x202)]).readReg 10) := by
  refine ⟨by decide, ⟨⟨0x10000000, by decide⟩, by decide⟩, ⟨⟨0x10000000, by decide⟩, by decide⟩,
    ⟨⟨0x10000000, by decide⟩, by decide⟩, ⟨⟨0x10000000, by decide⟩, by decide⟩,
    ⟨0x10000000, by decide⟩, ?_⟩
  unfold Aligned4
  decide

/-- Reads that complete, of each size, and that fail. -/
theorem witness_LoadsReadTheBus :
    (∃ v u, State.reset.memRead (State.reset.effectiveAddress 0 0) .byte = .ok (v, u)) ∧
    (∃ v u, State.reset.memRead (State.reset.effectiveAddress 0 0) .half = .ok (v, u)) ∧
    (∃ v u, State.reset.memRead (State.reset.effectiveAddress 0 0) .word = .ok (v, u)) ∧
    (∃ e, State.reset.memRead (State.reset.effectiveAddress 0 0xFFF) .byte = .error e) ∧
    (∃ e, State.reset.memRead (State.reset.effectiveAddress 0 0xFFF) .half = .error e) ∧
    (∃ e, State.reset.memRead (State.reset.effectiveAddress 0 0xFFF) .word = .error e) :=
  ⟨⟨0, State.reset, by decide⟩, ⟨0, State.reset, by decide⟩, ⟨0, State.reset, by decide⟩,
    ⟨.unmapped 0xFFFFFFFF, by decide⟩, ⟨.unmapped 0xFFFFFFFF, by decide⟩,
    ⟨.unmapped 0xFFFFFFFF, by decide⟩⟩

/-- The last byte, halfword and word of RAM, as effective addresses. -/
theorem witness_LoadsFromRam :
    let s := startAt 0 [(2, 0x10000)]
    InRam s.cfg (s.effectiveAddress 2 0xFFF) 1 ∧ InRam s.cfg (s.effectiveAddress 2 0xFFE) 2 ∧
    InRam s.cfg (s.effectiveAddress 2 0xFFC) 4 := by
  unfold InRam; decide

theorem witness_StoresWriteTheBus :
    let s := State.reset
    let a := s.effectiveAddress 0 0
    let b := s.effectiveAddress 0 0xFFF
    (∃ u, s.memWrite a .byte 0 = .ok u) ∧ (∃ u, s.memWrite a .half 0 = .ok u) ∧
    (∃ u, s.memWrite a .word 0 = .ok u) ∧ (∃ e, s.memWrite b .byte 0 = .error e) ∧
    (∃ e, s.memWrite b .half 0 = .error e) ∧ (∃ e, s.memWrite b .word 0 = .error e) :=
  ⟨⟨State.reset, by decide⟩, ⟨State.reset, by decide⟩, ⟨State.reset, by decide⟩,
    ⟨.unmapped 0xFFFFFFFF, by decide⟩, ⟨.unmapped 0xFFFFFFFF, by decide⟩,
    ⟨.unmapped 0xFFFFFFFF, by decide⟩⟩

theorem witness_StoresToRamComplete :
    let s := startAt 0 [(2, 0x10000)]
    Memory.wf s.ram = true ∧ InRam s.cfg (s.effectiveAddress 2 0xFFF) 1 ∧
    InRam s.cfg (s.effectiveAddress 2 0xFFE) 2 ∧ InRam s.cfg (s.effectiveAddress 2 0xFFC) 4 := by
  unfold InRam; decide

/-- The same word, its last byte and its last halfword. -/
theorem witness_LoadAfterStore :
    let s := startAt 0 [(2, 0x100), (5, 0x11223344)]
    Memory.wf s.ram = true ∧ InRam s.cfg (s.effectiveAddress 2 4) 4 ∧
    ∃ t, exec (.sw 2 5 4) s = .next t ∧ t.effectiveAddress 2 4 = s.effectiveAddress 2 4 ∧
      (t.effectiveAddress 2 7).toNat = (s.effectiveAddress 2 4).toNat + 3 ∧
      (t.effectiveAddress 2 6).toNat = (s.effectiveAddress 2 4).toNat + 2 :=
  ⟨by decide, by unfold InRam; decide, _, rfl, by decide, by decide, by decide⟩

/-- Unmapped: an address of no device, and accesses that run past the end of RAM. -/
theorem witness_UnmappedAccessFaults :
    let s := { startAt 0 [(2, 0x10000), (10, 0x20000000)] with resv := some 0x20000000 }
    Unmapped s.cfg (s.effectiveAddress 2 0) 1 ∧ Unmapped s.cfg (s.effectiveAddress 2 0xFFF) 2 ∧
    Unmapped s.cfg (s.effectiveAddress 2 0xFFD) 4 ∧ Unmapped s.cfg (s.readReg 10) 4 ∧
    Aligned4 (s.readReg 10) ∧ s.resv = some (s.readReg 10) := by
  refine ⟨unmapped_of_route ?_ ?_ ?_, unmapped_of_route ?_ ?_ ?_, unmapped_of_route ?_ ?_ ?_,
    unmapped_of_route ?_ ?_ ?_, ?_, ?_⟩
  all_goals first | decide | (unfold Aligned4; decide)

/-- The last word of RAM, a misaligned address, and an aligned one of no device. -/
theorem witness_LoadReserved :
    let s := startAt 0 [(10, 0xFFFC), (11, 0x202), (12, 0x10000)]
    Aligned4 (s.readReg 10) ∧ InRam s.cfg (s.readReg 10) 4 ∧
    (∃ v u, s.memRead (s.readReg 10) .word = .ok (v, u)) ∧ ¬ Aligned4 (s.readReg 11) ∧
    Aligned4 (s.readReg 12) ∧ (∃ e, s.memRead (s.readReg 12) .word = .error e) := by
  refine ⟨?_, ?_, ⟨0, startAt 0 [(10, 0xFFFC), (11, 0x202), (12, 0x10000)], ?_⟩, ?_, ?_,
    ⟨.unmapped 0x10000, ?_⟩⟩ <;> first | decide | (unfold Aligned4; decide) | (unfold InRam; decide)

theorem witness_StoreConditional :
    let s := { startAt 0 [(10, 0xFFFC)] with resv := some 0xFFFC }
    let r := { startAt 0 [(10, 0x10000)] with resv := some 0x10000 }
    State.reset.resv ≠ some (State.reset.readReg 10) ∧ s.resv = some (s.readReg 10) ∧
    (∃ u, s.memWrite (s.readReg 10) .word (s.readReg 7) = .ok u) ∧ Memory.wf s.ram = true ∧
    InRam s.cfg (s.readReg 10) 4 ∧ r.resv = some (r.readReg 10) ∧
    (∃ e, r.memWrite (r.readReg 10) .word (r.readReg 7) = .error e) := by
  refine ⟨?_, ?_, ⟨startAt 0 [(10, 0xFFFC)], ?_⟩, ?_, ?_, ?_, ⟨.unmapped 0x10000, ?_⟩⟩ <;>
    first | decide | (unfold InRam; decide)

/-- For both statements of the AMOs: aligned, read and written, in RAM; and one that fails. -/
theorem witness_AmoArithmeticResults :
    let s := startAt 0 [(10, 0xFFFC), (12, 0x10000)]
    Aligned4 (s.readReg 10) ∧
    (∃ v u w, s.memRead (s.readReg 10) .word = .ok (v, u) ∧ u.memWrite (s.readReg 10) .word 0 = .ok w) ∧
    Memory.wf s.ram = true ∧ InRam s.cfg (s.readReg 10) 4 ∧ Aligned4 (s.readReg 12) ∧
    (∃ e, s.memRead (s.readReg 12) .word = .error e) := by
  refine ⟨?_, ⟨0, startAt 0 [(10, 0xFFFC), (12, 0x10000)], startAt 0 [(10, 0xFFFC), (12, 0x10000)],
    ?_, ?_⟩, ?_, ?_, ?_, ⟨.unmapped 0x10000, ?_⟩⟩ <;>
    first | decide | (unfold Aligned4; decide) | (unfold InRam; decide)

theorem witness_AmoMinMaxResults : Aligned4 (amoStart.readReg 10) ∧
    InRam amoStart.cfg (amoStart.readReg 10) 4 ∧ Memory.wf amoStart.ram = true ∧
    (∃ v, amoStart.memRead (amoStart.readReg 10) .word = .ok (v, amoStart)) := by
  refine ⟨?_, ?_, ?_, ⟨0x80000005, ?_⟩⟩ <;>
    first | decide | (unfold Aligned4; decide) | (unfold InRam; decide)

/-- For both statements of the CSR forms: the eight numbers, and one that is none of them. -/
theorem witness_CsrRegisterForms :
    (0x300, .mstatus) ∈ csrNumbers ∧ (0x304, .mie) ∈ csrNumbers ∧ (0x305, .mtvec) ∈ csrNumbers ∧
    (0x340, .mscratch) ∈ csrNumbers ∧ (0x341, .mepc) ∈ csrNumbers ∧ (0x342, .mcause) ∈ csrNumbers ∧
    (0x343, .mtval) ∈ csrNumbers ∧ (0x344, .mip) ∈ csrNumbers := by decide

theorem witness_CsrImmediateForms : ((0x344 : CsrNumber), Csr.mip) ∈ csrNumbers := by decide

theorem witness_UnsupportedCsrFaults : ∀ c : Csr, ((0xC00 : CsrNumber), c) ∉ csrNumbers := by
  intro c; cases c <;> decide

theorem witness_EnvironmentInstructions :
    State.reset.haltOnEbreak = true ∧ (State.reset.setHaltOnEbreak false).haltOnEbreak = false := by decide

theorem witness_IdleSteps :
    (State.reset.setHalted true).halted = true ∧
    (let s := { State.reset with waiting := true }
     s.waiting = true ∧ ¬ (s.csrs.mstatus.getLsbD 3 = true ∧ s.csrs.mie.getLsbD 11 = true
       ∧ s.csrs.mip.getLsbD 11 = true)) ∧
    (∃ t, State.reset.enqueue 0 0x61 = .next t) :=
  ⟨by decide, by decide, _, rfl⟩

/-- The interrupt is enabled and pending. -/
def trapping : State :=
  withCsrs [(.mstatus, 0x08), (.mie, 0x800), (.mip, 0x800), (.mtvec, 0x80)] (startAt 0x100 [])

theorem witness_TrapEntry : trapping.halted = false ∧ trapping.csrs.mstatus.getLsbD 3 = true ∧
    trapping.csrs.mie.getLsbD 11 = true ∧ trapping.csrs.mip.getLsbD 11 = true := by decide

/-- Nothing keeps the reset machine, with a word at its `PC`, from running it. -/
theorem running_placed (w : Nat) : Running (State.reset.withFetchWord 32 w) :=
  ⟨rfl, fun h => absurd h.1 (by show ¬ State.reset.csrs.mstatus.getLsbD 3 = true; decide), rfl⟩

theorem witness_StepRunsTheDecodedInstruction :
    let s := State.reset.withFetchWord 32 0x00500093
    Running s ∧ s.memRead s.pc .word = .ok (0x00500093, s) ∧
    decodeWord 0x00500093 = .ok (.addi 1 0 5) ∧ InRam s.cfg s.pc 4 ∧
    decodeWord (pattern (ramNumber s s.pc 4)) = .ok (.addi 1 0 5) := by
  refine ⟨running_placed _, ?_, ?_, ?_, ?_⟩ <;> first | decide | (unfold InRam; decide)

/-- A word that is none, and a `PC` where no device is. -/
theorem witness_FetchesThatRunNothing :
    Running State.reset ∧ State.reset.memRead State.reset.pc .word = .ok (0, State.reset) ∧
    decodeWord 0 = .error (.unrecognised 0) ∧ Running (startAt 0x20000000 []) ∧
    Unmapped (startAt 0x20000000 []).cfg (startAt 0x20000000 []).pc 4 :=
  ⟨⟨rfl, by decide, rfl⟩, by decide, by decide, ⟨rfl, by decide, rfl⟩,
    unmapped_of_route (by decide) (by decide) (by decide)⟩

/-- The handler that does nothing, from a state in which the request is still pending. -/
theorem witness_TrapThenMret :
    step trapping = .next trapping.takeTrap ∧ trapping.csrs.mstatus &&& 0xFFFFFF77 = 0 ∧
    trapping.takeTrap.halted = false ∧ trapping.takeTrap.csrs.mie.getLsbD 11 = true ∧
    trapping.takeTrap.csrs.mip.getLsbD 11 = true :=
  ⟨rfl, by decide, by decide, by decide, by decide⟩

theorem witness_OnlyEbreakAndTheHostHalt :
    (∃ t, step (State.reset.setHalted true) = .next t) ∧
    (∃ t, step (State.reset.withFetchWord 32 0x00100073) = .next t ∧
      (State.reset.withFetchWord 32 0x00100073).halted = false ∧ t.halted = true) ∧
    State.reset.haltOnEbreak = true ∧ (∃ t, State.reset.enqueue 0 0x61 = .next t) ∧
    construct Platform.default Launch.default = .ok State.reset :=
  ⟨⟨_, rfl⟩, ⟨_, rfl, rfl, by decide⟩, rfl, ⟨_, rfl⟩, by decide⟩

theorem witness_OnlyWfiWaitsOnlyTrapWakes :
    (∃ t, step (State.reset.withFetchWord 32 0x10500073) = .next t ∧
      (State.reset.withFetchWord 32 0x10500073).waiting = false ∧ t.waiting = true) ∧
    (∃ t, step { trapping with waiting := true } = .next t ∧ t.waiting = false) ∧
    (∃ t, step { State.reset with waiting := true } = .next t ∧ t.waiting = true) ∧
    HostCall.setHalted true ≠ .step ∧ (∃ t, applyCall State.reset (.setHalted true) = .next t) ∧
    construct Platform.default Launch.default = .ok State.reset :=
  ⟨⟨_, rfl, rfl, by decide⟩, ⟨_, rfl, by decide⟩, ⟨_, rfl, by decide⟩, by decide, ⟨_, rfl⟩, by decide⟩

/-- An LR.W, a write, and an instruction that is neither. -/
theorem witness_ReservationChanges :
    (∃ t, exec (.lrW 5 10 0 0) amoStart = .next t) ∧
    (∃ t, exec (.sw 10 6 0) amoStart = .next t ∧ writesMemory (.sw 10 6 0) = true) ∧
    (∃ t, exec (.lw 5 10 0) amoStart = .next t ∧ isLr (.lw 5 10 0) = false ∧
      writesMemory (.lw 5 10 0) = false) :=
  ⟨⟨_, rfl⟩, ⟨_, rfl, by decide⟩, ⟨_, rfl, by decide, by decide⟩⟩

theorem witness_OutputsOnlyGrow :
    (∃ t, applyCall State.reset .step = .next t) ∧ (∃ t, applyCall State.reset (.enqueue 0 0x61) = .next t) ∧
    State.reset.io[0]? = some IoState.reset := ⟨⟨_, rfl⟩, ⟨_, rfl⟩, rfl⟩

/-- A step that is idle, one that meets a word that is none, a call that is no step. -/
theorem witness_RegisterFile :
    (∃ t, step (State.reset.setHalted true) = .next t ∧ ¬ Running (State.reset.setHalted true)) ∧
    (∃ t, step State.reset = .next t) ∧ State.reset.memRead State.reset.pc .word = .ok (0, State.reset) ∧
    decodeWord 0 = .error (.unrecognised 0) ∧ HostCall.enqueue 0 0x61 ≠ .step ∧
    (∃ t, applyCall State.reset (.enqueue 0 0x61) = .next t) :=
  ⟨⟨_, rfl, fun h => by simpa using h.notHalted⟩, ⟨_, rfl⟩, by decide, by decide, by decide, _, rfl⟩

/-- An ADD, a store with the pending bit at 0, a CSRRW. -/
theorem witness_CsrsChangeOnlyByTheirInstructions :
    (∃ t, exec (.add 3 1 2) amoStart = .next t ∧ isZicsr (.add 3 1 2) = false ∧
      Instr.add 3 1 2 ≠ .mret ∧ writesMemory (.add 3 1 2) = false) ∧
    (∃ t, exec (.sw 10 6 0) amoStart = .next t ∧ writesMemory (.sw 10 6 0) = true ∧
      amoStart.csrs.mip.getLsbD 11 = false) ∧
    (∃ t, exec (.csrrw 5 6 0x300) amoStart = .next t ∧ isZicsr (.csrrw 5 6 0x300) = true ∧
      (CsrBank.get amoStart.cfg.wmask .mstatus).getLsbD 0 = false) :=
  ⟨⟨_, rfl, by decide, by decide, by decide⟩, ⟨_, rfl, by decide, by decide⟩,
    ⟨_, rfl, by decide, by decide⟩⟩

/-- A fetch that faults, and an instruction that does. -/
theorem witness_FaultsLeaveOnlyPc :
    step (startAt 0x20000000 []) = .fault (.unmappedAddress 0x20000000 0x20000000) ∧
    step (State.reset.withFetchWord 32 0xC00022F3) = .fault (.unsupportedCsr 0xC00 4) := ⟨rfl, rfl⟩

theorem witness_WhichInstructionsStop :
    exec (.lw 5 2 0) (startAt 0x100 [(2, 0x20000000)]) = .fault (.unmappedAddress 0x20000000 0x104) ∧
    exec (.csrrw 5 6 0xC00) State.reset = .fault (.unsupportedCsr 0xC00 4) ∧
    exec (.lw 5 2 0) (startAt 0 [(2, 0x10000000)]) = .refused (.ioUnspecified 0x10000000 4 false) ∧
    exec (.lrW 5 2 0 0) (startAt 0 [(2, 2)]) = .refused (.atomicMisaligned 2) ∧
    usesBus .mret = false ∧ isZicsr .mret = false := ⟨rfl, rfl, rfl, rfl, rfl, rfl⟩

theorem witness_InvariantPreserved : Inv State.reset ∧ ∃ t, applyCall State.reset .step = .next t :=
  ⟨⟨by decide, by decide, by decide, by decide, by decide, nofun⟩, _, rfl⟩

theorem witness_InvariantAfterReset :
    construct Platform.default Launch.default = .ok State.reset := by decide

theorem witness_StatusAndPendingValues :
    State.reset.cfg.wmask = CsrBank.defaultMasks ∧
    State.reset.csrs.mstatus ∈ ([0x00, 0x08, 0x80, 0x88] : List Word) ∧
    State.reset.csrs.mip ∈ ([0x000, 0x800] : List Word) ∧
    ∃ t, runCalls [.step, .enqueue 0 0x61, .setHalted true, .step] State.reset = .next t :=
  ⟨rfl, by decide, by decide, _, rfl⟩

/-- A store over the next instruction. -/
theorem witness_StoreIsSeenByTheNextFetch :
    let s := startAt 0x100 [(2, 0x100), (5, 0x00500093)]
    Memory.wf s.ram = true ∧ InRam s.cfg (s.effectiveAddress 2 4) 4 ∧
    ∃ t, exec (.sw 2 5 4) s = .next t ∧ Running t ∧ t.pc = s.effectiveAddress 2 4 ∧
      decodeWord (s.readReg 5) = .ok (.addi 1 0 5) :=
  ⟨by decide, by unfold InRam; decide, _, rfl, ⟨rfl, by decide, rfl⟩, by decide, by decide⟩

/-- An LR.W in the last word of RAM, an ADDI, and the SC.W's address register as it was. -/
theorem witness_LrScForwardProgress :
    let s := startAt 0 [(10, 0xFFFC)]
    Memory.wf s.ram = true ∧ Aligned4 (s.readReg 10) ∧ InRam s.cfg (s.readReg 10) 4 ∧
    (∀ i ∈ [Instr.addi 7 0 1], isLr i = false ∧ writesMemory i = false) ∧
    ∃ t, exec (.lrW 5 10 0 0) s = .next t ∧
      ∃ u, execAll [.addi 7 0 1] t = .next u ∧ u.readReg 10 = s.readReg 10 :=
  ⟨by decide, by unfold Aligned4; decide, by unfold InRam; decide, by decide, _, rfl, _, rfl, by decide⟩

theorem witness_WaitingWithoutInterruptsIsForever :
    let s := { State.reset with waiting := true }
    s.waiting = true ∧ ¬ (s.csrs.mstatus.getLsbD 3 = true ∧ s.csrs.mie.getLsbD 11 = true) ∧
    ∃ t, runCalls [.step, .enqueue 0 0x61, .step] s = .next t :=
  ⟨rfl, by decide, _, rfl⟩

theorem witness_EnqueueEvent : State.reset.io[0]? = some IoState.reset := rfl

/-- The interrupt enabled and no request yet; running and halted. -/
theorem witness_InputEventTrapsAtTheNextStep :
    let s := withCsrs [(.mstatus, 0x08), (.mie, 0x800), (.mtvec, 0x80)] (startAt 0x100 [])
    (∃ t, s.enqueue 0 0x61 = .next t) ∧ (∃ t, (s.setHalted true).enqueue 0 0x61 = .next t) ∧
    s.csrs.mstatus.getLsbD 3 = true ∧ s.csrs.mie.getLsbD 11 = true ∧ s.halted = false ∧
    (s.setHalted true).halted = true :=
  ⟨⟨_, rfl⟩, ⟨_, rfl⟩, by decide, by decide, rfl, rfl⟩

theorem witness_ResetState :
    ∃ s, construct Platform.default { Launch.default with entry := 0x80, image := [1, 2], resetX := 7 } =
      .ok s := ⟨_, rfl⟩

/-- A configuration that builds a machine at every bound at once, and one for each bound broken. -/
theorem witness_WhichConfigurationsBuildAMachine :
    let p := { Platform.default with ramSize := 1, ioBases := [1, 10, 0xFFFFFFF7], ioSize := 9 }
    let l := { Launch.default with image := [0xFF] }
    (∃ s, construct p l = .ok s) ∧
    construct { p with ramSize := 0 } l = .error (.emptyDevice (0, 0)) ∧
    construct { p with ioSize := 8 } l = .error (.ioWindowTooSmall 8) ∧
    construct { p with ioBases := [0xFFFFFFF8] } l = .error (.beyondAddressSpace (0xFFFFFFF8, 9)) ∧
    construct { p with ioBases := [0] } l = .error (.overlap (0, 1) (0, 9)) ∧
    construct { p with ioBases := [1, 9] } l = .error (.overlap (1, 9) (9, 9)) ∧
    construct p { l with image := [1, 2] } = .error (.imageTooLong 2) :=
  ⟨⟨_, rfl⟩, by decide, by decide, by decide, by decide, by decide, by decide⟩

end Sys2Proof.Tests
end

section
/-!
The run flags `halted`, `haltOnEbreak` and `waiting` (10_state R26, R28): which instruction and which step
changes one. `exec_runFlags` says it once for all 66 instructions, `step_runFlags` for the step; the two
statements about the flags follow from them.
-/

namespace Sys2Proof.Proofs

open Sys2Proof.Machine Sys2Proof.Safety

/-- The word at `PC` can be read and decodes to `i`. -/
def Fetches (s : State) (i : Instr) : Prop :=
  ∃ w u, s.memRead s.pc .word = .ok (w, u) ∧ decodeWord w = .ok i

/-! ### What leaves the run flags -/

theorem sameRunFlags_trans {s t u : State} (h : SameRunFlags s t) (h' : SameRunFlags t u) :
    SameRunFlags s u :=
  ⟨h'.halted.trans h.halted, h'.haltOnEbreak.trans h.haltOnEbreak, h'.waiting.trans h.waiting⟩

theorem sameRunFlags_of_memRead {s t : State} {addr : Word} {sz : Size} {v : Word}
    (h : s.memRead addr sz = .ok (v, t)) : SameRunFlags s t := by
  obtain ⟨-, -, -, halted, haltOnEbreak, waiting, -⟩ := memRead_frame h
  exact ⟨halted, haltOnEbreak, waiting⟩

theorem sameRunFlags_of_memWrite {s t : State} {addr : Word} {sz : Size} {v : Word}
    (h : s.memWrite addr sz v = .ok t) : SameRunFlags s t := by
  obtain ⟨-, -, -, halted, haltOnEbreak, waiting, -⟩ := memWrite_frame h
  exact ⟨halted, haltOnEbreak, waiting⟩

theorem sameRunFlags_of_enqueue {s t : State} {k : Nat} {c : Byte} (h : s.enqueue k c = .next t) :
    SameRunFlags s t := by
  obtain ⟨-, rfl⟩ := enqueue_next h
  exact ⟨by simp, by simp, by simp⟩

/-! ### Instructions -/

/-- EBREAK halts if `haltOnEbreak` says so (R236), WFI waits (R237); no other instruction touches a run
flag. -/
theorem exec_runFlags {i : Instr} {s t : State} (h : exec i s = .next t) :
    SameRunFlags s t ∨
    (i = .ebreak ∧ SameRunFlags (s.setHalted (s.halted || s.haltOnEbreak)) t) ∨
    (i = .wfi ∧ SameRunFlags { s with waiting := true } t) := by
  cases exec_next h with
  | plain _ _ _ _ _ _ _ _ eq | failed _ _ _ _ _ _ _ eq | csr _ _ _ _ _ _ eq | syscall _ eq
  | trapReturn _ eq => subst eq; exact .inl ⟨rfl, rfl, rfl⟩
  | load _ _ _ _ _ _ _ read eq | reserve _ _ _ _ _ _ _ _ read eq =>
    subst eq
    exact .inl (sameRunFlags_trans (sameRunFlags_of_memRead read) ⟨rfl, rfl, rfl⟩)
  | store _ _ _ _ _ write eq | conditional _ _ _ _ _ _ _ _ write eq =>
    subst eq
    exact .inl (sameRunFlags_trans (sameRunFlags_of_memWrite write) ⟨rfl, rfl, rfl⟩)
  | amo _ _ _ _ _ _ _ _ read write eq =>
    subst eq
    have toRead := sameRunFlags_of_memRead read
    have toWrite := sameRunFlags_of_memWrite write
    exact .inl (sameRunFlags_trans (sameRunFlags_trans toRead toWrite) ⟨rfl, rfl, rfl⟩)
  | breakpoint kind eq => subst eq; exact .inr (.inl ⟨kind, rfl, rfl, rfl⟩)
  | wait kind eq => subst eq; exact .inr (.inr ⟨kind, rfl, rfl, rfl⟩)

/-! ### Steps -/

/-- A step leaves the run flags, takes the trap, or has fetched an EBREAK or a WFI. -/
theorem step_runFlags {s t : State} (h : step s = .next t) :
    SameRunFlags s t ∨
    (s.trapPending = true ∧ t = s.takeTrap) ∨
    (Fetches s .ebreak ∧ SameRunFlags (s.setHalted (s.halted || s.haltOnEbreak)) t) ∨
    (Fetches s .wfi ∧ SameRunFlags { s with waiting := true } t) := by
  rcases step_next h with ⟨-, rfl⟩ | ⟨-, pending, trap⟩ | ⟨-, -, -, rfl⟩ |
    ⟨-, w, u, read, ⟨i, decoded, run⟩ | ⟨-, rfl⟩⟩
  · exact .inl ⟨rfl, rfl, rfl⟩
  · exact .inr (.inl ⟨pending, trap⟩)
  · exact .inl ⟨rfl, rfl, rfl⟩
  · have fetch := sameRunFlags_of_memRead read
    rcases exec_runFlags run with same | ⟨rfl, halts⟩ | ⟨rfl, waits⟩
    · exact .inl (sameRunFlags_trans fetch same)
    · refine .inr (.inr (.inl ⟨⟨w, u, read, decoded⟩, sameRunFlags_trans ?_ halts⟩))
      exact ⟨by simp [fetch.halted, fetch.haltOnEbreak], fetch.haltOnEbreak, fetch.waiting⟩
    · refine .inr (.inr (.inr ⟨⟨w, u, read, decoded⟩, sameRunFlags_trans ?_ waits⟩))
      exact ⟨fetch.halted, fetch.haltOnEbreak, rfl⟩
  · exact .inl (sameRunFlags_trans (sameRunFlags_of_memRead read) ⟨rfl, rfl, rfl⟩)

/-- R26: a step halts a CPU only by an EBREAK with `haltOnEbreak` set. -/
theorem step_sets_halted {s t : State} (h : step s = .next t) (before : s.halted = false)
    (after : t.halted = true) : s.haltOnEbreak = true ∧ Fetches s .ebreak := by
  rcases step_runFlags h with same | ⟨-, rfl⟩ | ⟨fetched, halts⟩ | ⟨-, waits⟩
  · simp [same.halted, before] at after
  · simp [before] at after
  · exact ⟨by simpa [halts.halted, before] using after, fetched⟩
  · simp [waits.halted, before] at after

/-- R28: a step sets `waiting` only by a WFI. -/
theorem step_sets_waiting {s t : State} (h : step s = .next t) (before : s.waiting = false)
    (after : t.waiting = true) : Fetches s .wfi := by
  rcases step_runFlags h with same | ⟨-, rfl⟩ | ⟨-, halts⟩ | ⟨fetched, -⟩
  · simp [same.waiting, before] at after
  · simp at after
  · simp [halts.waiting, before] at after
  · exact fetched

/-- R28, R133: a step of a waiting CPU does nothing, or is the trap entry. -/
theorem step_of_waiting {s t : State} (h : step s = .next t) (waiting : s.waiting = true) :
    (t = s ∧ (s.halted = true ∨ ¬ s.trapPending = true)) ∨
    (s.trapPending = true ∧ t = s.takeTrap) := by
  rcases step_next h with ⟨halted, same⟩ | ⟨-, pending, trap⟩ | ⟨-, -, idle, same⟩ | ⟨hr, -⟩
  · exact .inl ⟨same, .inl halted⟩
  · exact .inr ⟨pending, trap⟩
  · exact .inl ⟨same, .inr (by simp [idle])⟩
  · simp [hr.notWaiting] at waiting

/-! ### The host -/

/-- R300, R302: no input event and no host action touches `waiting`. -/
theorem applyCall_waiting {s t : State} {c : HostCall} (hc : c ≠ .step)
    (h : applyCall s c = .next t) : t.waiting = s.waiting := by
  cases c with
  | step => exact absurd rfl hc
  | enqueue k c => exact (sameRunFlags_of_enqueue h).waiting
  | setHalted b => cases h; simp
  | setHaltOnEbreak b => cases h; simp

/-- R54: after reset the CPU is neither halted nor waiting. -/
theorem construct_runFlags {p : Platform} {l : Launch} {s : State} (h : construct p l = .ok s) :
    s.halted = false ∧ s.waiting = false := by
  obtain ⟨-, -, rfl⟩ := (construct_ok_iff p l s).mp h
  exact ⟨rfl, rfl⟩

/-! ### The statements -/

/-- Settles O41, from what a step and an input event can do to `halted`. -/
theorem onlyEbreakAndTheHostHalt : Obligations.OnlyEbreakAndTheHostHalt := by
  refine ⟨fun s t h => ⟨fun halted => ?_, step_sets_halted h⟩, fun s enabled => ?_,
    fun s t k c h => (sameRunFlags_of_enqueue h).halted, fun s b => rfl,
    State.setHaltOnEbreak_halted, fun p l s h => (construct_runFlags h).1⟩
  · rw [step_halted halted] at h
    cases h
    rfl
  · exact ⟨_, rfl, by simp [enabled]⟩

/-- Settles O42, from what a step can do to `waiting`, and to a CPU that waits. -/
theorem onlyWfiWaitsOnlyTrapWakes : Obligations.OnlyWfiWaitsOnlyTrapWakes := by
  refine ⟨fun s t h => ⟨step_sets_waiting h, fun waiting => ?_⟩, fun s => ⟨_, rfl, rfl⟩,
    fun s t c => applyCall_waiting, fun p l s h => (construct_runFlags h).2⟩
  rw [← trapPending_iff]
  rcases step_of_waiting h waiting with idle | ⟨pending, rfl⟩
  · exact .inl idle
  · exact .inr ⟨State.takeTrap_waiting s, pending⟩

end Sys2Proof.Proofs
end

section
/-!
The input queue of an IO device (20_memory R78): what `ioRead` answers at offset 8, and what a bus read makes
of it.
-/

namespace Sys2Proof.Proofs

open Sys2Proof.Machine Sys2Proof.Safety Sys2Proof.Claims

theorem ioRead_input_nil {d : IoState} (sh : Bool) (empty : d.inFifo = []) :
    ioRead sh d 8 .byte = some (0, d) := by
  simp [ioRead, empty]

theorem ioRead_input_cons {d : IoState} {c : Byte} {rest : List Byte} (sh : Bool)
    (queue : d.inFifo = c :: rest) :
    ioRead sh d 8 .byte = some (c.setWidth 32, { d with inFifo := rest }) := by
  simp [ioRead, queue]

/-- A device state that exists is the one the bus finds. -/
theorem ioState_of_getElem? {s : State} {k : Nat} {d : IoState} (h : s.io[k]? = some d) :
    s.ioState k = d := by
  simp [State.ioState, h]

/-- A defined read of an IO device answers its value and stores its new state (R66). -/
theorem memRead_of_ioRead {s : State} {a : Word} {sz : Size} {k off : Nat} {d e : IoState} {v : Word}
    (wf : Platform.wf s.cfg = true) (inIo : InIo s.cfg a sz.bytes k off) (device : s.io[k]? = some d)
    (read : ioRead s.cfg.ioShadow d off sz = some (v, e)) :
    s.memRead a sz = .ok (v, s.setIoState k e) := by
  rw [memRead_io wf inIo, ioState_of_getElem? device, read]

/-- Zero-extension keeps the number (R9). -/
theorem setWidth_eq_pattern {n : Nat} (b : BitVec n) : b.setWidth 32 = pattern b.toNat := by
  rw [pattern, BitVec.ofInt_natCast, BitVec.ofNat_toNat]

/-- Settles O17, from the two answers of the device at offset 8. -/
theorem ioInputRead : Obligations.IoInputRead := by
  intro s a k d wf inIo device
  refine ⟨fun empty => ?_, fun c rest queue => ?_⟩
  · have read := memRead_of_ioRead wf inIo device (ioRead_input_nil _ empty)
    rwa [← ioState_of_getElem? device, State.setIoState_self] at read
  · rw [← setWidth_eq_pattern]
    exact memRead_of_ioRead wf inIo device (ioRead_input_cons _ queue)

end Sys2Proof.Proofs
end

section
/-!
Idle steps (40_step_cycle R131, R133), and the pending bit an input event sets whatever the CPU does
(20_memory R79).
-/

namespace Sys2Proof.Proofs

open Sys2Proof.Machine Sys2Proof.Safety

/-- R79, R259: an input event leaves the external interrupt pending, in every state. -/
theorem enqueue_sets_pending {s t : State} {k : Nat} {c : Byte} (h : s.enqueue k c = .next t) :
    t.csrs.mip.getLsbD 11 = true := by
  obtain ⟨-, rfl⟩ := enqueue_next h
  rw [State.signalIrq_csrs]
  exact getLsbD_setBit _ bitExternal true 11 (by decide)

/-- Settles O36, from the idle branches of the step and the request an input event raises. -/
theorem idleSteps : Obligations.IdleSteps := by
  refine fun s => ⟨step_halted, fun waiting notPending => ?_, fun t k c => enqueue_sets_pending⟩
  rw [← trapPending_iff, Bool.not_eq_true] at notPending
  exact step_waiting waiting notPending

end Sys2Proof.Proofs
end

section
/-!
Base integer computational instructions that read no shift amount (41_integer_computational R153 to R158,
R162 to R171): the result of each operation on 32-bit patterns as arithmetic on the numbers they stand for,
and how an instruction of the two formats decodes and completes.
-/

namespace Sys2Proof.Proofs

open Sys2Proof.Machine Sys2Proof.Safety Sys2Proof.Claims

/-! ### Decoding and completion -/

/-- R112, R114: the word the encoder builds is the instruction. -/
theorem decodes_of_encode {i : Instr} {w : Word} (law : Laws.Encoding.Statement i) (wf : i.wf = true)
    (word : encode i = w) : Decodes w i := by
  obtain ⟨r, row, hmatch, build⟩ := law wf
  rw [Decodes, ← word, decodeWord_of_row row hmatch, build]

/-- An instruction whose last action is the write of `x[rd]` completes (R134, R137 (ii), R138). -/
theorem completes_of_retireReg {i : Instr} {s : State} {rd : RegId} {v : Word}
    (run : exec i s = s.retireReg rd v) : Completes i s rd v := by
  rw [Completes, CompletesOver, run]
  exact s.retireReg_spec rd v

/-- An instruction that runs as the operation `f` on two registers. `f` is explicit: unification does not
find it under `exec`. -/
theorem completes_of_opReg (f : Word → Word → Word) {i : Instr} {s : State} {rd rs1 rs2 : RegId}
    {v : Word} (run : exec i s = opReg f rd rs1 rs2 s) (value : f (s.readReg rs1) (s.readReg rs2) = v) :
    Completes i s rd v :=
  completes_of_retireReg (by rw [run, opReg, value])

/-- As `completes_of_opReg`, for a register and the sign-extended immediate. -/
theorem completes_of_opImm (f : Word → Word → Word) {i : Instr} {s : State} {rd rs1 : RegId}
    {imm : BitVec 12} {v : Word} (run : exec i s = opImm f rd rs1 imm s)
    (value : f (s.readReg rs1) (immISValue imm) = v) : Completes i s rd v :=
  completes_of_retireReg (by rw [run, opImm, value])

/-! ### Results as arithmetic -/

/-- The sign-extended immediate is the pattern of its signed value (R103). -/
theorem immISValue_eq_pattern (imm : BitVec 12) : immISValue imm = pattern imm.toInt := by
  rw [← immISValue_toInt, pattern, BitVec.ofInt_toInt]

theorem add_eq_pattern (a b : Word) : a + b = pattern (a.toInt + b.toInt) := by
  rw [pattern, BitVec.ofInt_add, BitVec.ofInt_toInt, BitVec.ofInt_toInt]

theorem sub_eq_pattern (a b : Word) : a - b = pattern (a.toInt - b.toInt) := by
  rw [pattern, Int.sub_eq_add_neg, BitVec.ofInt_add, BitVec.ofInt_neg, BitVec.ofInt_toInt,
    BitVec.ofInt_toInt, BitVec.sub_eq_add_neg]

theorem bitwise_xor (a b : Word) : Bitwise xor a b (a ^^^ b) := fun _ _ => BitVec.getLsbD_xor

theorem bitwise_or (a b : Word) : Bitwise or a b (a ||| b) := fun _ _ => BitVec.getLsbD_or

theorem bitwise_and (a b : Word) : Bitwise and a b (a &&& b) := fun _ _ => BitVec.getLsbD_and

/-! ### The statements -/

/-- Settles O6: each operation on the immediate, read as the pattern of its signed value. -/
theorem registerImmediateResults : Obligations.RegisterImmediateResults := by
  intro s rd rs1 imm a i
  have imm_eq : immISValue imm = i := immISValue_eq_pattern imm
  refine ⟨⟨decodes_of_encode (Laws.Encoding.addi rd rs1 imm) rfl rfl, ?addi⟩,
    ⟨decodes_of_encode (Laws.Encoding.slti rd rs1 imm) rfl rfl, ?slti⟩,
    ⟨decodes_of_encode (Laws.Encoding.sltiu rd rs1 imm) rfl rfl, ?sltiu⟩,
    ⟨decodes_of_encode (Laws.Encoding.xori rd rs1 imm) rfl rfl, a ^^^ i, bitwise_xor a i, ?xori⟩,
    ⟨decodes_of_encode (Laws.Encoding.ori rd rs1 imm) rfl rfl, a ||| i, bitwise_or a i, ?ori⟩,
    ⟨decodes_of_encode (Laws.Encoding.andi rd rs1 imm) rfl rfl, a &&& i, bitwise_and a i, ?andi⟩⟩
  case addi => exact completes_of_opImm (· + ·) rfl (by rw [add_eq_pattern, immISValue_toInt])
  case slti =>
    exact completes_of_opImm (fun a b => flagWord (signedLess a b)) rfl
      (by rw [flagWord_signedLess, immISValue_toInt, truth])
  case sltiu =>
    exact completes_of_opImm (fun a b => flagWord (unsignedLess a b)) rfl
      (by rw [flagWord_unsignedLess, imm_eq, truth])
  case xori => exact completes_of_opImm (· ^^^ ·) rfl (by rw [imm_eq])
  case ori => exact completes_of_opImm (· ||| ·) rfl (by rw [imm_eq])
  case andi => exact completes_of_opImm (· &&& ·) rfl (by rw [imm_eq])

/-- Settles O8: each operation on the two registers. -/
theorem registerRegisterResults : Obligations.RegisterRegisterResults := by
  intro s rd rs1 rs2 a b
  refine ⟨⟨decodes_of_encode (Laws.Encoding.add rd rs1 rs2) rfl rfl, ?add⟩,
    ⟨decodes_of_encode (Laws.Encoding.sub rd rs1 rs2) rfl rfl, ?sub⟩,
    ⟨decodes_of_encode (Laws.Encoding.slt rd rs1 rs2) rfl rfl, ?slt⟩,
    ⟨decodes_of_encode (Laws.Encoding.sltu rd rs1 rs2) rfl rfl, ?sltu⟩,
    ⟨decodes_of_encode (Laws.Encoding.xor rd rs1 rs2) rfl rfl, a ^^^ b, bitwise_xor a b, ?xor⟩,
    ⟨decodes_of_encode (Laws.Encoding.or rd rs1 rs2) rfl rfl, a ||| b, bitwise_or a b, ?or⟩,
    ⟨decodes_of_encode (Laws.Encoding.and rd rs1 rs2) rfl rfl, a &&& b, bitwise_and a b, ?and⟩⟩
  case add => exact completes_of_opReg (· + ·) rfl (add_eq_pattern a b)
  case sub => exact completes_of_opReg (· - ·) rfl (sub_eq_pattern a b)
  case slt =>
    exact completes_of_opReg (fun a b => flagWord (signedLess a b)) rfl
      (flagWord_signedLess a b)
  case sltu =>
    exact completes_of_opReg (fun a b => flagWord (unsignedLess a b)) rfl
      (flagWord_unsignedLess a b)
  case xor => exact completes_of_opReg (· ^^^ ·) rfl rfl
  case or => exact completes_of_opReg (· ||| ·) rfl rfl
  case and => exact completes_of_opReg (· &&& ·) rfl rfl

end Sys2Proof.Proofs
end

section
/-!
The input event (48_host_interface R301): what it leaves when the device exists.
-/

namespace Sys2Proof.Proofs

open Sys2Proof.Machine

/-- R301: an existing device accepts the character; the state left is `s` with its queue longer and the
pending bit of `mip` set. -/
theorem enqueue_of_getElem? {s : State} {k : Nat} {d : IoState} (device : s.io[k]? = some d)
    (c : Byte) :
    s.enqueue k c = .next { s with
      io := s.io.set k { d with inFifo := d.inFifo ++ [c] }
      csrs := { s.csrs with mip := setBit s.csrs.mip bitExternal true } } := by
  obtain ⟨inRange, -⟩ := List.getElem?_eq_some_iff.mp device
  rw [State.enqueue, if_pos inRange, ioState_of_getElem? device]
  rfl

/-- Settles O55, from the state an accepted character leaves and the bits of `setBit`. -/
theorem enqueueEvent : Obligations.EnqueueEvent := by
  refine fun s k c d device =>
    ⟨setBit s.csrs.mip bitExternal true, fun j _ => ?_, enqueue_of_getElem? device c⟩
  rw [getLsbD_setBit _ bitExternal true j (by decide), bitExternal]
  by_cases external : j = 11 <;> simp [external]

end Sys2Proof.Proofs
end

section
/-!
The trap entry and the return from it (60_exceptions R262, R263, R269): what the two make of the bits of
`mstatus`, and the trap an input event leads to.
-/

namespace Sys2Proof.Proofs

open Sys2Proof.Machine Sys2Proof.Safety

/-! ### The bits of `mstatus` -/

/-- R262 (c): the trap entry saves MIE in MPIE and clears MIE. -/
theorem getLsbD_takeTrap_mstatus (s : State) (j : Nat) :
    s.takeTrap.csrs.mstatus.getLsbD j =
      if j = bitMIE then false else if j = bitMPIE then s.mieFlag else s.csrs.mstatus.getLsbD j := by
  rw [State.takeTrap_mstatus, getLsbD_setBit _ bitMIE _ _ (by decide),
    getLsbD_setBit _ bitMPIE _ _ (by decide)]

/-- R238: the return takes MIE from MPIE and sets MPIE. -/
theorem getLsbD_trapReturn_mstatus (s : State) (j : Nat) :
    s.trapReturn.csrs.mstatus.getLsbD j =
      if j = bitMPIE then true else if j = bitMIE then s.mpieFlag else s.csrs.mstatus.getLsbD j := by
  rw [State.trapReturn_mstatus, getLsbD_setBit _ bitMPIE _ _ (by decide),
    getLsbD_setBit _ bitMIE _ _ (by decide)]

/-- R263: a handler that keeps the trap's `mstatus` returns with MIE as it was before the trap, and MPIE
at 1. -/
theorem getLsbD_mstatus_after_handler {s h : State}
    (mstatus : h.csrs.mstatus = s.takeTrap.csrs.mstatus) (j : Nat) :
    h.trapReturn.csrs.mstatus.getLsbD j = if j = bitMPIE then true else s.csrs.mstatus.getLsbD j := by
  have saved : h.mpieFlag = s.mieFlag := by
    rw [State.mpieFlag, mstatus, getLsbD_takeTrap_mstatus, if_neg (by decide), if_pos rfl]
  rw [getLsbD_trapReturn_mstatus, saved, mstatus, getLsbD_takeTrap_mstatus]
  by_cases mie : j = bitMIE
  · rw [mie, if_pos rfl, State.mieFlag]
  · by_cases mpie : j = bitMPIE <;> simp [mie, mpie]

/-- Bits MIE and MPIE are all of the mask 0x88. -/
theorem getLsbD_mieMpieMask : ∀ j < 32,
    (0x88 : Word).getLsbD j = (decide (j = bitMIE) || decide (j = bitMPIE)) := by decide

/-- R263: with MIE the only bit in use beside MPIE before the trap, the return leaves exactly the two. -/
theorem mstatus_after_handler {s h : State} (mstatus : h.csrs.mstatus = s.takeTrap.csrs.mstatus)
    (enabled : s.csrs.mstatus.getLsbD bitMIE = true) (noOther : s.csrs.mstatus &&& ~~~0x88 = 0) :
    h.trapReturn.csrs.mstatus = 0x88 := by
  refine BitVec.eq_of_getLsbD_eq fun j inWord => ?_
  rw [getLsbD_mstatus_after_handler mstatus, getLsbD_mieMpieMask j inWord]
  by_cases mpie : j = bitMPIE
  · simp [mpie]
  by_cases mie : j = bitMIE
  · simp [mie, enabled]
  · have clear : (s.csrs.mstatus &&& ~~~0x88).getLsbD j = false := by
      rw [noOther]
      exact BitVec.getLsbD_zero
    rw [BitVec.getLsbD_and, BitVec.getLsbD_not, getLsbD_mieMpieMask j inWord] at clear
    simpa [mie, mpie, inWord] using clear

/-! ### Entering, returning, entering again -/

/-- R37, R38: aligning an aligned address changes nothing. -/
@[simp] theorem alignDown4_alignDown4 (v : Word) : alignDown4 (alignDown4 v) = alignDown4 v := by
  rw [alignDown4, alignDown4, BitVec.and_assoc, BitVec.and_self]

/-- R262: after the trap entry the CPU runs, with interrupts disabled. -/
theorem running_takeTrap {s : State} (notHalted : s.halted = false) : Running s.takeTrap := by
  refine ⟨notHalted, fun ⟨enabled, _⟩ => ?_, State.takeTrap_waiting s⟩
  have disabled : s.takeTrap.csrs.mstatus.getLsbD 3 = false := getLsbD_takeTrap_mstatus s bitMIE
  rw [disabled] at enabled
  cases enabled

/-- R260, R263: an interrupt the handler leaves enabled in `mie` and pending is pending again after its
MRET. -/
theorem trapPending_after_handler {s h : State} (mstatus : h.csrs.mstatus = s.takeTrap.csrs.mstatus)
    (enabled : s.csrs.mstatus.getLsbD bitMIE = true) (meie : h.csrs.mie.getLsbD 11 = true)
    (meip : h.csrs.mip.getLsbD 11 = true) : h.trapReturn.trapPending = true := by
  refine (trapPending_iff _).mpr ⟨?_, meie, meip⟩
  exact (getLsbD_mstatus_after_handler mstatus bitMIE).trans enabled

/-- R79, R301: an input event touches nothing that the trap entry reads. -/
theorem enqueue_keeps_trap_inputs {s t : State} {k : Nat} {c : Byte} (h : s.enqueue k c = .next t) :
    t.pc = s.pc ∧ t.csrs.mstatus = s.csrs.mstatus ∧ t.csrs.mie = s.csrs.mie ∧
      t.csrs.mtvec = s.csrs.mtvec := by
  obtain ⟨-, rfl⟩ := enqueue_next h
  simp

/-! ### The statements -/

/-- Settles O40: MRET undoes what the trap entry did to `mstatus` and `PC`. -/
theorem trapThenMret : Obligations.TrapThenMret := by
  intro s notHalted enabled meie meip
  refine ⟨s.takeTrap, step_trap notHalted ((trapPending_iff s).mpr ⟨enabled, meie, meip⟩),
    fun h mstatus mepc => ?_⟩
  have resumes : h.trapReturn.pc = alignDown4 s.pc := mepc
  refine ⟨h.trapReturn, rfl, ?_, ?_, ?_, ?_, fun running meie' meip' => ?_⟩
  · rw [resumes, alignDown4_toNat]
  · exact (getLsbD_mstatus_after_handler mstatus 3).trans enabled
  · exact getLsbD_mstatus_after_handler mstatus 7
  · exact mstatus_after_handler mstatus enabled
  · refine ⟨h.trapReturn.takeTrap,
      step_trap running (trapPending_after_handler mstatus enabled meie' meip'), rfl, ?_⟩
    rw [State.takeTrap_mepc, resumes, alignDown4_alignDown4]

/-- Settles O56: the event leaves the trap pending, and the first step that is not halted takes it. -/
theorem inputEventTrapsAtTheNextStep : Obligations.InputEventTrapsAtTheNextStep := by
  intro s t k c event enabled meie
  obtain ⟨pc, mstatus, mie, mtvec⟩ := enqueue_keeps_trap_inputs event
  have meip : t.csrs.mip.getLsbD 11 = true := enqueue_sets_pending event
  have pending : t.trapPending = true :=
    (trapPending_iff t).mpr ⟨mstatus ▸ enabled, mie ▸ meie, meip⟩
  have halted : t.halted = s.halted := (sameRunFlags_of_enqueue event).halted
  have saved : t.takeTrap.csrs.mepc.toNat = s.pc.toNat / 4 * 4 := by
    rw [State.takeTrap_mepc, alignDown4_toNat, pc]
  refine ⟨fun running => ?_, fun stopped => ⟨step_halted (halted.trans stopped), meip, ?_⟩⟩
  · have notHalted : t.halted = false := halted.trans running
    refine ⟨t.takeTrap, step_trap notHalted pending, rfl, running_takeTrap notHalted, ?_, saved⟩
    rw [State.takeTrap_pc, alignDown4_toNat, mtvec]
  · exact ⟨(t.setHalted false).takeTrap, step_trap rfl pending, rfl, saved⟩

end Sys2Proof.Proofs
end

section
/-!
The round trip of encoding and decoding (30_encoding R112 to R118). A row fixes the fields its mask covers
(`Fixes`); with the fields it extracts they are the whole word, so the word of a row is the encoding of the
row's instruction (`EncodesBack`).
-/

namespace Sys2Proof.Proofs

open Sys2Proof.Machine Sys2Proof.Safety Sys2Proof.Claims

/-! ### The fields a row fixes -/

/-- The mask of the row covers the `n` bits from bit `k`, where its pattern is `x`. -/
def Fixes (r : OpcodeRow) (k : Nat) {n : Nat} (x : BitVec n) : Prop :=
  r.mask.extractLsb' k n = BitVec.allOnes n ∧ r.pattern.extractLsb' k n = x

/-- Bits under the mask are those of the pattern. -/
theorem field_of_mask {w mask pattern : Word} (masked : w &&& mask = pattern) {k n : Nat}
    (covered : mask.extractLsb' k n = BitVec.allOnes n) :
    w.extractLsb' k n = pattern.extractLsb' k n := by
  rw [← masked, BitVec.extractLsb'_and, covered, BitVec.and_allOnes]

theorem field_of_fixes {r : OpcodeRow} {w : Word} {k n : Nat} {x : BitVec n} (fixes : Fixes r k x)
    (row : r.matchesWord w = true) : w.extractLsb' k n = x := by
  obtain ⟨covered, value⟩ := fixes
  rw [← value]
  exact field_of_mask (by simpa [OpcodeRow.matchesWord] using row) covered

/-! ### Putting the immediates of a word back -/

theorem encodeS_fields (w : Word) :
    encodeS (fieldImmS w) (fieldRs2 w) (fieldRs1 w) (w.extractLsb' 12 3) (w.extractLsb' 0 7) = w := by
  have high : (fieldImmS w).extractLsb' 5 7 = w.extractLsb' 25 7 := by
    simp (disch := omega) only [fieldImmS, extract_append_high, extract_full, Nat.reduceSub]
  have low : (fieldImmS w).extractLsb' 0 5 = fieldRd w := by
    simp (disch := omega) only [fieldImmS, extract_append_low, extract_full, fieldRd]
  rw [encodeS_eq, high, low, encodeR_fields]

theorem encodeB_fields (w : Word) :
    encodeB (fieldImmB w) (fieldRs2 w) (fieldRs1 w) (w.extractLsb' 12 3) (w.extractLsb' 0 7) = w := by
  have high : ((fieldImmB w).extractLsb' 12 1 ++ (fieldImmB w).extractLsb' 5 6 : BitVec (1 + 6)) =
      w.extractLsb' 25 7 := by
    simp (disch := omega) only [fieldImmB, extract_append_low, extract_append_high, extract_full,
      Nat.reduceSub]
    exact append_fields rfl
  have low : ((fieldImmB w).extractLsb' 1 4 ++ (fieldImmB w).extractLsb' 11 1 : BitVec (4 + 1)) =
      fieldRd w := by
    simp (disch := omega) only [fieldImmB, extract_append_low, extract_append_high, extract_full,
      Nat.reduceSub]
    exact append_fields rfl
  rw [encodeB_eq]
  exact (congrArg₂ (fun f7 rd => encodeR f7 _ _ _ rd _) high low).trans (encodeR_fields w)

theorem encodeJ_fields (w : Word) : encodeJ (fieldImmJ w) (fieldRd w) (w.extractLsb' 0 7) = w := by
  have imm : ((fieldImmJ w).extractLsb' 20 1 ++ (fieldImmJ w).extractLsb' 1 10
      ++ (fieldImmJ w).extractLsb' 11 1 ++ (fieldImmJ w).extractLsb' 12 8 : BitVec (1 + 10 + 1 + 8)) =
      fieldImmU w := by
    simp (disch := omega) only [fieldImmJ, extract_append_low, extract_append_high, extract_full,
      Nat.reduceSub]
    rw [append_fields (k := 31) (b := 21) (n := 10) rfl, append_fields (k := 21) (b := 20) (n := 1) rfl,
      append_fields (k := 20) (b := 12) (n := 8) rfl, fieldImmU]
  rw [encodeJ_eq]
  exact (congrArg (encodeU · _ _) imm).trans (encodeU_fields w)

theorem encodeAtomic_fields (w : Word) (f3 : w.extractLsb' 12 3 = 0b010#3)
    (op : w.extractLsb' 0 7 = 0b0101111#7) :
    encodeAtomic (w.extractLsb' 27 5) (fieldAq w) (fieldRl w) (fieldRs2 w) (fieldRs1 w) (fieldRd w) =
      w := by
  have funct7 : (w.extractLsb' 27 5 ++ fieldAq w ++ fieldRl w : BitVec (5 + 1 + 1)) =
      w.extractLsb' 25 7 := by
    rw [fieldAq, fieldRl, append_fields (k := 27) (b := 26) (n := 1) rfl,
      append_fields (k := 26) (b := 25) (n := 1) rfl]
  rw [encodeAtomic_eq, ← f3, ← op]
  exact (congrArg (encodeR · _ _ _ _ _) funct7).trans (encodeR_fields w)

theorem evenOffset13_fieldImmB (w : Word) : evenOffset13 (fieldImmB w) = true := by
  rw [evenOffset13, fieldImmB, BitVec.getLsbD_append]
  rfl

theorem evenOffset21_fieldImmJ (w : Word) : evenOffset21 (fieldImmJ w) = true := by
  rw [evenOffset21, fieldImmJ, BitVec.getLsbD_append]
  rfl

/-! ### Rows of each format -/

/-- A word of the row is the encoding of the row's instruction. -/
def EncodesBack (r : OpcodeRow) : Prop :=
  ∀ w, r.matchesWord w = true → (r.build w).wf = true ∧ encode (r.build w) = w

section Formats

variable {r : OpcodeRow} {f7 : BitVec 7} {f5 : BitVec 5} {f3 : BitVec 3} {op : BitVec 7}

theorem encodesBack_U {f : RegId → BitVec 20 → Instr} (build : r.build = buildU f)
    (enc : ∀ rd imm, (f rd imm).wf = true ∧ encode (f rd imm) = encodeU imm rd op)
    (fop : Fixes r 0 op) : EncodesBack r := by
  intro w row
  rw [build, buildU, (enc _ _).2, ← field_of_fixes fop row]
  exact ⟨(enc _ _).1, encodeU_fields w⟩

theorem encodesBack_J {f : RegId → BitVec 21 → Instr} (build : r.build = buildJ f)
    (enc : ∀ rd imm, (f rd imm).wf = evenOffset21 imm ∧ encode (f rd imm) = encodeJ imm rd op)
    (fop : Fixes r 0 op) : EncodesBack r := by
  intro w row
  rw [build, buildJ, (enc _ _).1, (enc _ _).2, ← field_of_fixes fop row]
  exact ⟨evenOffset21_fieldImmJ w, encodeJ_fields w⟩

/-- The I format, with an immediate, a CSR number, and, for `uimm`, the field of `rs1`. -/
theorem encodesBack_I {f : RegId → RegId → BitVec 12 → Instr} (build : r.build = buildI f)
    (enc : ∀ rd rs1 imm, (f rd rs1 imm).wf = true ∧ encode (f rd rs1 imm) = encodeI imm rs1 f3 rd op)
    (fop : Fixes r 0 op) (ff3 : Fixes r 12 f3) : EncodesBack r := by
  intro w row
  rw [build, buildI, (enc _ _ _).2, ← field_of_fixes fop row, ← field_of_fixes ff3 row]
  exact ⟨(enc _ _ _).1, encodeI_fields w⟩

theorem encodesBack_B {f : RegId → RegId → BitVec 13 → Instr} (build : r.build = buildB f)
    (enc : ∀ rs1 rs2 imm, (f rs1 rs2 imm).wf = evenOffset13 imm ∧
      encode (f rs1 rs2 imm) = encodeB imm rs2 rs1 f3 op)
    (fop : Fixes r 0 op) (ff3 : Fixes r 12 f3) : EncodesBack r := by
  intro w row
  rw [build, buildB, (enc _ _ _).1, (enc _ _ _).2, ← field_of_fixes fop row, ← field_of_fixes ff3 row]
  exact ⟨evenOffset13_fieldImmB w, encodeB_fields w⟩

theorem encodesBack_S {f : RegId → RegId → BitVec 12 → Instr} (build : r.build = buildS f)
    (enc : ∀ rs1 rs2 imm, (f rs1 rs2 imm).wf = true ∧
      encode (f rs1 rs2 imm) = encodeS imm rs2 rs1 f3 op)
    (fop : Fixes r 0 op) (ff3 : Fixes r 12 f3) : EncodesBack r := by
  intro w row
  rw [build, buildS, (enc _ _ _).2, ← field_of_fixes fop row, ← field_of_fixes ff3 row]
  exact ⟨(enc _ _ _).1, encodeS_fields w⟩

/-- The R format, and the shift-immediate one, whose amount is the field of `rs2`. -/
theorem encodesBack_R {f : RegId → RegId → RegId → Instr} (build : r.build = buildR f)
    (enc : ∀ rd rs1 rs2, (f rd rs1 rs2).wf = true ∧ encode (f rd rs1 rs2) = encodeR f7 rs2 rs1 f3 rd op)
    (fop : Fixes r 0 op) (ff3 : Fixes r 12 f3) (ff7 : Fixes r 25 f7) : EncodesBack r := by
  intro w row
  rw [build, buildR, (enc _ _ _).2, ← field_of_fixes fop row, ← field_of_fixes ff3 row,
    ← field_of_fixes ff7 row]
  exact ⟨(enc _ _ _).1, encodeR_fields w⟩

theorem encodesBack_atomic {f : RegId → RegId → RegId → BitVec 1 → BitVec 1 → Instr}
    (build : r.build = buildAtomic f)
    (enc : ∀ rd rs1 rs2 aq rl, (f rd rs1 rs2 aq rl).wf = true ∧
      encode (f rd rs1 rs2 aq rl) = encodeAtomic f5 aq rl rs2 rs1 rd)
    (fop : Fixes r 0 0b0101111#7) (ff3 : Fixes r 12 0b010#3) (ff5 : Fixes r 27 f5) : EncodesBack r := by
  intro w row
  rw [build, buildAtomic, (enc _ _ _ _ _).2, ← field_of_fixes ff5 row]
  exact ⟨(enc _ _ _ _ _).1, encodeAtomic_fields w (field_of_fixes ff3 row) (field_of_fixes fop row)⟩

/-- LR.W, whose row also fixes the field of `rs2`. -/
theorem encodesBack_lr {f : RegId → RegId → BitVec 1 → BitVec 1 → Instr} {rs2 : RegId}
    (build : r.build = buildLr f)
    (enc : ∀ rd rs1 aq rl, (f rd rs1 aq rl).wf = true ∧
      encode (f rd rs1 aq rl) = encodeAtomic f5 aq rl rs2 rs1 rd)
    (fop : Fixes r 0 0b0101111#7) (ff3 : Fixes r 12 0b010#3) (ff5 : Fixes r 27 f5)
    (frs2 : Fixes r 20 rs2) : EncodesBack r := by
  intro w row
  rw [build, buildLr, (enc _ _ _ _).2, ← field_of_fixes ff5 row, ← field_of_fixes frs2 row]
  exact ⟨(enc _ _ _ _).1, encodeAtomic_fields w (field_of_fixes ff3 row) (field_of_fixes fop row)⟩

/-- A row that fixes the whole word. -/
theorem encodesBack_fixed {i : Instr} {v : Word} (build : r.build = buildFixed i)
    (enc : i.wf = true ∧ encode i = v) (fixed : Fixes r 0 v) : EncodesBack r := by
  intro w row
  rw [build, buildFixed, enc.2, ← field_of_fixes fixed row, extract_full]
  exact ⟨enc.1, rfl⟩

end Formats

/-! ### The tables -/

theorem tableUpper_encodesBack : ∀ r ∈ tableUpper, EncodesBack r := by
  simp only [tableUpper, List.forall_mem_cons]
  refine ⟨?lui, ?auipc, by simp⟩
  all_goals exact encodesBack_U rfl (fun _ _ => ⟨rfl, rfl⟩) ⟨rfl, rfl⟩

theorem tableControl_encodesBack : ∀ r ∈ tableControl, EncodesBack r := by
  simp only [tableControl, List.forall_mem_cons]
  refine ⟨?jal, ?jalr, ?beq, ?bne, ?blt, ?bge, ?bltu, ?bgeu, by simp⟩
  case jal => exact encodesBack_J rfl (fun _ _ => ⟨rfl, rfl⟩) ⟨rfl, rfl⟩
  case jalr => exact encodesBack_I rfl (fun _ _ _ => ⟨rfl, rfl⟩) ⟨rfl, rfl⟩ ⟨rfl, rfl⟩
  all_goals exact encodesBack_B rfl (fun _ _ _ => ⟨rfl, rfl⟩) ⟨rfl, rfl⟩ ⟨rfl, rfl⟩

theorem tableLoadStore_encodesBack : ∀ r ∈ tableLoadStore, EncodesBack r := by
  simp only [tableLoadStore, List.forall_mem_cons]
  refine ⟨?lb, ?lh, ?lw, ?lbu, ?lhu, ?sb, ?sh, ?sw, by simp⟩
  case sb | sh | sw => exact encodesBack_S rfl (fun _ _ _ => ⟨rfl, rfl⟩) ⟨rfl, rfl⟩ ⟨rfl, rfl⟩
  all_goals exact encodesBack_I rfl (fun _ _ _ => ⟨rfl, rfl⟩) ⟨rfl, rfl⟩ ⟨rfl, rfl⟩

theorem tableOpImm_encodesBack : ∀ r ∈ tableOpImm, EncodesBack r := by
  simp only [tableOpImm, List.forall_mem_cons]
  refine ⟨?addi, ?slti, ?sltiu, ?xori, ?ori, ?andi, ?slli, ?srli, ?srai, by simp⟩
  case slli | srli | srai =>
    exact encodesBack_R rfl (fun _ _ _ => ⟨rfl, rfl⟩) ⟨rfl, rfl⟩ ⟨rfl, rfl⟩ ⟨rfl, rfl⟩
  all_goals exact encodesBack_I rfl (fun _ _ _ => ⟨rfl, rfl⟩) ⟨rfl, rfl⟩ ⟨rfl, rfl⟩

theorem tableOp_encodesBack : ∀ r ∈ tableOp, EncodesBack r := by
  simp only [tableOp, List.forall_mem_cons]
  refine ⟨?add, ?sub, ?sll, ?slt, ?sltu, ?xor, ?srl, ?sra, ?or, ?and, by simp⟩
  all_goals exact encodesBack_R rfl (fun _ _ _ => ⟨rfl, rfl⟩) ⟨rfl, rfl⟩ ⟨rfl, rfl⟩ ⟨rfl, rfl⟩

theorem tableMulDiv_encodesBack : ∀ r ∈ tableMulDiv, EncodesBack r := by
  simp only [tableMulDiv, List.forall_mem_cons]
  refine ⟨?mul, ?mulh, ?mulhsu, ?mulhu, ?div, ?divu, ?rem, ?remu, by simp⟩
  all_goals exact encodesBack_R rfl (fun _ _ _ => ⟨rfl, rfl⟩) ⟨rfl, rfl⟩ ⟨rfl, rfl⟩ ⟨rfl, rfl⟩

theorem tableAtomic_encodesBack : ∀ r ∈ tableAtomic, EncodesBack r := by
  simp only [tableAtomic, List.forall_mem_cons]
  refine ⟨?lr, ?sc, ?swap, ?add, ?xor, ?and, ?or, ?min, ?max, ?minu, ?maxu, by simp⟩
  case lr =>
    exact encodesBack_lr rfl (fun _ _ _ _ => ⟨rfl, rfl⟩) ⟨rfl, rfl⟩ ⟨rfl, rfl⟩ ⟨rfl, rfl⟩ ⟨rfl, rfl⟩
  all_goals
    exact encodesBack_atomic rfl (fun _ _ _ _ _ => ⟨rfl, rfl⟩) ⟨rfl, rfl⟩ ⟨rfl, rfl⟩ ⟨rfl, rfl⟩

theorem tableSystem_encodesBack : ∀ r ∈ tableSystem, EncodesBack r := by
  simp only [tableSystem, List.forall_mem_cons]
  refine ⟨?csrrw, ?csrrs, ?csrrc, ?csrrwi, ?csrrsi, ?csrrci, ?ecall, ?ebreak, ?wfi, ?mret, by simp⟩
  case ecall | ebreak | wfi | mret => exact encodesBack_fixed rfl ⟨rfl, rfl⟩ ⟨rfl, rfl⟩
  all_goals exact encodesBack_I rfl (fun _ _ _ => ⟨rfl, rfl⟩) ⟨rfl, rfl⟩ ⟨rfl, rfl⟩

theorem opcodeTable_encodesBack : ∀ r ∈ opcodeTable, EncodesBack r := by
  simp only [opcodeTable, List.forall_mem_append]
  exact ⟨⟨⟨⟨⟨⟨⟨tableUpper_encodesBack, tableControl_encodesBack⟩, tableLoadStore_encodesBack⟩,
    tableOpImm_encodesBack⟩, tableOp_encodesBack⟩, tableMulDiv_encodesBack⟩, tableAtomic_encodesBack⟩,
    tableSystem_encodesBack⟩

/-! ### Every instruction -/

/-- The laws of the 66 instructions as one. -/
theorem encodingLaw (i : Instr) : Laws.Encoding.Statement i := by
  cases i with
  | lui => exact Laws.Encoding.lui _ _
  | auipc => exact Laws.Encoding.auipc _ _
  | jal => exact Laws.Encoding.jal _ _
  | jalr => exact Laws.Encoding.jalr _ _ _
  | beq => exact Laws.Encoding.beq _ _ _
  | bne => exact Laws.Encoding.bne _ _ _
  | blt => exact Laws.Encoding.blt _ _ _
  | bge => exact Laws.Encoding.bge _ _ _
  | bltu => exact Laws.Encoding.bltu _ _ _
  | bgeu => exact Laws.Encoding.bgeu _ _ _
  | lb => exact Laws.Encoding.lb _ _ _
  | lh => exact Laws.Encoding.lh _ _ _
  | lw => exact Laws.Encoding.lw _ _ _
  | lbu => exact Laws.Encoding.lbu _ _ _
  | lhu => exact Laws.Encoding.lhu _ _ _
  | sb => exact Laws.Encoding.sb _ _ _
  | sh => exact Laws.Encoding.sh _ _ _
  | sw => exact Laws.Encoding.sw _ _ _
  | addi => exact Laws.Encoding.addi _ _ _
  | slti => exact Laws.Encoding.slti _ _ _
  | sltiu => exact Laws.Encoding.sltiu _ _ _
  | xori => exact Laws.Encoding.xori _ _ _
  | ori => exact Laws.Encoding.ori _ _ _
  | andi => exact Laws.Encoding.andi _ _ _
  | slli => exact Laws.Encoding.slli _ _ _
  | srli => exact Laws.Encoding.srli _ _ _
  | srai => exact Laws.Encoding.srai _ _ _
  | add => exact Laws.Encoding.add _ _ _
  | sub => exact Laws.Encoding.sub _ _ _
  | sll => exact Laws.Encoding.sll _ _ _
  | slt => exact Laws.Encoding.slt _ _ _
  | sltu => exact Laws.Encoding.sltu _ _ _
  | xor => exact Laws.Encoding.xor _ _ _
  | srl => exact Laws.Encoding.srl _ _ _
  | sra => exact Laws.Encoding.sra _ _ _
  | or => exact Laws.Encoding.or _ _ _
  | and => exact Laws.Encoding.and _ _ _
  | mul => exact Laws.Encoding.mul _ _ _
  | mulh => exact Laws.Encoding.mulh _ _ _
  | mulhsu => exact Laws.Encoding.mulhsu _ _ _
  | mulhu => exact Laws.Encoding.mulhu _ _ _
  | div => exact Laws.Encoding.div _ _ _
  | divu => exact Laws.Encoding.divu _ _ _
  | rem => exact Laws.Encoding.rem _ _ _
  | remu => exact Laws.Encoding.remu _ _ _
  | lrW => exact Laws.Encoding.lrW _ _ _ _
  | scW => exact Laws.Encoding.scW _ _ _ _ _
  | amoswapW => exact Laws.Encoding.amoswapW _ _ _ _ _
  | amoaddW => exact Laws.Encoding.amoaddW _ _ _ _ _
  | amoxorW => exact Laws.Encoding.amoxorW _ _ _ _ _
  | amoandW => exact Laws.Encoding.amoandW _ _ _ _ _
  | amoorW => exact Laws.Encoding.amoorW _ _ _ _ _
  | amominW => exact Laws.Encoding.amominW _ _ _ _ _
  | amomaxW => exact Laws.Encoding.amomaxW _ _ _ _ _
  | amominuW => exact Laws.Encoding.amominuW _ _ _ _ _
  | amomaxuW => exact Laws.Encoding.amomaxuW _ _ _ _ _
  | csrrw => exact Laws.Encoding.csrrw _ _ _
  | csrrs => exact Laws.Encoding.csrrs _ _ _
  | csrrc => exact Laws.Encoding.csrrc _ _ _
  | csrrwi => exact Laws.Encoding.csrrwi _ _ _
  | csrrsi => exact Laws.Encoding.csrrsi _ _ _
  | csrrci => exact Laws.Encoding.csrrci _ _ _
  | ecall => exact Laws.Encoding.ecall
  | ebreak => exact Laws.Encoding.ebreak
  | wfi => exact Laws.Encoding.wfi
  | mret => exact Laws.Encoding.mret

/-- `decodes_of_encode` with the law of the instruction at hand. -/
theorem decodes_of_word {i : Instr} {w : Word} (wf : i.wf = true) (word : encode i = w) : Decodes w i :=
  decodes_of_encode (encodingLaw i) wf word

/-! ### The statements -/

/-- Settles O2, from the law of each instruction. -/
theorem decodeInvertsEncode : Obligations.DecodeInvertsEncode := fun _ wf => decodes_of_word wf rfl

/-- Settles O3: every row of the table encodes its words back. -/
theorem encodeInvertsDecode : Obligations.EncodeInvertsDecode := by
  intro w i decoded
  obtain ⟨r, inTable, row, rfl⟩ := row_of_decodeWord decoded
  exact opcodeTable_encodesBack r inTable w row

/-- Settles O1: the words are the encodings of the instructions. -/
theorem specExampleWordsDecode : Obligations.SpecExampleWordsDecode :=
  ⟨decodes_of_word rfl (by decide), decodes_of_word (by decide) (by decide),
    decodes_of_word rfl (by decide), decodes_of_word rfl (by decide), decodes_of_word rfl (by decide),
    decodes_of_word (by decide) (by decide), decodes_of_word rfl (by decide),
    decodes_of_word rfl (by decide), decodes_of_word rfl (by decide), decodes_of_word rfl (by decide)⟩

end Sys2Proof.Proofs
end

section
/-!
The words that are no instruction (30_encoding R113, R116, R118): which fields each row fixes and at which
values, decided once over the table, and what that makes of the fields of a word that decodes.
-/

namespace Sys2Proof.Proofs

open Sys2Proof.Machine Sys2Proof.Safety Sys2Proof.Claims

/-! ### The fields of a word that is an instruction, opcode by opcode -/

/-- The opcodes of the table (R113). -/
abbrev KnownOpcode (op : BitVec 7) : Prop :=
  op ∈ ([0x37, 0x17, 0x6F, 0x67, 0x63, 0x03, 0x23, 0x13, 0x33, 0x2F, 0x73] : List (BitVec 7))

/-- JALR, branches, loads and stores. -/
abbrev KnownFunct3 (w : Word) : Prop :=
  (w.extractLsb 6 0 = 0x67#7 → w.extractLsb 14 12 = 0b000#3) ∧
  (w.extractLsb 6 0 = 0x63#7 → w.extractLsb 14 12 ∉ ([2, 3] : List (BitVec 3))) ∧
  (w.extractLsb 6 0 = 0x03#7 → w.extractLsb 14 12 ∉ ([3, 6, 7] : List (BitVec 3))) ∧
  (w.extractLsb 6 0 = 0x23#7 → w.extractLsb 14 12 ∉ ([3, 4, 5, 6, 7] : List (BitVec 3)))

/-- Shift-immediate and register-register instructions. -/
abbrev KnownFunct7 (w : Word) : Prop :=
  (w.extractLsb 6 0 = 0x13#7 → w.extractLsb 14 12 = 0b001#3 → w.extractLsb 31 25 = 0x00#7) ∧
  (w.extractLsb 6 0 = 0x13#7 → w.extractLsb 14 12 = 0b101#3 →
    w.extractLsb 31 25 = 0x00#7 ∨ w.extractLsb 31 25 = 0x20#7) ∧
  (w.extractLsb 6 0 = 0x33#7 → w.extractLsb 31 25 ∈ ([0x00, 0x20, 0x01] : List (BitVec 7)) ∧
    (w.extractLsb 31 25 = 0x20#7 → w.extractLsb 14 12 = 0b000#3 ∨ w.extractLsb 14 12 = 0b101#3))

/-- Atomics, and the environment and CSR instructions. -/
abbrev KnownAtomicOrSystem (w : Word) : Prop :=
  (w.extractLsb 6 0 = 0x2F#7 → w.extractLsb 14 12 = 0b010#3 ∧
    w.extractLsb 31 27 ∈ ([0x02, 0x03, 0x01, 0x00, 0x04, 0x0C, 0x08, 0x10, 0x14, 0x18, 0x1C] :
      List (BitVec 5)) ∧
    (w.extractLsb 31 27 = 0x02#5 → w.extractLsb 24 20 = 0#5)) ∧
  (w.extractLsb 6 0 = 0x73#7 → w.extractLsb 14 12 ≠ 0b100#3 ∧
    (w.extractLsb 14 12 = 0b000#3 →
      w ∈ ([0x00000073, 0x00100073, 0x10500073, 0x30200073] : List Word)))

/-- All of these: what the fields of an instruction's word meet. -/
structure Recognised (w : Word) : Prop where
  opcode         : KnownOpcode (w.extractLsb 6 0)
  funct3         : KnownFunct3 w
  funct7         : KnownFunct7 w
  atomicOrSystem : KnownAtomicOrSystem w

/-- The mask covers every field that `Recognised` asks about at the pattern's opcode. -/
abbrev Covers (mask pattern : Word) : Prop :=
  mask.extractLsb 6 0 = 0x7F#7 ∧
  (pattern.extractLsb 6 0 ∉ ([0x37, 0x17, 0x6F] : List (BitVec 7)) → mask.extractLsb 14 12 = 7#3) ∧
  (pattern.extractLsb 6 0 = 0x33#7 ∨ (pattern.extractLsb 6 0 = 0x13#7 ∧
    (pattern.extractLsb 14 12 = 0b001#3 ∨ pattern.extractLsb 14 12 = 0b101#3)) →
      mask.extractLsb 31 25 = 0x7F#7) ∧
  (pattern.extractLsb 6 0 = 0x2F#7 → mask.extractLsb 31 27 = 0x1F#5) ∧
  (pattern.extractLsb 6 0 = 0x2F#7 → pattern.extractLsb 31 27 = 0x02#5 →
    mask.extractLsb 24 20 = 0x1F#5) ∧
  (pattern.extractLsb 6 0 = 0x73#7 → pattern.extractLsb 14 12 = 0b000#3 → mask = BitVec.allOnes 32)

/-! ### The rows -/

theorem opcodeBits_of_all {P : Word × Word → Prop} [DecidablePred P]
    (all : (opcodeBits.all fun b => decide (P b)) = true) : ∀ b ∈ opcodeBits, P b :=
  fun b inBits => of_decide_eq_true (List.all_eq_true.mp all b inBits)

theorem opcodeBits_covers : ∀ b ∈ opcodeBits, Covers b.1 b.2 :=
  opcodeBits_of_all (by decide +kernel)

theorem opcodeBits_recognised : ∀ b ∈ opcodeBits, Recognised b.2 := fun b inBits =>
  ⟨opcodeBits_of_all (P := fun b => KnownOpcode (b.2.extractLsb 6 0)) (by decide +kernel) b inBits,
    opcodeBits_of_all (P := fun b => KnownFunct3 b.2) (by decide +kernel) b inBits,
    opcodeBits_of_all (P := fun b => KnownFunct7 b.2) (by decide +kernel) b inBits,
    opcodeBits_of_all (P := fun b => KnownAtomicOrSystem b.2) (by decide +kernel) b inBits⟩

/-- A word agrees with the pattern wherever the mask covers, so it is recognised as the pattern is. -/
theorem recognised_of_masked {w mask pattern : Word} (masked : w &&& mask = pattern)
    (covers : Covers mask pattern) (recognised : Recognised pattern) : Recognised w := by
  obtain ⟨cop, cf3, cf7, cf5, crs2, call⟩ := covers
  obtain ⟨op, ⟨jalr, branch, load, store⟩, ⟨left, right, reg⟩, atomic, system⟩ := recognised
  have eop : w.extractLsb 6 0 = pattern.extractLsb 6 0 := field_of_mask masked cop
  have ef3 h : w.extractLsb 14 12 = pattern.extractLsb 14 12 := field_of_mask masked (cf3 h)
  have ef7 h : w.extractLsb 31 25 = pattern.extractLsb 31 25 := field_of_mask masked (cf7 h)
  have ef5 h : w.extractLsb 31 27 = pattern.extractLsb 31 27 := field_of_mask masked (cf5 h)
  have ers2 h h' : w.extractLsb 24 20 = pattern.extractLsb 24 20 := field_of_mask masked (crs2 h h')
  refine ⟨eop ▸ op, ⟨?jalr, ?branch, ?load, ?store⟩, ⟨?left, ?right, ?reg⟩, ?atomic, ?system⟩
  all_goals
    rw [eop]
    intro h
    rw [ef3 (by rw [h]; decide)]
  case jalr => exact jalr h
  case branch => exact branch h
  case load => exact load h
  case store => exact store h
  case left =>
    intro h3
    rw [ef7 (.inr ⟨h, .inl h3⟩)]
    exact left h h3
  case right =>
    intro h3
    rw [ef7 (.inr ⟨h, .inr h3⟩)]
    exact right h h3
  case reg =>
    rw [ef7 (.inl h)]
    exact reg h
  case atomic =>
    obtain ⟨h3, h5, hrs2⟩ := atomic h
    rw [ef5 h]
    exact ⟨h3, h5, fun lr => (ers2 h lr).trans (hrs2 lr)⟩
  case system =>
    obtain ⟨h3, hw⟩ := system h
    refine ⟨h3, fun priv => ?_⟩
    rw [call h priv, BitVec.and_allOnes] at masked
    rw [masked]
    exact hw priv

/-- R116, R118: a word that matches a row has the fields of an instruction. -/
theorem recognised_of_row {r : OpcodeRow} {w : Word} (inTable : r ∈ opcodeTable)
    (row : r.matchesWord w = true) : Recognised w := by
  have bits : (r.mask, r.pattern) ∈ opcodeBits := List.mem_map.mpr ⟨r, inTable, rfl⟩
  exact recognised_of_masked (by simpa [OpcodeRow.matchesWord] using row) (opcodeBits_covers _ bits)
    (opcodeBits_recognised _ bits)

/-- R117: a word without such fields is unrecognised. -/
theorem unrecognised_of_not {w : Word} (h : ¬ Recognised w) :
    decodeWord w = .error (.unrecognised w) :=
  decodeWord_of_no_row fun r inTable => by
    rw [← Bool.not_eq_true]
    exact fun row => h (recognised_of_row inTable row)

/-- R113: the two low bits of every opcode are 11. -/
theorem low_bits_of_knownOpcode {w : Word} (known : KnownOpcode (w.extractLsb 6 0)) :
    w.extractLsb 1 0 = 0b11#2 := by
  have low : ([0x37, 0x17, 0x6F, 0x67, 0x63, 0x03, 0x23, 0x13, 0x33, 0x2F, 0x73] :
      List (BitVec 7)).all (fun op => op.extractLsb' 0 2 == 0b11#2) = true := by decide
  have bits : (w.extractLsb 6 0).extractLsb' 0 2 = 0b11#2 := by
    simpa using List.all_eq_true.mp low _ known
  rwa [BitVec.extractLsb, BitVec.extractLsb'_extractLsb'_of_le (by decide)] at bits

/-- Settles O4: each clause breaks one of the conditions on the fields. -/
theorem unrecognisedEncodings : Obligations.UnrecognisedEncodings := by
  refine fun w clause => unrecognised_of_not fun h => ?_
  obtain ⟨op, ⟨jalr, branch, load, store⟩, ⟨left, right, reg⟩, atomic, system⟩ := h
  rcases clause with h | h | ⟨h, f3, h'⟩ | ⟨h, h'⟩ | ⟨h, h'⟩ | ⟨h, f7, h', h''⟩ | ⟨h, f3, h'⟩ |
    ⟨h, f3, h', h''⟩ | ⟨h, h'⟩ | ⟨h, h'⟩ | ⟨h, h'⟩ | ⟨h, h'⟩ | ⟨h, h'⟩ | ⟨h, h'⟩ | ⟨h, f5, h'⟩
  · exact h op
  · exact h (low_bits_of_knownOpcode op)
  · exact h' ((system h).2 f3)
  · exact (system h).1 h'
  · exact h' (reg h).1
  · exact ((reg h).2 f7).elim h' h''
  · exact h' (left h f3)
  · exact (right h f3).elim h' h''
  · exact load h h'
  · exact store h h'
  · exact branch h h'
  · exact h' (jalr h)
  · exact h' (atomic h).1
  · exact h' (atomic h).2.1
  · exact h' ((atomic h).2.2 f5)

end Sys2Proof.Proofs
end

section
/-!
A call of the host, a step and an instruction as chains of the machine's updates (`Update`), and what every
update keeps: the outputs (10_state R50, R51), the invariant `Inv`, and the bits of `mstatus` and `mip`.
-/

namespace Sys2Proof.Proofs

open Sys2Proof.Machine Sys2Proof.Safety

/-! ### The updates -/

/-- One update of the state by an instruction, the trap or the host. -/
inductive Update : State → State → Prop
  | reg (s : State) (r : RegId) (v : Word) : Update s (s.writeReg r v)
  | pc (s : State) (v : Word) : Update s (s.setPc v)
  | read {s t : State} {a : Word} {sz : Size} {v : Word} (h : s.memRead a sz = .ok (v, t)) : Update s t
  | write {s t : State} {a : Word} {sz : Size} {v : Word} (h : s.memWrite a sz v = .ok t) : Update s t
  | reserve (s : State) (a : Word) (aligned : wordAligned a = true) : Update s { s with resv := some a }
  | dropReservation (s : State) : Update s s.dropReservation
  | csr (s : State) (c : Csr) (v : Word) : Update s (s.writeCsr c v)
  | notify (s : State) (e : Event) : Update s (s.notify e)
  | halted (s : State) (b : Bool) : Update s (s.setHalted b)
  | haltOnEbreak (s : State) (b : Bool) : Update s (s.setHaltOnEbreak b)
  | wait (s : State) : Update s { s with waiting := true }
  | takeTrap (s : State) : Update s s.takeTrap
  | trapReturn (s : State) : Update s s.trapReturn
  | input {s t : State} {k : Nat} {c : Byte} (h : s.enqueue k c = .next t) : Update s t

/-- Any number of updates, one after another. -/
abbrev Updates : State → State → Prop := Relation.ReflTransGen Update

theorem exec_updates {i : Instr} {s t : State} (h : exec i s = .next t) : Updates s t := by
  cases exec_next h with
  | plain rd v p _ _ _ _ _ eq => subst eq; exact .tail (.single (.reg s rd v)) (.pc _ p)
  | load sz a u rd v w _ read eq =>
    subst eq
    exact .tail (.tail (.single (.read read)) (.reg u rd w)) (.pc _ _)
  | store sz a u v _ write eq => subst eq; exact .tail (.single (.write write)) (.pc u _)
  | reserve rd rs1 _ _ v u _ aligned read eq =>
    subst eq
    exact .tail (.tail (.tail (.single (.read read)) (.reserve u _ aligned)) (.reg _ rd v)) (.pc _ _)
  | conditional rd _ _ _ _ u _ _ write eq =>
    subst eq
    exact .tail (.tail (.tail (.single (.write write)) (.dropReservation u)) (.reg _ rd 0)) (.pc _ _)
  | failed rd _ _ _ _ _ _ eq =>
    subst eq
    exact .tail (.tail (.single (.dropReservation s)) (.reg _ rd 1)) (.pc _ _)
  | amo rd _ v _ u x _ _ read write eq =>
    subst eq
    exact .tail (.tail (.tail (.single (.read read)) (.write write)) (.reg x rd v)) (.pc _ _)
  | csr rd _ c v _ _ eq =>
    subst eq
    exact .tail (.tail (.single (.reg s rd _)) (.csr _ c v)) (.pc _ _)
  | syscall _ eq => subst eq; exact .tail (.single (.notify s _)) (.pc _ _)
  | breakpoint _ eq =>
    subst eq
    exact .tail (.tail (.single (.notify s _)) (.halted _ (s.halted || s.haltOnEbreak))) (.pc _ _)
  | wait _ eq => subst eq; exact .tail (.single (.wait s)) (.pc _ _)
  | trapReturn _ eq => subst eq; exact .single (.trapReturn s)

theorem step_updates {s t : State} (h : step s = .next t) : Updates s t := by
  rcases step_next h with ⟨-, rfl⟩ | ⟨-, -, rfl⟩ | ⟨-, -, -, rfl⟩ |
    ⟨-, w, u, read, ⟨i, -, run⟩ | ⟨-, rfl⟩⟩
  · exact .refl
  · exact .single (.takeTrap s)
  · exact .refl
  · exact .trans (.single (.read read)) (exec_updates run)
  · exact .tail (.tail (.single (.read read)) (.notify u _)) (.pc _ _)

theorem applyCall_updates {s t : State} {c : HostCall} (h : applyCall s c = .next t) : Updates s t := by
  cases c with
  | step => exact step_updates h
  | enqueue k c => exact .single (.input h)
  | setHalted b => cases h; exact .single (.halted s b)
  | setHaltOnEbreak b => cases h; exact .single (.haltOnEbreak s b)

/-- What every update keeps, every call keeps. -/
theorem applyCall_keeps {P : State → Prop} (keeps : ∀ {s t}, Update s t → P s → P t) {s t : State}
    {c : HostCall} (h : applyCall s c = .next t) (hs : P s) : P t := by
  have updates := applyCall_updates h
  clear h
  induction updates with
  | refl => exact hs
  | tail _ update ih => exact keeps update ih

/-! ### The outputs only grow -/

/-- Every event and every output byte of `s` is still there in `t`, with at most new ones after it. -/
structure Grows (s t : State) : Prop where
  events  : s.events <+: t.events
  devices : t.io.length = s.io.length
  outLogs : ∀ (k : Nat) (d : IoState), s.io[k]? = some d → ∃ e, t.io[k]? = some e ∧ d.outLog <+: e.outLog

theorem Grows.of_same {s t : State} (events : s.events <+: t.events) (io : t.io = s.io) : Grows s t :=
  ⟨events, by rw [io], fun _ d h => ⟨d, io ▸ h, List.prefix_rfl⟩⟩

theorem Grows.trans {s t u : State} (h : Grows s t) (h' : Grows t u) : Grows s u := by
  refine ⟨h.events.trans h'.events, h'.devices.trans h.devices, fun k d hd => ?_⟩
  obtain ⟨e, he, hde⟩ := h.outLogs k d hd
  obtain ⟨f, hf, hef⟩ := h'.outLogs k e he
  exact ⟨f, hf, hde.trans hef⟩

/-- Replacing a device's state by one with at least its output. -/
theorem Grows.of_setIoState {s t : State} {k : Nat} {d : IoState} (events : t.events = s.events)
    (io : t.io = s.io.set k d) (outLog : (s.ioState k).outLog <+: d.outLog) : Grows s t := by
  refine ⟨by rw [events], by simp [io], fun j e he => ?_⟩
  rw [io, List.getElem?_set]
  obtain ⟨inRange, -⟩ := List.getElem?_eq_some_iff.mp he
  by_cases hjk : k = j
  · subst hjk
    rw [ioState_of_getElem? he] at outLog
    exact ⟨d, by simp [inRange], outLog⟩
  · exact ⟨e, by simp [hjk, he], List.prefix_rfl⟩

theorem Grows.of_memRead {s t : State} {a : Word} {sz : Size} {v : Word}
    (h : s.memRead a sz = .ok (v, t)) : Grows s t := by
  rcases memRead_cases h with ⟨-, -, rfl⟩ | ⟨k, off, d, -, read, rfl⟩
  · exact .of_same List.prefix_rfl rfl
  · exact .of_setIoState rfl rfl ((ioRead_frame read).1 ▸ List.prefix_rfl)

theorem Grows.of_memWrite {s t : State} {a : Word} {sz : Size} {v : Word}
    (h : s.memWrite a sz v = .ok t) : Grows s t := by
  rcases memWrite_cases h with ⟨-, rfl⟩ | ⟨k, d, -, rfl, rfl⟩ | ⟨-, -, -, -, rfl⟩
  · exact .of_same List.prefix_rfl rfl
  · exact .of_setIoState rfl rfl (List.prefix_append _ _)
  · exact .of_same List.prefix_rfl rfl

theorem Update.grows {s t : State} (h : Update s t) : Grows s t := by
  cases h with
  | reg | pc | reserve | dropReservation | csr | halted | haltOnEbreak | wait | takeTrap | trapReturn =>
    exact .of_same List.prefix_rfl rfl
  | read h => exact .of_memRead h
  | write h => exact .of_memWrite h
  | notify e => exact .of_same (List.prefix_append _ _) rfl
  | input h =>
    obtain ⟨-, rfl⟩ := enqueue_next h
    exact .of_setIoState (State.signalIrq_events _ _) (State.signalIrq_io _ _) List.prefix_rfl

/-- Settles O44: every update only adds to the outputs. -/
theorem outputsOnlyGrow : Obligations.OutputsOnlyGrow := by
  intro s t c h
  have grows : Grows s t :=
    applyCall_keeps (P := Grows s) (fun update before => before.trans update.grows) h
      (.of_same List.prefix_rfl rfl)
  obtain ⟨⟨new, events⟩, devices, outLogs⟩ := grows
  refine ⟨⟨new, events.symm⟩, devices, fun k d hd => ?_⟩
  obtain ⟨e, he, out, log⟩ := outLogs k d hd
  exact ⟨e, out, he, log.symm⟩

/-! ### The invariant -/

/-- The invariant speaks of the platform, the devices and the reservation only. -/
theorem inv_of_same {s t : State} (inv : Inv s) (cfg : t.cfg = s.cfg) (ram : t.ram = s.ram)
    (io : t.io = s.io) (resv : ∀ a, t.resv = some a → a.toNat % 4 = 0) : Inv t := by
  obtain ⟨platform, ramCanonical, ramInside, ioMatches, shadowUnused, -⟩ := inv
  exact ⟨cfg ▸ platform, ram ▸ ramCanonical, by rwa [ram, cfg], by rwa [io, cfg], by rwa [io, cfg], resv⟩

/-- A device's new state may have another queue and output, but a shadow only where there is one. -/
theorem inv_of_setIoState {s t : State} {k : Nat} {d : IoState} (inv : Inv s) (cfg : t.cfg = s.cfg)
    (ram : t.ram = s.ram) (io : t.io = s.io.set k d)
    (resv : ∀ a, t.resv = some a → a.toNat % 4 = 0)
    (shadow : s.cfg.ioShadow = false → d.shadow = (s.ioState k).shadow) : Inv t := by
  obtain ⟨platform, ramCanonical, ramInside, ioMatches, shadowUnused, -⟩ := inv
  refine ⟨cfg ▸ platform, ram ▸ ramCanonical, by rwa [ram, cfg], by simpa [io, cfg], ?_, resv⟩
  rw [cfg, io]
  intro noShadow e he
  rcases List.mem_or_eq_of_mem_set he with he | rfl
  · exact shadowUnused noShadow e he
  · rw [shadow noShadow, State.ioState, List.getD_eq_getElem?_getD]
    cases hk : s.io[k]? with
    | none => rfl
    | some e => exact shadowUnused noShadow e (List.mem_of_getElem? hk)

theorem inv_of_memRead {s t : State} {a : Word} {sz : Size} {v : Word}
    (h : s.memRead a sz = .ok (v, t)) (inv : Inv s) : Inv t := by
  rcases memRead_cases h with ⟨-, -, rfl⟩ | ⟨k, off, d, -, read, rfl⟩
  · exact inv
  · exact inv_of_setIoState inv rfl rfl rfl inv.resvAligned fun _ => (ioRead_frame read).2

theorem inv_of_memWrite {s t : State} {a : Word} {sz : Size} {v : Word}
    (h : s.memWrite a sz v = .ok t) (inv : Inv s) : Inv t := by
  rcases memWrite_cases h with ⟨⟨low, high⟩, rfl⟩ | ⟨k, d, -, rfl, rfl⟩ | ⟨-, -, -, -, rfl⟩
  · obtain ⟨platform, ramCanonical, ramInside, ioMatches, shadowUnused, -⟩ := inv
    refine ⟨platform, Memory.wf_writeLe _ _ _ _ ramCanonical, fun c hc => ?_, ioMatches, shadowUnused,
      nofun⟩
    rcases Memory.mem_writeBytes _ _ _ c hc with old | ⟨-, new⟩
    · exact ramInside c old
    · rw [leBytes_length, ramOffset] at new
      show c.1 < s.cfg.ramSize
      omega
  · exact inv_of_setIoState inv rfl rfl rfl nofun fun noShadow => by simp [noShadow]
  · exact inv_of_same inv rfl rfl rfl nofun

theorem Update.inv {s t : State} (h : Update s t) (inv : Inv s) : Inv t := by
  cases h with
  | reg | pc | csr | notify | halted | haltOnEbreak | wait | takeTrap | trapReturn =>
    exact inv_of_same inv rfl rfl rfl inv.resvAligned
  | read h => exact inv_of_memRead h inv
  | write h => exact inv_of_memWrite h inv
  | reserve a aligned =>
    refine inv_of_same inv rfl rfl rfl fun b hb => ?_
    cases hb
    exact (wordAligned_iff a).mp aligned
  | dropReservation => exact inv_of_same inv rfl rfl rfl nofun
  | input h =>
    obtain ⟨-, rfl⟩ := enqueue_next h
    exact inv_of_setIoState inv (by simp) (by simp) (State.signalIrq_io _ _)
      (by simpa using inv.resvAligned) fun _ => rfl

/-- R53: the platform is fixed. -/
theorem Update.cfg {s t : State} (h : Update s t) : t.cfg = s.cfg := by
  cases h with
  | reg | pc | reserve | dropReservation | csr | notify | halted | haltOnEbreak | wait | takeTrap
  | trapReturn => rfl
  | read h => exact (memRead_frame h).1
  | write h => exact (memWrite_frame h).1
  | input h =>
    obtain ⟨-, rfl⟩ := enqueue_next h
    simp

/-- Settles O49: every update keeps the platform and the invariant. -/
theorem invariantPreserved : Obligations.InvariantPreserved := fun s _ _ h =>
  ⟨applyCall_keeps (P := fun u => u.cfg = s.cfg) (fun update same => update.cfg.trans same) h rfl,
    applyCall_keeps Update.inv h⟩

/-! ### The bits of `mstatus` and `mip` -/

/-- Only the bits listed can be 1. -/
abbrev OnlyBits (bits : List Nat) (v : Word) : Prop := ∀ j < 32, j ∉ bits → v.getLsbD j = false

theorem onlyBits_setBit {bits : List Nat} {v : Word} {i : Nat} (only : OnlyBits bits v) (inBits : i ∈ bits)
    (inWord : i < 32) (b : Bool) : OnlyBits bits (setBit v i b) := by
  intro j hj notIn
  rw [getLsbD_setBit _ _ _ _ inWord, if_neg fun eq : j = i => notIn (eq ▸ inBits)]
  exact only j hj notIn

/-- R32: a write through a mask sets no bit outside the old ones and the mask. -/
theorem onlyBits_maskedWrite {bits : List Nat} {old mask : Word} (only : OnlyBits bits old)
    (maskOnly : OnlyBits bits mask) (v : Word) : OnlyBits bits (maskedWrite old mask v) := by
  intro j hj notIn
  rw [getLsbD_maskedWrite _ _ _ _ hj, if_neg (by simp [maskOnly j hj notIn])]
  exact only j hj notIn

/-- R32: what a masked write leaves of each CSR. -/
theorem readCsr_writeCsr (s : State) (c d : Csr) (v : Word) :
    (s.writeCsr c v).readCsr d =
      if d = c then maskedWrite (s.readCsr d) (CsrBank.get s.cfg.wmask d) v else s.readCsr d := by
  rw [State.readCsr, State.writeCsr_csrs, CsrBank.get_set]
  split
  · next same => rw [same]
  · rfl

theorem onlyBits_writeCsr {bits : List Nat} {s : State} {d : Csr} (only : OnlyBits bits (s.readCsr d))
    (maskOnly : OnlyBits bits (CsrBank.get s.cfg.wmask d)) (c : Csr) (v : Word) :
    OnlyBits bits ((s.writeCsr c v).readCsr d) := by
  rw [readCsr_writeCsr]
  split
  · exact onlyBits_maskedWrite only maskOnly v
  · exact only

/-- R34: the values of `mstatus` are those with no bit but MIE and MPIE. -/
theorem mstatus_values_iff (v : Word) :
    v ∈ ([0x00, 0x08, 0x80, 0x88] : List Word) ↔ OnlyBits [bitMIE, bitMPIE] v := by
  constructor
  · simp only [List.mem_cons, List.not_mem_nil, or_false]
    rintro (rfl | rfl | rfl | rfl) <;> decide
  · intro only
    have bits : v = setBit (setBit 0 bitMIE (v.getLsbD bitMIE)) bitMPIE (v.getLsbD bitMPIE) := by
      refine BitVec.eq_of_getLsbD_eq fun j hj => ?_
      rw [getLsbD_setBit _ _ _ _ (by decide), getLsbD_setBit _ _ _ _ (by decide)]
      by_cases mpie : j = bitMPIE
      · rw [if_pos mpie, mpie]
      by_cases mie : j = bitMIE
      · rw [if_neg mpie, if_pos mie, mie]
      · rw [if_neg mpie, if_neg mie, only j hj (by simp [mie, mpie])]
        exact BitVec.getLsbD_zero.symm
    rw [bits]
    cases v.getLsbD bitMIE <;> cases v.getLsbD bitMPIE <;> decide

/-- R36: the values of `mip` are those with no bit but the external one. -/
theorem mip_values_iff (v : Word) :
    v ∈ ([0x000, 0x800] : List Word) ↔ OnlyBits [bitExternal] v := by
  constructor
  · simp only [List.mem_cons, List.not_mem_nil, or_false]
    rintro (rfl | rfl) <;> decide
  · intro only
    have bits : v = setBit 0 bitExternal (v.getLsbD bitExternal) := by
      refine BitVec.eq_of_getLsbD_eq fun j hj => ?_
      rw [getLsbD_setBit _ _ _ _ (by decide)]
      by_cases external : j = bitExternal
      · rw [if_pos external, external]
      · rw [if_neg external, only j hj (by simp [external])]
        exact BitVec.getLsbD_zero.symm
    rw [bits]
    cases v.getLsbD bitExternal <;> decide

/-- With the default masks, no bit of `mstatus` and `mip` is in use beyond those the spec names. -/
structure StatusBits (s : State) : Prop where
  masks   : s.cfg.wmask = CsrBank.defaultMasks
  mstatus : OnlyBits [bitMIE, bitMPIE] s.csrs.mstatus
  mip     : OnlyBits [bitExternal] s.csrs.mip

theorem statusBits_of_same {s t : State} (bits : StatusBits s) (cfg : t.cfg = s.cfg)
    (csrs : t.csrs = s.csrs) : StatusBits t :=
  ⟨cfg ▸ bits.masks, csrs ▸ bits.mstatus, csrs ▸ bits.mip⟩

theorem statusBits_writeCsr {s : State} (bits : StatusBits s) (c : Csr) (v : Word) :
    StatusBits (s.writeCsr c v) := by
  obtain ⟨masks, mstatus, mip⟩ := bits
  refine ⟨masks, onlyBits_writeCsr (d := .mstatus) mstatus ?_ c v,
    onlyBits_writeCsr (d := .mip) mip ?_ c v⟩
  · rw [masks]
    exact (mstatus_values_iff _).mp (by decide)
  · rw [masks]
    exact (mip_values_iff _).mp (by decide)

theorem Update.statusBits {s t : State} (h : Update s t) (bits : StatusBits s) : StatusBits t := by
  have external (b : Bool) : OnlyBits [bitExternal] (setBit s.csrs.mip bitExternal b) :=
    onlyBits_setBit bits.mip (by simp) (by decide) b
  cases h with
  | reg | pc | reserve | dropReservation | notify | halted | haltOnEbreak | wait =>
    exact statusBits_of_same bits rfl rfl
  | csr c v => exact statusBits_writeCsr bits c v
  | read h =>
    obtain ⟨cfg, -, -, -, -, -, csrs, -⟩ := memRead_frame h
    exact statusBits_of_same bits cfg csrs
  | write h =>
    obtain ⟨cfg, -, -, -, -, -, -, -, -, csrs | csrs⟩ := memWrite_frame h
    · exact statusBits_of_same bits cfg csrs
    · exact ⟨cfg ▸ bits.masks, csrs ▸ bits.mstatus, csrs ▸ external false⟩
  | takeTrap =>
    exact ⟨bits.masks, onlyBits_setBit (onlyBits_setBit bits.mstatus (by simp) (by decide) _) (by simp)
      (by decide) _, bits.mip⟩
  | trapReturn =>
    exact ⟨bits.masks, onlyBits_setBit (onlyBits_setBit bits.mstatus (by simp) (by decide) _) (by simp)
      (by decide) _, bits.mip⟩
  | input h =>
    obtain ⟨-, rfl⟩ := enqueue_next h
    exact ⟨bits.masks, bits.mstatus, external true⟩

/-- Settles O51: every update keeps the unused bits at 0, so every call and every run does. -/
theorem statusAndPendingValues : Obligations.StatusAndPendingValues := by
  intro calls s t masks mstatus mip run
  have start : StatusBits s := ⟨masks, (mstatus_values_iff _).mp mstatus, (mip_values_iff _).mp mip⟩
  obtain ⟨-, mstatus', mip'⟩ :=
    runCalls_induct (fun _ _ _ => applyCall_keeps Update.statusBits) calls s t start run
  exact ⟨(mstatus_values_iff _).mpr mstatus', (mip_values_iff _).mpr mip'⟩

end Sys2Proof.Proofs
end

section
/-!
A CPU that waits with interrupts disabled (70_reset_and_hazards R291).
-/

namespace Sys2Proof.Proofs

open Sys2Proof.Machine Sys2Proof.Safety

/-- The parts of the state that a waiting CPU with interrupts disabled never changes. -/
structure StuckLike (s t : State) : Prop where
  waiting : t.waiting = true
  pc      : t.pc = s.pc
  regs    : t.regs = s.regs
  ram     : t.ram = s.ram
  resv    : t.resv = s.resv
  mstatus : t.csrs.mstatus = s.csrs.mstatus
  mie     : t.csrs.mie = s.csrs.mie

/-- R133: no call changes them. -/
theorem applyCall_stuckLike {s t u : State} {c : HostCall}
    (disabled : ¬ (s.csrs.mstatus.getLsbD 3 = true ∧ s.csrs.mie.getLsbD 11 = true))
    (h : applyCall t c = .next u) (stuck : StuckLike s t) : StuckLike s u := by
  obtain ⟨waiting, pc, regs, ram, resv, mstatus, mie⟩ := stuck
  cases c with
  | step =>
    rcases step_of_waiting h waiting with ⟨rfl, -⟩ | ⟨pending, -⟩
    · exact ⟨waiting, pc, regs, ram, resv, mstatus, mie⟩
    · rw [trapPending_iff, mstatus, mie] at pending
      exact absurd ⟨pending.1, pending.2.1⟩ disabled
  | enqueue k c =>
    obtain ⟨-, rfl⟩ := enqueue_next h
    exact ⟨waiting, pc, regs, ram, resv, mstatus, mie⟩
  | setHalted b | setHaltOnEbreak b =>
    cases h
    exact ⟨waiting, pc, regs, ram, resv, mstatus, mie⟩

/-- Settles O54, by induction over the calls. -/
theorem waitingWithoutInterruptsIsForever : Obligations.WaitingWithoutInterruptsIsForever := by
  intro calls s t waiting disabled run
  obtain ⟨waiting', pc, regs, ram, resv, mstatus, mie⟩ :=
    runCalls_induct (fun _ _ _ => applyCall_stuckLike disabled) calls s t
      ⟨waiting, rfl, rfl, rfl, rfl, rfl, rfl⟩ run
  exact ⟨waiting', pc, regs, ram, resv, mstatus, mie⟩

end Sys2Proof.Proofs
end

section
/-!
Computational and control-transfer instructions (41_integer_computational, 42_control_transfer, 44_muldiv):
shifts, products, quotients, upper immediates, jumps and branches.
-/

namespace Sys2Proof.Proofs

open Sys2Proof.Machine Sys2Proof.Safety Sys2Proof.Claims

/-! ### Patterns of integers -/

theorem ofNat_eq_pattern (n : Nat) : BitVec.ofNat 32 n = pattern n := rfl

theorem pattern_toNat (a : Word) : pattern a.toNat = a := by
  rw [← ofNat_eq_pattern, BitVec.ofNat_toNat, BitVec.setWidth_eq]

theorem pattern_toInt (a : Word) : pattern a.toInt = a := BitVec.ofInt_toInt

theorem pattern_add (m n : Int) : pattern (m + n) = pattern m + pattern n := BitVec.ofInt_add ..

theorem pattern_mul (m n : Int) : pattern (m * n) = pattern m * pattern n := BitVec.ofInt_mul ..

/-- A sign-extended immediate is the pattern of its signed value (R103 to R107). -/
theorem signExtend_eq_pattern {n : Nat} (imm : BitVec n) (narrow : n ≤ 32) :
    imm.signExtend 32 = pattern imm.toInt := by
  rw [← BitVec.toInt_signExtend_of_le narrow, pattern_toInt]

/-- An address and a signed offset, as the target of a jump or a branch. -/
theorem add_signExtend_eq_pattern {n : Nat} (a : Word) (imm : BitVec n) (narrow : n ≤ 32) :
    a + imm.signExtend 32 = pattern (a.toNat + imm.toInt) := by
  rw [pattern_add, pattern_toNat, signExtend_eq_pattern imm narrow]

/-! ### Upper immediates -/

/-- Settles O5: the sum and the shifted immediate as patterns. -/
theorem upperImmediateResults : Obligations.UpperImmediateResults := by
  intro s rd imm
  have value : immUValue imm = pattern (imm.toNat * 4096) := by
    rw [immUValue_eq, ofNat_eq_pattern, Nat.cast_mul, Nat.cast_ofNat]
  refine ⟨⟨decodes_of_word rfl rfl, completes_of_retireReg ?lui⟩,
    ⟨decodes_of_word rfl rfl, completes_of_retireReg ?auipc⟩⟩
  case lui => rw [← value]; rfl
  case auipc => rw [pattern_add, pattern_toNat, ← value]; rfl

/-! ### Shifts -/

theorem shiftLeft_eq_pattern (a : Word) (n : Nat) : shiftLeft a n = pattern (a.toNat * 2 ^ n) := by
  rw [shiftLeft_eq, ofNat_eq_pattern, Nat.cast_mul, Nat.cast_pow, Nat.cast_ofNat]

theorem shiftRightLogical_eq_pattern (a : Word) (n : Nat) :
    shiftRightLogical a n = pattern (a.toNat / 2 ^ n) := by
  rw [shiftRightLogical_eq, ofNat_eq_pattern, Int.natCast_ediv, Nat.cast_pow, Nat.cast_ofNat]

/-- As `completes_of_opReg`, for a register and a 5-bit amount. -/
theorem completes_of_opShift (f : Word → Nat → Word) {i : Instr} {s : State} {rd rs1 : RegId}
    {shamt : BitVec 5} {v : Word} (run : exec i s = opShift f rd rs1 shamt s)
    (value : f (s.readReg rs1) shamt.toNat = v) : Completes i s rd v :=
  completes_of_retireReg (by rw [run, opShift, value])

/-- Settles O7: each shift by the immediate amount. -/
theorem shiftImmediateResults : Obligations.ShiftImmediateResults := by
  intro s rd rs1 shamt a n
  exact ⟨⟨decodes_of_word rfl rfl, completes_of_opShift shiftLeft rfl (shiftLeft_eq_pattern a n)⟩,
    ⟨decodes_of_word rfl rfl,
      completes_of_opShift shiftRightLogical rfl (shiftRightLogical_eq_pattern a n)⟩,
    ⟨decodes_of_word rfl rfl,
      completes_of_opShift shiftRightArithmetic rfl (shiftRightArithmetic_eq a n)⟩⟩

/-- An instruction that shifts one register by the low five bits of another. -/
theorem completes_of_opReg_shift (f : Word → Nat → Word) {i : Instr} {s : State} {rd rs1 rs2 : RegId}
    {v : Word} (run : exec i s = opReg (fun a b => f a (shiftAmount b)) rd rs1 rs2 s)
    (value : f (s.readReg rs1) ((s.readReg rs2).toNat % 32) = v) : Completes i s rd v :=
  completes_of_opReg _ run (by rw [shiftAmount_eq, value])

/-- Settles O9: each shift by the register amount. -/
theorem shiftRegisterResults : Obligations.ShiftRegisterResults := by
  intro s rd rs1 rs2 a n
  exact ⟨⟨decodes_of_word rfl rfl, completes_of_opReg_shift shiftLeft rfl (shiftLeft_eq_pattern a n)⟩,
    ⟨decodes_of_word rfl rfl,
      completes_of_opReg_shift shiftRightLogical rfl (shiftRightLogical_eq_pattern a n)⟩,
    ⟨decodes_of_word rfl rfl,
      completes_of_opReg_shift shiftRightArithmetic rfl (shiftRightArithmetic_eq a n)⟩⟩

/-! ### Products and quotients -/

/-- R201: the low word of a product is the same for signed and unsigned operands. -/
theorem pattern_mul_toNat_eq_toInt (a b : Word) :
    pattern (a.toNat * b.toNat) = pattern (a.toInt * b.toInt) := by
  rw [pattern_mul, pattern_mul, pattern_toNat, pattern_toNat, pattern_toInt, pattern_toInt]

/-- Settles O10: the model computes the exact products. -/
theorem multiplyResults : Obligations.MultiplyResults := by
  intro s rd rs1 rs2 a b
  exact ⟨⟨decodes_of_word rfl rfl, completes_of_opReg mulLow rfl rfl, pattern_mul_toNat_eq_toInt a b⟩,
    ⟨decodes_of_word rfl rfl, completes_of_opReg mulHighSigned rfl rfl⟩,
    ⟨decodes_of_word rfl rfl, completes_of_opReg mulHighSignedUnsigned rfl rfl⟩,
    ⟨decodes_of_word rfl rfl, completes_of_opReg mulHighUnsigned rfl rfl⟩⟩

/-- Settles O11: the model's values, corner by corner. -/
theorem divideResults : Obligations.DivideResults := by
  intro s rd rs1 rs2 a b
  exact ⟨⟨decodes_of_word rfl rfl, completes_of_opReg divSigned rfl rfl⟩,
    ⟨decodes_of_word rfl rfl, completes_of_opReg divUnsigned rfl rfl⟩,
    ⟨decodes_of_word rfl rfl, completes_of_opReg remSigned rfl rfl⟩,
    ⟨decodes_of_word rfl rfl, completes_of_opReg remUnsigned rfl rfl⟩⟩

/-- Outside the corners DIV is the signed division of patterns. -/
theorem toInt_divSigned {a b : Word} (nonzero : b ≠ 0)
    (noOverflow : ¬ (a = intMin ∧ b = allOnes)) : (divSigned a b).toInt = a.toInt.tdiv b.toInt := by
  have exact : (a.sdiv b).toInt = a.toInt.tdiv b.toInt := by
    refine BitVec.toInt_sdiv_of_ne_or_ne a b ?_
    by_contra! both
    exact noOverflow both
  rw [divSigned, if_neg nonzero, if_neg noOverflow, ← exact, trunc32, BitVec.ofInt_toInt]

/-- Outside the corners REM is the signed remainder of patterns. -/
theorem toInt_remSigned {a b : Word} (nonzero : b ≠ 0)
    (noOverflow : ¬ (a = intMin ∧ b = allOnes)) : (remSigned a b).toInt = a.toInt.tmod b.toInt := by
  rw [remSigned, if_neg nonzero, if_neg noOverflow, ← Int.tmod_def, ← BitVec.toInt_srem, trunc32,
    BitVec.ofInt_toInt]

theorem toNat_divUnsigned {a b : Word} (nonzero : b ≠ 0) :
    (divUnsigned a b).toNat = a.toNat / b.toNat := by
  rw [divUnsigned, if_neg nonzero, ← BitVec.toNat_udiv, BitVec.ofNat_toNat, BitVec.setWidth_eq]

theorem toNat_remUnsigned {a b : Word} (nonzero : b ≠ 0) :
    (remUnsigned a b).toNat = a.toNat % b.toNat := by
  rw [remUnsigned, if_neg nonzero, ← BitVec.toNat_umod, BitVec.ofNat_toNat, BitVec.setWidth_eq]

/-- What a register-register instruction leaves in its destination. -/
theorem readReg_of_opReg (f : Word → Word → Word) {i : Instr} {s t : State} {rd rs1 rs2 : RegId}
    (run : exec i s = opReg f rd rs1 rs2 s) (h : exec i s = .next t) (nonzero : rd ≠ 0) :
    t.readReg rd = f (s.readReg rs1) (s.readReg rs2) := by
  rw [h, opReg, State.retireReg_eq] at run
  cases run
  rw [State.setPc_readReg, State.readReg_writeReg, if_pos ⟨rfl, nonzero⟩]

/-- Settles O12, from the laws of `tdiv`, `tmod`, `/` and `%`. -/
theorem divisionLaw : Obligations.DivisionLaw := by
  intro s q r rs1 rs2 t u hq hr nonzero a b
  refine ⟨fun noOverflow quotient remainder => ?_, fun quotient remainder => ?_⟩
  · rw [readReg_of_opReg divSigned rfl quotient hq, readReg_of_opReg remSigned rfl remainder hr,
      toInt_divSigned nonzero noOverflow, toInt_remSigned nonzero noOverflow]
    have divisor : 0 < b.toInt.natAbs := by
      rw [Int.natAbs_pos, ← BitVec.toInt_zero (w := 32)]
      exact fun eq => nonzero (BitVec.eq_of_toInt_eq eq)
    refine ⟨(Int.mul_tdiv_add_tmod _ _).symm, ?_, fun pos => Int.tmod_nonneg _ pos, fun neg => ?_⟩
    · rw [Int.abs_eq_natAbs, Int.abs_eq_natAbs, Int.natAbs_tmod]
      exact_mod_cast Nat.mod_lt _ divisor
    · have := Int.tmod_nonneg b.toInt (Int.neg_nonneg_of_nonpos neg)
      rw [Int.neg_tmod] at this
      exact Int.nonpos_of_neg_nonneg this
  · rw [readReg_of_opReg divUnsigned rfl quotient hq, readReg_of_opReg remUnsigned rfl remainder hr,
      toNat_divUnsigned nonzero, toNat_remUnsigned nonzero]
    have divisor : 0 < b.toNat := Nat.pos_of_ne_zero fun zero => nonzero (BitVec.eq_of_toNat_eq zero)
    exact ⟨(Nat.div_add_mod _ _).symm, Nat.mod_lt _ divisor⟩

/-! ### Jumps and branches -/

/-- R137, R182: a jump goes to its target and writes the link. -/
theorem jumpAndLink_spec (rd : RegId) (target : Word) (s : State) :
    ∃ t, jumpAndLink rd target s = .next t ∧ t.pc = target ∧ RegWritten rd (s.pc + 4) s t ∧
      OnlyRegsAndPc s t :=
  ⟨_, rfl, rfl, regWritten_writeReg s rd _, onlyRegsAndPc_writeReg s rd _ _⟩

/-- Settles O13: the two targets as patterns. -/
theorem jumpResults : Obligations.JumpResults := by
  intro s rd rs1 imm off
  refine ⟨fun even => decodes_of_word (by simpa [Instr.wf, evenOffset21] using even) rfl, ?jal,
    decodes_of_word rfl rfl, ?jalr⟩
  case jal =>
    rw [← add_signExtend_eq_pattern s.pc off (by decide)]
    exact jumpAndLink_spec rd _ s
  case jalr =>
    rw [← add_signExtend_eq_pattern (s.readReg rs1) imm (by decide)]
    exact jumpAndLink_spec rd _ s

/-- R183 to R188: a branch goes to its target exactly when its condition holds. -/
theorem goesTo_of_branch (cond : Word → Word → Bool) {i : Instr} {s : State} {rs1 rs2 : RegId}
    {imm : BitVec 13} {P : Prop} [Decidable P] (run : exec i s = branch cond rs1 rs2 imm s)
    (holds : cond (s.readReg rs1) (s.readReg rs2) = true ↔ P) :
    GoesTo i s (if P then pattern (s.pc.toNat + imm.toInt) else s.pc + 4) := by
  rw [GoesTo, run, branch, ← add_signExtend_eq_pattern s.pc imm (by decide)]
  by_cases taken : P
  · rw [if_pos (holds.mpr taken), if_pos taken]
    exact ⟨_, rfl, rfl, sameRegs_setPc s _, onlyRegsAndPc_setPc s _⟩
  · rw [if_neg (mt holds.mp taken), if_neg taken]
    exact ⟨_, rfl, rfl, sameRegs_setPc s _, onlyRegsAndPc_setPc s _⟩

/-- Settles O14: the six conditions. -/
theorem branchResults : Obligations.BranchResults := by
  intro s rs1 rs2 imm a b target
  refine ⟨fun even => ?decode, ?beq, ?bne, ?blt, ?bge, ?bltu, ?bgeu⟩
  case decode =>
    have wf : evenOffset13 imm = true := by simpa [evenOffset13] using even
    exact ⟨decodes_of_word wf rfl, decodes_of_word wf rfl, decodes_of_word wf rfl,
      decodes_of_word wf rfl, decodes_of_word wf rfl, decodes_of_word wf rfl⟩
  case beq => exact goesTo_of_branch (fun a b => a == b) rfl beq_iff_eq
  case bne => exact goesTo_of_branch (fun a b => a != b) rfl bne_iff_ne
  case blt => exact goesTo_of_branch signedLess rfl (by simp [signedLess, a, b])
  case bge => exact goesTo_of_branch (fun a b => !signedLess a b) rfl (by simp [signedLess, a, b])
  case bltu => exact goesTo_of_branch unsignedLess rfl (by simp [unsignedLess, a, b])
  case bgeu => exact goesTo_of_branch (fun a b => !unsignedLess a b) rfl (by simp [unsignedLess, a, b])

end Sys2Proof.Proofs
end

section
/-!
The bus and its devices (20_memory R61 to R81): routing, RAM accesses, and the register map of an IO device.
-/

namespace Sys2Proof.Proofs

open Sys2Proof.Machine Sys2Proof.Safety Sys2Proof.Claims

/-! ### Routing -/

/-- R62, R63: on a platform that builds a machine, the first IO device found is the only one. -/
theorem ioOwner_of_getElem? {p : Platform} (wf : Platform.wf p = true) {k b addr : Nat}
    (device : p.ioBases[k]? = some b) (low : b ≤ addr) (high : addr < b + p.ioSize) :
    ioOwner p.ioSize addr p.ioBases 0 = some (k, b) := by
  cases found : ioOwner p.ioSize addr p.ioBases 0 with
  | none => exact absurd ⟨low, high⟩ (ioOwner_none.mp found b (List.mem_of_getElem? device))
  | some r =>
    obtain ⟨j, a⟩ := r
    obtain ⟨-, other, low', high'⟩ := ioOwner_some found
    rw [Nat.sub_zero] at other
    by_cases same : j = k
    · subst same
      rw [device] at other
      cases other
      rfl
    · have := io_io_disjoint wf same other device
      omega

/-- The owner of an address of RAM. -/
theorem owner_ram {p : Platform} {addr : Nat} (low : p.ramBase ≤ addr)
    (high : addr < p.ramBase + p.ramSize) :
    Platform.owner p addr = some (.ram, p.ramBase, p.ramBase + p.ramSize) := by
  rw [Platform.owner, if_pos ((inRange_iff _ _ _).mpr ⟨low, high⟩)]

/-- The owner of an address beside RAM is the IO device found. -/
theorem owner_io {p : Platform} {addr k b : Nat} (notRam : inRange p.ramBase p.ramSize addr ≠ true)
    (found : ioOwner p.ioSize addr p.ioBases 0 = some (k, b)) :
    Platform.owner p addr = some (.io k, b, b + p.ioSize) := by
  rw [Platform.owner, if_neg notRam, found]

/-- Everything that can be an address's owner (R63). -/
theorem owner_cases {p : Platform} {addr start stop : Nat} {d : Device}
    (h : Platform.owner p addr = some (d, start, stop)) :
    (inRange p.ramBase p.ramSize addr = true ∧ d = .ram ∧ start = p.ramBase ∧
      stop = p.ramBase + p.ramSize) ∨
    (∃ k, ioOwner p.ioSize addr p.ioBases 0 = some (k, start) ∧ d = .io k ∧
      stop = start + p.ioSize) := by
  unfold Platform.owner at h
  split at h
  · next inRam =>
    cases h
    exact .inl ⟨inRam, rfl, rfl, rfl⟩
  · split at h
    · next k b found =>
      cases h
      exact .inr ⟨k, found, rfl, rfl⟩
    · cases h

/-- Settles O15, from what can be an owner and what is one. -/
theorem routingFindsTheOwner : Obligations.RoutingFindsTheOwner := by
  intro p addr d start stop wf
  constructor
  · intro owner
    rcases owner_cases owner with ⟨inRam, rfl, rfl, rfl⟩ | ⟨k, found, rfl, rfl⟩
    · obtain ⟨low, high⟩ := (inRange_iff _ _ _).mp inRam
      exact ⟨low, high, .inl ⟨rfl, rfl, rfl⟩⟩
    · obtain ⟨-, device, low, high⟩ := ioOwner_some found
      exact ⟨low, high, .inr ⟨k, rfl, device, rfl⟩⟩
  · rintro ⟨low, high, ⟨rfl, rfl, rfl⟩ | ⟨k, rfl, device, rfl⟩⟩
    · exact owner_ram low high
    · refine owner_io ?_ (ioOwner_of_getElem? wf device low high)
      have := ram_io_disjoint wf device
      rw [Ne, inRange_iff]
      omega

/-! ### RAM -/

/-- R66, R70: a read inside RAM answers the number of its bytes and changes nothing. -/
theorem memRead_inRam {s : State} {a : Word} {sz : Size} (inRam : InRam s.cfg a sz.bytes) :
    s.memRead a sz = .ok (pattern (ramNumber s a sz.bytes), s) := by
  rw [memRead_ram inRam, readLe_eq_ramNumber s a _ sz.bytes_le, ofNat_eq_pattern]

/-- R67, R72: what a little-endian write leaves of RAM. -/
theorem ramHolds_of_writeLe {s t : State} {a : Word} {n : Nat} {v : Word}
    (wf : Memory.wf s.ram = true) (ram : t.ram = s.ram.writeLe (ramOffset s.cfg a) n v) :
    RamHolds s t a n v := by
  refine ⟨fun k hk => ?_, fun k outside => ?_⟩
  · rw [ram, readByte_writeLe _ _ _ _ _ wf, if_pos (by omega), Nat.add_sub_cancel_left,
      toNat_byteOfWord]
  · rw [ram, readByte_writeLe _ _ _ _ _ wf, if_neg (by omega)]

/-- Settles O16: both accesses go to the RAM device. -/
theorem ramAccess : Obligations.RamAccess := fun _ _ _ v inRam =>
  ⟨memRead_inRam inRam, fun wf => ⟨_, memWrite_ram v inRam, ramHolds_of_writeLe wf rfl, rfl⟩⟩

/-! ### The register map of an IO device -/

theorem getElem_shadowWrite (sh : Vector Byte 4) (bs : List Byte) (j : Fin 4) :
    (shadowWrite sh bs)[j] = bs.getD j sh[j] := by
  simp [shadowWrite, Vector.getD]

theorem getD_leBytes (n : Nat) (v : Word) (k : Nat) (b : Byte) :
    (leBytes n v).getD k b = if k < n then BitVec.ofNat 8 (v.toNat / 256 ^ k) else b := by
  split
  · next inside =>
    rw [leBytes_getD _ _ _ _ inside]
    apply BitVec.eq_of_toNat_eq
    rw [toNat_byteOfWord, BitVec.toNat_ofNat]
  · next outside => exact List.getD_eq_default _ _ (by simpa using outside)

theorem map_toNat_leBytes (n : Nat) (v : Word) :
    (leBytes n v).map BitVec.toNat = (List.range n).map fun j => v.toNat / 256 ^ j % 256 := by
  rw [leBytes, List.map_map]
  exact List.map_congr_left fun j _ => toNat_byteOfWord v j

/-- R76: a write at offset 0 emits output, and shows in the shadow where there is one. -/
theorem ioWrite_output (sh : Bool) (d : IoState) (sz : Size) (v : Word) :
    ioWrite sh d 0 sz v = some
      ({ d with
          outLog := d.outLog ++ leBytes sz.bytes v
          shadow := if sh then shadowWrite d.shadow (leBytes sz.bytes v) else d.shadow }, none) := rfl

/-- R77: a word write of 0 at offset 4 raises "interrupt cleared". -/
theorem ioWrite_clear (sh : Bool) (d : IoState) :
    ioWrite sh d 4 .word 0 = some (d, some .clear) := rfl

/-- R81: no other write is defined. -/
theorem ioWrite_undefined {off : Nat} {sz : Size} {v : Word} (sh : Bool) (d : IoState)
    (notOutput : off ≠ 0) (notClear : ¬ (off = 4 ∧ sz = .word ∧ v = 0)) :
    ioWrite sh d off sz v = none := by
  rw [ioWrite, if_neg notOutput, if_neg notClear]

/-- R80: a read inside the shadow. -/
theorem ioRead_shadow {off : Nat} {sz : Size} (d : IoState) (inside : off + sz.bytes ≤ 4) :
    ioRead true d off sz = some (ofLeBytes (shadowBytes d.shadow off sz.bytes), d) := by
  rw [ioRead, if_neg (by omega), if_pos ⟨rfl, inside⟩]

/-- R81: no other read is defined. -/
theorem ioRead_undefined {sh : Bool} {off : Nat} {sz : Size} (d : IoState)
    (notInput : ¬ (off = 8 ∧ sz = .byte)) (notShadow : ¬ (sh = true ∧ off + sz.bytes ≤ 4)) :
    ioRead sh d off sz = none := by
  rw [ioRead, if_neg notInput, if_neg notShadow]

/-- The number of the shadow's bytes (R66, R80). -/
theorem toNat_shadowBytes (sh : Vector Byte 4) (off n : Nat) (short : n ≤ 4) :
    (ofLeBytes (shadowBytes sh off n)).toNat =
      ((List.range n).map fun j => (sh.getD (off + j) 0).toNat * 256 ^ j).sum := by
  have length : (shadowBytes sh off n).length = n := by simp [shadowBytes]
  rw [toNat_ofLeBytes _ (by omega), length]
  congr 1
  refine List.map_congr_left fun j hj => ?_
  simp [shadowBytes, List.getD_eq_getElem?_getD, List.mem_range.mp hj]

/-- Settles O18, from the two writes of the register map. -/
theorem ioWrites : Obligations.IoWrites := by
  intro s a sz v k d wf device
  refine ⟨fun inIo => ?output, fun inIo => ?clear⟩
  case output =>
    have write := memWrite_io wf (sz := sz) v inIo
    rw [ioState_of_getElem? device, ioWrite_output] at write
    refine ⟨_, leBytes sz.bytes v, write, rfl, rfl, map_toNat_leBytes _ _, fun j => ?_⟩
    cases s.cfg.ioShadow with
    | false => simp
    | true =>
      show (shadowWrite _ _)[j] = _
      rw [getElem_shadowWrite, getD_leBytes]
      simp
  case clear =>
    have write := memWrite_io wf (sz := .word) 0 inIo
    rw [ioWrite_clear] at write
    simp only [State.setIoState_self] at write
    refine ⟨setBit s.csrs.mip bitExternal false, fun j _ => ?_, write⟩
    rw [getLsbD_setBit _ _ _ _ (by decide), bitExternal]
    by_cases external : j = 11 <;> simp [external]

/-- Settles O19: the read is the shadow's, and leaves the device as it is. -/
theorem ioShadowRead : Obligations.IoShadowRead := by
  intro s a sz k off d wf hasShadow inIo inside device
  have read := memRead_of_ioRead wf inIo device (by rw [hasShadow]; exact ioRead_shadow d inside)
  rw [← ioState_of_getElem? device, State.setIoState_self] at read
  rw [← ioState_of_getElem? device]
  exact ⟨_, read, toNat_shadowBytes _ _ _ sz.bytes_le⟩

/-- The nine AMOs with the same operands. -/
def amos (rd rs1 rs2 : RegId) (aq rl : BitVec 1) : List Instr :=
  [.amoswapW rd rs1 rs2 aq rl, .amoaddW rd rs1 rs2 aq rl, .amoxorW rd rs1 rs2 aq rl,
    .amoandW rd rs1 rs2 aq rl, .amoorW rd rs1 rs2 aq rl, .amominW rd rs1 rs2 aq rl,
    .amomaxW rd rs1 rs2 aq rl, .amominuW rd rs1 rs2 aq rl, .amomaxuW rd rs1 rs2 aq rl]

/-- R214 to R222: each of the nine is `amo` with its operation. -/
theorem exec_amo {i : Instr} {rd rs1 rs2 : RegId} {aq rl : BitVec 1} (isAmo : i ∈ amos rd rs1 rs2 aq rl)
    (s : State) : ∃ op, exec i s = amo op rd rs1 rs2 s := by
  simp only [amos, List.mem_cons, List.not_mem_nil, or_false] at isAmo
  rcases isAmo with rfl | rfl | rfl | rfl | rfl | rfl | rfl | rfl | rfl
  · exact ⟨fun _ b => b, rfl⟩
  · exact ⟨(· + ·), rfl⟩
  · exact ⟨(· ^^^ ·), rfl⟩
  · exact ⟨(· &&& ·), rfl⟩
  · exact ⟨(· ||| ·), rfl⟩
  · exact ⟨fun t b => if t.toInt ≤ b.toInt then t else b, rfl⟩
  · exact ⟨fun t b => if b.toInt ≤ t.toInt then t else b, rfl⟩
  · exact ⟨fun t b => if t.toNat ≤ b.toNat then t else b, rfl⟩
  · exact ⟨fun t b => if b.toNat ≤ t.toNat then t else b, rfl⟩

/-- R212 (f): an AMO at a misaligned address is refused. -/
theorem amo_misaligned (op : Word → Word → Word) {s : State} {rd rs1 rs2 : RegId}
    (misaligned : ¬ Aligned4 (s.readReg rs1)) :
    amo op rd rs1 rs2 s = .refused (.atomicMisaligned (s.readReg rs1)) := by
  rw [amo, if_neg (mt (wordAligned_iff _).mp misaligned)]

/-- Settles O20: outside the register map both device functions answer nothing. -/
theorem undefinedAccessesRefused : Obligations.UndefinedAccessesRefused := by
  refine ⟨fun s a sz v k off wf inIo => ⟨fun notInput notShadow => ?_, fun notOutput notClear => ?_⟩,
    fun i s rd rs1 rs2 aq rl misaligned isAmo => ?_⟩
  · rw [memRead_io wf inIo, ioRead_undefined _ notInput notShadow]
  · rw [memWrite_io wf v inIo, ioWrite_undefined _ _ notOutput notClear]
  · obtain ⟨op, run⟩ := exec_amo isAmo s
    rw [run, amo_misaligned op misaligned]

end Sys2Proof.Proofs
end

section
/-!
Loads and stores (43_load_store R190 to R199), and the fetch of a word that was stored (20_memory R72, R89,
40_step_cycle R134).
-/

namespace Sys2Proof.Proofs

open Sys2Proof.Machine Sys2Proof.Safety Sys2Proof.Claims

/-! ### Completion over a state the bus left -/

/-- An instruction whose last action, after what led to `u`, is the write of `x[rd]`. -/
theorem completesOver_of_retireReg {i : Instr} {s u : State} {rd : RegId} {v : Word}
    (run : exec i s = u.retireReg rd v) (pc : u.pc = s.pc) (regs : u.regs = s.regs) :
    CompletesOver i s u rd v := by
  refine ⟨_, run, congrArg (· + 4) pc, fun r => ?_, onlyRegsAndPc_writeReg u rd v _⟩
  have read : s.readReg r = u.readReg r := by rw [State.readReg, State.readReg, regs]
  rw [read]
  exact u.readReg_writeReg rd r v

/-- An instruction whose last action, after what led to `u`, is the move to the next instruction. -/
theorem completesPlain_of_retire {i : Instr} {s u : State} (run : exec i s = u.retire)
    (pc : u.pc = s.pc) (regs : u.regs = s.regs) : CompletesPlain i s u := by
  refine ⟨_, run, congrArg (· + 4) pc, fun r => ?_, onlyRegsAndPc_setPc u _⟩
  rw [State.setPc_readReg, State.readReg, State.readReg, regs]

/-! ### Loads and stores over any device -/

theorem effectiveAddress_eq_pattern (s : State) (rs1 : RegId) (imm : BitVec 12) :
    s.effectiveAddress rs1 imm = pattern ((s.readReg rs1).toInt + imm.toInt) := by
  rw [State.effectiveAddress, add_eq_pattern, immISValue_toInt]

theorem sext8_eq_pattern (v : Word) : sext8 v = pattern (signedValue 8 (v.toNat % 256)) :=
  sext8_eq_ofInt v

theorem sext16_eq_pattern (v : Word) : sext16 v = pattern (signedValue 16 (v.toNat % 65536)) :=
  sext16_eq_ofInt v

theorem zext8_eq_pattern (v : Word) : zext8 v = pattern (v.toNat % 256) := zext8_eq_ofNat v

theorem zext16_eq_pattern (v : Word) : zext16 v = pattern (v.toNat % 65536) := zext16_eq_ofNat v

/-- R190: a load completes over the state its read leaves. -/
theorem completesOver_of_load (sz : Size) (ext : Word → Word) {i : Instr} {s u : State} {rd rs1 : RegId}
    {imm : BitVec 12} {v w : Word} (run : exec i s = load sz ext rd rs1 imm s)
    (read : s.memRead (s.effectiveAddress rs1 imm) sz = .ok (v, u)) (value : ext v = w) :
    CompletesOver i s u rd w := by
  obtain ⟨-, regs, pc, -⟩ := memRead_frame read
  subst value
  exact completesOver_of_retireReg (by rw [run, load, read]) pc regs

/-- R190 (d): a load whose read fails ends with that failure. -/
theorem load_of_error {sz : Size} {ext : Word → Word} {s : State} {rd rs1 : RegId} {imm : BitVec 12}
    {e : BusError} (failed : s.memRead (s.effectiveAddress rs1 imm) sz = .error e) :
    load sz ext rd rs1 imm s = e.result (s.pc + 4) := by
  rw [load, failed]
  rfl

/-- R199: a store completes with the effects of its write. -/
theorem completesPlain_of_store (sz : Size) {i : Instr} {s u : State} {rs1 rs2 : RegId}
    {imm : BitVec 12} (run : exec i s = store sz rs1 rs2 imm s)
    (write : s.memWrite (s.effectiveAddress rs1 imm) sz (s.readReg rs2) = .ok u) :
    CompletesPlain i s u := by
  obtain ⟨-, regs, pc, -⟩ := memWrite_frame write
  exact completesPlain_of_retire (by rw [run, store, write]) pc regs

/-- R199 (e): a store whose write fails ends with that failure. -/
theorem store_of_error {sz : Size} {s : State} {rs1 rs2 : RegId} {imm : BitVec 12} {e : BusError}
    (failed : s.memWrite (s.effectiveAddress rs1 imm) sz (s.readReg rs2) = .error e) :
    store sz rs1 rs2 imm s = e.result (s.pc + 4) := by
  rw [store, failed]
  rfl

/-- Settles O21, from what a load makes of the read's answer. -/
theorem loadsReadTheBus : Obligations.LoadsReadTheBus := by
  intro s rd rs1 imm a
  refine ⟨effectiveAddress_eq_pattern s rs1 imm, decodes_of_word rfl rfl, decodes_of_word rfl rfl,
    decodes_of_word rfl rfl, decodes_of_word rfl rfl, decodes_of_word rfl rfl,
    fun v u read => ⟨?lb, ?lbu⟩, fun v u read => ⟨?lh, ?lhu⟩, fun v u read => ?lw,
    fun e failed => ⟨load_of_error failed, load_of_error failed⟩,
    fun e failed => ⟨load_of_error failed, load_of_error failed⟩, fun e failed => load_of_error failed⟩
  case lb => exact completesOver_of_load .byte sext8 rfl read (sext8_eq_pattern v)
  case lbu => exact completesOver_of_load .byte zext8 rfl read (zext8_eq_pattern v)
  case lh => exact completesOver_of_load .half sext16 rfl read (sext16_eq_pattern v)
  case lhu => exact completesOver_of_load .half zext16 rfl read (zext16_eq_pattern v)
  case lw => exact completesOver_of_load .word id rfl read rfl

/-- Settles O23, from what a store makes of the write's answer. -/
theorem storesWriteTheBus : Obligations.StoresWriteTheBus := by
  intro s rs1 rs2 imm a b
  exact ⟨effectiveAddress_eq_pattern s rs1 imm, decodes_of_word rfl rfl, decodes_of_word rfl rfl,
    decodes_of_word rfl rfl, fun _ => completesPlain_of_store .byte rfl,
    fun _ => completesPlain_of_store .half rfl, fun _ => completesPlain_of_store .word rfl,
    fun _ => store_of_error, fun _ => store_of_error, fun _ => store_of_error⟩

/-! ### Inside RAM -/

theorem toNat_pattern_ramNumber (s : State) (a : Word) {n : Nat} (short : n ≤ 4) :
    (pattern (ramNumber s a n)).toNat = ramNumber s a n := by
  have lt : ramNumber s a n < 256 ^ 4 :=
    (ramNumber_lt s a n).trans_le (Nat.pow_le_pow_right (by decide) short)
  rw [← ofNat_eq_pattern, BitVec.toNat_ofNat]
  exact Nat.mod_eq_of_lt lt

/-- A number of `n` bytes is its own low `n` bytes. -/
theorem toNat_pattern_ramNumber_mod (s : State) (a : Word) {n : Nat} (short : n ≤ 4) :
    (pattern (ramNumber s a n)).toNat % 256 ^ n = ramNumber s a n := by
  rw [toNat_pattern_ramNumber s a short, Nat.mod_eq_of_lt (ramNumber_lt s a n)]

/-- Settles O22: the reads inside RAM complete and change nothing. -/
theorem loadsFromRam : Obligations.LoadsFromRam := by
  intro s rd rs1 imm a
  refine ⟨fun inRam => ?byte, fun inRam => ?half, fun inRam => ?word⟩
  case byte =>
    have read : s.memRead a .byte = .ok (pattern (ramNumber s a 1), s) := memRead_inRam inRam
    have low : (pattern (ramNumber s a 1)).toNat % 256 = ramNumber s a 1 :=
      toNat_pattern_ramNumber_mod s a (by decide)
    exact ⟨completesOver_of_load .byte sext8 rfl read ((sext8_eq_pattern _).trans (by rw [low])),
      completesOver_of_load .byte zext8 rfl read ((zext8_eq_ofNat _).trans (by rw [low]; rfl))⟩
  case half =>
    have read : s.memRead a .half = .ok (pattern (ramNumber s a 2), s) := memRead_inRam inRam
    have low : (pattern (ramNumber s a 2)).toNat % 65536 = ramNumber s a 2 :=
      toNat_pattern_ramNumber_mod s a (by decide)
    exact ⟨completesOver_of_load .half sext16 rfl read ((sext16_eq_pattern _).trans (by rw [low])),
      completesOver_of_load .half zext16 rfl read ((zext16_eq_ofNat _).trans (by rw [low]; rfl))⟩
  case word => exact completesOver_of_load .word id rfl (memRead_inRam (sz := .word) inRam) rfl

/-- R196 to R199: a store inside RAM completes. -/
theorem storesToRam_of_store (sz : Size) {i : Instr} {s : State} {rs1 rs2 : RegId} {imm : BitVec 12}
    (run : exec i s = store sz rs1 rs2 imm s) (wf : Memory.wf s.ram = true)
    (inRam : InRam s.cfg (s.effectiveAddress rs1 imm) sz.bytes) :
    StoresToRam i s (s.effectiveAddress rs1 imm) sz.bytes (s.readReg rs2) := by
  rw [StoresToRam, run, store, memWrite_ram _ inRam]
  exact ⟨_, rfl, rfl, ramHolds_of_writeLe wf rfl, rfl, fun _ => rfl, ⟨rfl, rfl, rfl⟩, rfl, rfl, rfl, rfl⟩

/-- Settles O24, for the three sizes. -/
theorem storesToRamComplete : Obligations.StoresToRamComplete := fun _ _ _ _ wf =>
  ⟨storesToRam_of_store .byte rfl wf, storesToRam_of_store .half rfl wf,
    storesToRam_of_store .word rfl wf⟩

/-- What a completed SW inside RAM leaves. -/
theorem sw_next {s t : State} {rs1 rs2 : RegId} {imm : BitVec 12} (wf : Memory.wf s.ram = true)
    (inRam : InRam s.cfg (s.effectiveAddress rs1 imm) 4) (run : exec (.sw rs1 rs2 imm) s = .next t) :
    RamHolds s t (s.effectiveAddress rs1 imm) 4 (s.readReg rs2) ∧ t.cfg = s.cfg := by
  obtain ⟨-, -, word⟩ := storesToRamComplete s rs1 rs2 imm wf
  obtain ⟨u, run', -, holds, frame⟩ := word inRam
  rw [run] at run'
  cases run'
  exact ⟨holds, frame.cfg⟩

/-- R72: the number of some bytes of a stored word. -/
theorem ramNumber_of_ramHolds {s t : State} {a b : Word} {k n : Nat} {v : Word}
    (holds : RamHolds s t a 4 v) (cfg : t.cfg = s.cfg) (low : s.cfg.ramBase ≤ a.toNat)
    (address : b.toNat = a.toNat + k) (inside : k + n ≤ 4) :
    ramNumber t b n = v.toNat / 256 ^ k % 256 ^ n := by
  rw [← sum_bytes, ramNumber]
  congr 1
  refine List.map_congr_left fun j hj => ?_
  have hj := List.mem_range.mp hj
  have offset : ramOffset t.cfg b + j = ramOffset s.cfg a + (k + j) := by
    rw [cfg, ramOffset, ramOffset, address]
    omega
  rw [offset, holds.1 (k + j) (by omega), Nat.pow_add, Nat.div_div_eq_div_mul]

/-- R72: a word read back. -/
theorem pattern_ramNumber_of_ramHolds {s t : State} {a : Word} {v : Word} (holds : RamHolds s t a 4 v)
    (cfg : t.cfg = s.cfg) (low : s.cfg.ramBase ≤ a.toNat) : pattern (ramNumber t a 4) = v := by
  rw [ramNumber_of_ramHolds holds cfg low (Nat.add_zero _).symm le_rfl, Nat.pow_zero, Nat.div_one]
  exact (congrArg (fun n : Nat => pattern n) (Nat.mod_eq_of_lt v.isLt)).trans (pattern_toNat v)

/-- Settles O25: the load reads the number of the stored bytes. -/
theorem loadAfterStore : Obligations.LoadAfterStore := by
  intro s t rd rs1 rs2 base imm off wf inRam run
  obtain ⟨holds, cfg⟩ := sw_next wf inRam run
  obtain ⟨byte, half, word⟩ := loadsFromRam t rd base off
  have ⟨low, high⟩ := inRam
  rw [cfg] at byte half word
  refine ⟨fun same => ?_, fun k hk address => ?_, fun k hk address => ?_⟩
  · rw [same, pattern_ramNumber_of_ramHolds holds cfg low] at word
    exact word inRam
  · have number := ramNumber_of_ramHolds (n := 1) holds cfg low address (by omega)
    have load := (byte ⟨by omega, by omega⟩).2
    rw [number] at load
    exact_mod_cast load
  · have number := ramNumber_of_ramHolds (n := 2) holds cfg low address (by omega)
    have load := (half ⟨by omega, by omega⟩).2
    rw [number] at load
    exact_mod_cast load

/-! ### The fetch -/

/-- R134, R135: a Running step is the instruction that the fetched word decodes to. -/
theorem step_of_decoded {s t : State} {w : Word} {i : Instr} (running : Running s)
    (read : s.memRead s.pc .word = .ok (w, t)) (decoded : decodeWord w = .ok i) :
    step s = exec i t := by
  rw [step_running running, runInstruction, State.fetch, read]
  dsimp only
  rw [decoded]

/-- The same when the word lies in RAM. -/
theorem step_of_decoded_inRam {s : State} {i : Instr} (running : Running s) (inRam : InRam s.cfg s.pc 4)
    (decoded : decodeWord (pattern (ramNumber s s.pc 4)) = .ok i) : step s = exec i s :=
  step_of_decoded running (memRead_inRam (sz := .word) inRam) decoded

/-- Settles O38, from the branches of the step. -/
theorem stepRunsTheDecodedInstruction : Obligations.StepRunsTheDecodedInstruction := fun _ _ running =>
  ⟨fun _ _ => step_of_decoded running, step_of_decoded_inRam running⟩

/-- Settles O39, from the branches of the step. -/
theorem fetchesThatRunNothing : Obligations.FetchesThatRunNothing := by
  refine fun s running => ⟨fun t w read unrecognised => ?_, fun unmapped => ⟨?_, rfl⟩⟩
  · obtain ⟨-, -, pc, -, -, -, -, -, -, events, -⟩ := memRead_frame read
    rw [step_running running, runInstruction, State.fetch, read]
    dsimp only
    rw [unrecognised, ← pc, ← events]
    rfl
  · rw [step_running running, runInstruction, State.fetch, memRead_unmapped unmapped]
    rfl

/-- Settles O52: the fetch reads the number of the stored word. -/
theorem storeIsSeenByTheNextFetch : Obligations.StoreIsSeenByTheNextFetch := by
  intro s t rs1 rs2 imm i wf inRam run running pc decoded
  obtain ⟨holds, cfg⟩ := sw_next wf inRam run
  refine step_of_decoded_inRam running (by rwa [cfg, pc]) ?_
  rwa [pc, pattern_ramNumber_of_ramHolds holds cfg inRam.1]

end Sys2Proof.Proofs
end

section
/-!
Atomic instructions (45_atomics R210 to R222, 20_memory R88), and the accesses that no device answers
(60_exceptions R253).
-/

namespace Sys2Proof.Proofs

open Sys2Proof.Machine Sys2Proof.Safety Sys2Proof.Claims

/-! ### LR.W, SC.W and the AMOs by what the bus answers -/

theorem execLrW_of_read {s u : State} {rd rs1 : RegId} {v : Word} (aligned : Aligned4 (s.readReg rs1))
    (read : s.memRead (s.readReg rs1) .word = .ok (v, u)) :
    execLrW rd rs1 s = State.retireReg { u with resv := some (s.readReg rs1) } rd v := by
  rw [execLrW, if_pos ((wordAligned_iff _).mpr aligned), read]

theorem execLrW_of_error {s : State} {rd rs1 : RegId} {e : BusError} (aligned : Aligned4 (s.readReg rs1))
    (failed : s.memRead (s.readReg rs1) .word = .error e) : execLrW rd rs1 s = e.result (s.pc + 4) := by
  rw [execLrW, if_pos ((wordAligned_iff _).mpr aligned), failed]
  rfl

theorem execLrW_misaligned {s : State} {rd rs1 : RegId} (misaligned : ¬ Aligned4 (s.readReg rs1)) :
    execLrW rd rs1 s = .refused (.atomicMisaligned (s.readReg rs1)) := by
  rw [execLrW, if_neg (mt (wordAligned_iff _).mp misaligned)]

theorem execScW_of_write {s u : State} {rd rs1 rs2 : RegId} (held : s.resv = some (s.readReg rs1))
    (write : s.memWrite (s.readReg rs1) .word (s.readReg rs2) = .ok u) :
    execScW rd rs1 rs2 s = u.dropReservation.retireReg rd 0 := by
  rw [execScW, if_pos held, write]

theorem execScW_of_error {s : State} {rd rs1 rs2 : RegId} {e : BusError}
    (held : s.resv = some (s.readReg rs1))
    (failed : s.memWrite (s.readReg rs1) .word (s.readReg rs2) = .error e) :
    execScW rd rs1 rs2 s = e.result (s.pc + 4) := by
  rw [execScW, if_pos held, failed]
  rfl

theorem execScW_not_held {s : State} {rd rs1 rs2 : RegId} (notHeld : s.resv ≠ some (s.readReg rs1)) :
    execScW rd rs1 rs2 s = s.dropReservation.retireReg rd 1 := by
  rw [execScW, if_neg notHeld]

theorem amo_of_write {op : Word → Word → Word} {s u w : State} {rd rs1 rs2 : RegId} {v : Word}
    (aligned : Aligned4 (s.readReg rs1)) (read : s.memRead (s.readReg rs1) .word = .ok (v, u))
    (write : u.memWrite (s.readReg rs1) .word (op v (s.readReg rs2)) = .ok w) :
    amo op rd rs1 rs2 s = w.retireReg rd v := by
  rw [amo, if_pos ((wordAligned_iff _).mpr aligned), read]
  dsimp only
  rw [write]

theorem amo_of_error {op : Word → Word → Word} {s : State} {rd rs1 rs2 : RegId} {e : BusError}
    (aligned : Aligned4 (s.readReg rs1)) (failed : s.memRead (s.readReg rs1) .word = .error e) :
    amo op rd rs1 rs2 s = e.result (s.pc + 4) := by
  rw [amo, if_pos ((wordAligned_iff _).mpr aligned), failed]
  rfl

/-! ### The statements on LR.W and SC.W -/

/-- Settles O27, by the alignment and the answer of the bus. -/
theorem loadReserved : Obligations.LoadReserved := by
  intro s rd rs1 aq rl a
  have completes (aligned : Aligned4 a) (v : Word) (u : State) (read : s.memRead a .word = .ok (v, u)) :
      CompletesOver (.lrW rd rs1 aq rl) s { u with resv := some a } rd v := by
    obtain ⟨-, regs, pc, -⟩ := memRead_frame read
    exact completesOver_of_retireReg (execLrW_of_read aligned read) pc regs
  exact ⟨decodes_of_word rfl rfl, execLrW_misaligned, completes,
    fun aligned inRam => completes aligned _ s (memRead_inRam (sz := .word) inRam),
    fun aligned _ => execLrW_of_error aligned⟩

/-- An instruction that writes a word to RAM, ends the reservation and writes `x[rd]`. -/
theorem storesWordAndWrites_of_retireReg {i : Instr} {s : State} {a v w : Word} {rd : RegId}
    (wf : Memory.wf s.ram = true)
    (run : exec i s = (State.dropReservation
      { s with ram := s.ram.writeLe (ramOffset s.cfg a) 4 v }).retireReg rd w) :
    StoresWordAndWrites i s a v rd w :=
  ⟨_, run, rfl, ramHolds_of_writeLe wf rfl, regWritten_writeReg s rd w,
    rfl, ⟨rfl, rfl, rfl⟩, rfl, rfl, fun _ => rfl, rfl, rfl⟩

/-- Settles O28, by the reservation and the answer of the bus. -/
theorem storeConditional : Obligations.StoreConditional := by
  intro s rd rs1 rs2 aq rl a b
  refine ⟨decodes_of_word rfl rfl, fun notHeld => ?_, fun held u write => ?_, fun held wf inRam => ?_,
    fun held _ => execScW_of_error held⟩
  · exact completesOver_of_retireReg (execScW_not_held notHeld) rfl rfl
  · obtain ⟨-, regs, pc, -⟩ := memWrite_frame write
    exact completesOver_of_retireReg (execScW_of_write held write) pc regs
  · have run := execScW_of_write (rd := rd) held (memWrite_ram (sz := .word) b inRam)
    exact storesWordAndWrites_of_retireReg wf run

/-! ### The statements on the AMOs -/

/-- R212, for an operation `op` of the model that is `op'` on all words. -/
theorem amoRuns_of_amo (op : Word → Word → Word) {op' : Word → Word → Word} {i : Instr} {s : State}
    {rd rs1 rs2 : RegId} (run : exec i s = amo op rd rs1 rs2 s) (same : ∀ t b, op t b = op' t b) :
    AmoRuns i s rd rs1 rs2 op' := by
  obtain rfl : op = op' := funext₂ same
  refine fun aligned => ⟨fun v u w read write => ?_, fun e failed => ?_, fun wf inRam => ?_⟩
  · obtain ⟨-, regs, pc, -⟩ := memRead_frame read
    obtain ⟨-, regs', pc', -⟩ := memWrite_frame write
    exact completesOver_of_retireReg (run.trans (amo_of_write aligned read write)) (pc'.trans pc)
      (regs'.trans regs)
  · exact run.trans (amo_of_error aligned failed)
  · exact storesWordAndWrites_of_retireReg wf
      (run.trans (amo_of_write aligned (memRead_inRam (sz := .word) inRam) (memWrite_ram _ inRam)))

/-- Settles O29, operation by operation. -/
theorem amoArithmeticResults : Obligations.AmoArithmeticResults := by
  intro s rd rs1 rs2 aq rl
  exact ⟨⟨decodes_of_word rfl rfl, amoRuns_of_amo (fun _ b => b) rfl fun _ _ => rfl⟩,
    ⟨decodes_of_word rfl rfl, amoRuns_of_amo (· + ·) rfl add_eq_pattern⟩,
    ⟨(· ^^^ ·), bitwise_xor, decodes_of_word rfl rfl, amoRuns_of_amo (· ^^^ ·) rfl fun _ _ => rfl⟩,
    ⟨(· &&& ·), bitwise_and, decodes_of_word rfl rfl, amoRuns_of_amo (· &&& ·) rfl fun _ _ => rfl⟩,
    ⟨(· ||| ·), bitwise_or, decodes_of_word rfl rfl, amoRuns_of_amo (· ||| ·) rfl fun _ _ => rfl⟩⟩

theorem signedMin_eq_pattern (t b : Word) :
    (if t.toInt ≤ b.toInt then t else b) = pattern (min t.toInt b.toInt) := by
  rw [min_def, apply_ite pattern, pattern_toInt, pattern_toInt]

theorem signedMax_eq_pattern (t b : Word) :
    (if b.toInt ≤ t.toInt then t else b) = pattern (max t.toInt b.toInt) := by
  rw [max_comm, max_def, apply_ite pattern, pattern_toInt, pattern_toInt]

theorem unsignedMin_eq_pattern (t b : Word) :
    (if t.toNat ≤ b.toNat then t else b) = pattern (min t.toNat b.toNat : Nat) := by
  rw [min_def, apply_ite Nat.cast, apply_ite pattern, pattern_toNat, pattern_toNat]

theorem unsignedMax_eq_pattern (t b : Word) :
    (if b.toNat ≤ t.toNat then t else b) = pattern (max t.toNat b.toNat : Nat) := by
  rw [max_comm, max_def, apply_ite Nat.cast, apply_ite pattern, pattern_toNat, pattern_toNat]

/-- Settles O30, operation by operation. -/
theorem amoMinMaxResults : Obligations.AmoMinMaxResults := by
  intro s rd rs1 rs2 aq rl
  exact ⟨⟨decodes_of_word rfl rfl,
      amoRuns_of_amo (fun t b => if t.toInt ≤ b.toInt then t else b) rfl signedMin_eq_pattern⟩,
    ⟨decodes_of_word rfl rfl,
      amoRuns_of_amo (fun t b => if b.toInt ≤ t.toInt then t else b) rfl signedMax_eq_pattern⟩,
    ⟨decodes_of_word rfl rfl,
      amoRuns_of_amo (fun t b => if t.toNat ≤ b.toNat then t else b) rfl unsignedMin_eq_pattern⟩,
    ⟨decodes_of_word rfl rfl,
      amoRuns_of_amo (fun t b => if b.toNat ≤ t.toNat then t else b) rfl unsignedMax_eq_pattern⟩⟩

/-! ### Accesses that no device answers -/

theorem unmaps_of_load (sz : Size) (ext : Word → Word) {i : Instr} {s : State} {rd rs1 : RegId}
    {imm : BitVec 12} (run : exec i s = load sz ext rd rs1 imm s)
    (unmapped : Unmapped s.cfg (s.effectiveAddress rs1 imm) sz.bytes) :
    Unmaps i s (s.effectiveAddress rs1 imm) :=
  run.trans (load_of_error (memRead_unmapped unmapped))

theorem unmaps_of_store (sz : Size) {i : Instr} {s : State} {rs1 rs2 : RegId} {imm : BitVec 12}
    (run : exec i s = store sz rs1 rs2 imm s)
    (unmapped : Unmapped s.cfg (s.effectiveAddress rs1 imm) sz.bytes) :
    Unmaps i s (s.effectiveAddress rs1 imm) :=
  run.trans (store_of_error (memWrite_unmapped _ unmapped))

/-- Settles O26: the bus answers `unmapped`, and each instruction ends with it. -/
theorem unmappedAccessFaults : Obligations.UnmappedAccessFaults := by
  intro s rd rs1 rs2 imm aq rl a p
  refine ⟨fun h => ⟨?lb, ?lbu, ?sb⟩, fun h => ⟨?lh, ?lhu, ?sh⟩, fun h => ⟨?lw, ?sw⟩,
    fun h aligned => ⟨?lr, ?amos⟩, fun h held => ?sc⟩
  case lb => exact unmaps_of_load .byte sext8 rfl h
  case lbu => exact unmaps_of_load .byte zext8 rfl h
  case sb => exact unmaps_of_store .byte rfl h
  case lh => exact unmaps_of_load .half sext16 rfl h
  case lhu => exact unmaps_of_load .half zext16 rfl h
  case sh => exact unmaps_of_store .half rfl h
  case lw => exact unmaps_of_load .word id rfl h
  case sw => exact unmaps_of_store .word rfl h
  case lr => exact execLrW_of_error aligned (memRead_unmapped (sz := .word) h)
  case sc => exact execScW_of_error held (memWrite_unmapped (sz := .word) _ h)
  case amos =>
    have unmaps (i : Instr) (isAmo : i ∈ amos rd rs1 rs2 aq rl) : Unmaps i s p := by
      obtain ⟨op, run⟩ := exec_amo isAmo s
      exact run.trans (amo_of_error aligned (memRead_unmapped (sz := .word) h))
    refine ⟨unmaps _ ?_, unmaps _ ?_, unmaps _ ?_, unmaps _ ?_, unmaps _ ?_, unmaps _ ?_, unmaps _ ?_,
      unmaps _ ?_, unmaps _ ?_⟩
    all_goals simp [amos]

/-! ### From an LR.W to the SC.W -/

/-- R46, R88: an instruction that is no LR.W and writes no memory leaves RAM and the reservation. -/
theorem exec_keeps_reservation {i : Instr} {s t : State} (h : exec i s = .next t)
    (notLr : isLr i = false) (noWrite : writesMemory i = false) :
    t.cfg = s.cfg ∧ t.ram = s.ram ∧ t.resv = s.resv := by
  cases exec_next h with
  | plain _ _ _ _ _ _ _ _ eq | csr _ _ _ _ _ _ eq | syscall _ eq | breakpoint _ eq | wait _ eq
  | trapReturn _ eq => subst eq; exact ⟨rfl, rfl, rfl⟩
  | load _ _ _ _ _ _ _ read eq =>
    subst eq
    obtain ⟨cfg, -, -, -, -, -, -, resv, ram, -⟩ := memRead_frame read
    exact ⟨cfg, ram, resv⟩
  | reserve _ _ _ _ _ _ kind => subst kind; cases notLr
  | conditional _ _ _ _ _ _ kind | failed _ _ _ _ _ kind => subst kind; cases noWrite
  | store _ _ _ _ kind | amo _ _ _ _ _ _ kind => simp [writesMemory, kind] at noWrite

theorem execAll_keeps_reservation {between : List Instr} {s t : State}
    (harmless : ∀ i ∈ between, isLr i = false ∧ writesMemory i = false)
    (h : execAll between s = .next t) : t.cfg = s.cfg ∧ t.ram = s.ram ∧ t.resv = s.resv := by
  induction between generalizing s with
  | nil => cases h; exact ⟨rfl, rfl, rfl⟩
  | cons i rest ih =>
    rw [List.forall_mem_cons] at harmless
    obtain ⟨⟨notLr, noWrite⟩, harmless⟩ := harmless
    rw [execAll] at h
    split at h
    · next u run =>
      obtain ⟨cfg, ram, resv⟩ := exec_keeps_reservation run notLr noWrite
      obtain ⟨cfg', ram', resv'⟩ := ih harmless h
      exact ⟨cfg'.trans cfg, ram'.trans ram, resv'.trans resv⟩
    · cases h
    · cases h

/-- Settles O53: the reservation of the LR.W is still held at the SC.W. -/
theorem lrScForwardProgress : Obligations.LrScForwardProgress := by
  intro s t u rd rs1 rd' rs1' rs2' aq rl aq' rl' between wf aligned inRam lr harmless run same
  obtain ⟨-, v, w, read, rfl⟩ := execLrW_next lr
  obtain ⟨cfg, -, -, -, -, -, -, -, ram, -⟩ := memRead_frame read
  obtain ⟨cfg', ram', resv'⟩ := execAll_keeps_reservation harmless run
  rw [← same] at inRam ⊢
  obtain ⟨-, -, -, stores, -⟩ := storeConditional u rd' rs1' rs2' aq' rl'
  refine stores ?held ?canonical ?inRam
  case held => exact resv'.trans (congrArg some same.symm)
  case canonical => rwa [ram', State.setPc_ram, State.writeReg_ram, ram]
  case inRam => rwa [cfg', State.setPc_cfg, State.writeReg_cfg, cfg]

end Sys2Proof.Proofs
end

section
/-!
CSR, environment and interrupt-control instructions (46_zicsr R225 to R231, 47_system R235 to R238), and the
trap entry (60_exceptions R262).
-/

namespace Sys2Proof.Proofs

open Sys2Proof.Machine Sys2Proof.Safety Sys2Proof.Claims

/-! ### CSR instructions -/

/-- R30, R31: the eight numbers. -/
theorem ofNumber_eq_some_iff (n : CsrNumber) (c : Csr) :
    Csr.ofNumber n = some c ↔ (n, c) ∈ csrNumbers := by
  constructor
  · intro h
    unfold Csr.ofNumber at h
    split_ifs at h
    all_goals
      cases h
      simp [csrNumbers, *]
  · intro h
    simp only [csrNumbers, List.mem_cons, Prod.mk.injEq, List.not_mem_nil, or_false] at h
    rcases h with ⟨rfl, rfl⟩ | ⟨rfl, rfl⟩ | ⟨rfl, rfl⟩ | ⟨rfl, rfl⟩ | ⟨rfl, rfl⟩ | ⟨rfl, rfl⟩ |
      ⟨rfl, rfl⟩ | ⟨rfl, rfl⟩
    all_goals rfl

theorem ofNumber_eq_none {n : CsrNumber} (unsupported : ∀ c, (n, c) ∉ csrNumbers) : Csr.ofNumber n = none :=
  Option.eq_none_iff_forall_ne_some.mpr fun c known =>
    unsupported c ((ofNumber_eq_some_iff n c).mp known)

/-- R32, R225: a CSR instruction on one of the eight CSRs. -/
theorem csrRuns_of_csrAccess (new : Word → Word → Word) {i : Instr} {s : State} {rd : RegId}
    {n : CsrNumber} {src src' : Word} {c : Csr} (run : exec i s = csrAccess new rd n src s)
    (number : (n, c) ∈ csrNumbers) (source : src = src') :
    CsrRuns i s rd c (new (s.readCsr c) src') := by
  subst source
  have run' : exec i s = (s.writeCsr c (new (s.readCsr c) src)).retireReg rd (s.readCsr c) := by
    rw [run, csrAccess, (ofNumber_eq_some_iff n c).mpr number]
    rfl
  refine ⟨(s.writeCsr c (new (s.readCsr c) src)).csrs, fun j hj => ?_, fun d other => ?_,
    completesOver_of_retireReg run' rfl rfl⟩
  · rw [← State.readCsr, readCsr_writeCsr, if_pos rfl, getLsbD_maskedWrite _ _ _ _ hj]
  · rw [← State.readCsr, readCsr_writeCsr, if_neg other]

/-- R225 (a), R255: any other number. -/
theorem csrAccess_unsupported (new : Word → Word → Word) {rd : RegId} {n : CsrNumber} {src : Word}
    (s : State) (unsupported : ∀ c, (n, c) ∉ csrNumbers) :
    csrAccess new rd n src s = .fault (.unsupportedCsr n (s.pc + 4)) := by
  rw [csrAccess, ofNumber_eq_none unsupported]
  rfl

theorem bitwise_andNot (a b : Word) : Bitwise (fun x y => x && !y) a b (a &&& ~~~b) := by
  intro j hj
  rw [BitVec.getLsbD_and, BitVec.getLsbD_not, decide_eq_true hj, Bool.true_and]

theorem uimmValue_eq_pattern (uimm : BitVec 5) : uimmValue uimm = pattern uimm.toNat :=
  setWidth_eq_pattern uimm

/-- Settles O33: all six are `csrAccess`. -/
theorem unsupportedCsrFaults : Obligations.UnsupportedCsrFaults := fun s _ _ _ _ unsupported =>
  ⟨csrAccess_unsupported (fun _ src => src) s unsupported, csrAccess_unsupported (· ||| ·) s unsupported,
    csrAccess_unsupported (fun t src => t &&& ~~~src) s unsupported,
    csrAccess_unsupported (fun _ src => src) s unsupported, csrAccess_unsupported (· ||| ·) s unsupported,
    csrAccess_unsupported (fun t src => t &&& ~~~src) s unsupported⟩

/-- Settles O31: the three operations on `x[rs1]`. -/
theorem csrRegisterForms : Obligations.CsrRegisterForms := by
  intro s rd rs1 n
  refine ⟨decodes_of_word rfl rfl, decodes_of_word rfl rfl, decodes_of_word rfl rfl,
    fun c number => ?supported, fun unsupported => ?unsupported⟩
  case supported =>
    intro t src
    refine ⟨?rw, ⟨t ||| src, bitwise_or t src, ?rs⟩, ⟨t &&& ~~~src, bitwise_andNot t src, ?rc⟩⟩
    case rw => exact csrRuns_of_csrAccess (fun _ src => src) rfl number rfl
    case rs => exact csrRuns_of_csrAccess (· ||| ·) rfl number rfl
    case rc => exact csrRuns_of_csrAccess (fun t src => t &&& ~~~src) rfl number rfl
  case unsupported =>
    obtain ⟨write, set, clear, -⟩ := unsupportedCsrFaults s rd rs1 0 n unsupported
    simp only [List.forall_mem_cons, write, set, clear]
    exact ⟨⟨_, rfl⟩, ⟨_, rfl⟩, ⟨_, rfl⟩, by simp⟩

/-- Settles O32: the three operations on the immediate. -/
theorem csrImmediateForms : Obligations.CsrImmediateForms := by
  intro s rd uimm n
  refine ⟨decodes_of_word rfl rfl, decodes_of_word rfl rfl, decodes_of_word rfl rfl,
    fun c number => ?supported, fun unsupported => ?unsupported⟩
  case supported =>
    intro t src
    refine ⟨?rw, ⟨t ||| src, bitwise_or t src, ?rs⟩, ⟨t &&& ~~~src, bitwise_andNot t src, ?rc⟩⟩
    case rw => exact csrRuns_of_csrAccess (fun _ src => src) rfl number (uimmValue_eq_pattern uimm)
    case rs => exact csrRuns_of_csrAccess (· ||| ·) rfl number (uimmValue_eq_pattern uimm)
    case rc =>
      exact csrRuns_of_csrAccess (fun t src => t &&& ~~~src) rfl number (uimmValue_eq_pattern uimm)
  case unsupported =>
    obtain ⟨-, -, -, write, set, clear⟩ := unsupportedCsrFaults s rd 0 uimm n unsupported
    simp only [List.forall_mem_cons, write, set, clear]
    exact ⟨⟨_, rfl⟩, ⟨_, rfl⟩, ⟨_, rfl⟩, by simp⟩

/-! ### Environment and interrupt control -/

/-- R235: the seven argument registers in order. -/
theorem syscallArgs_eq (s : State) : s.syscallArgs = #v[s.readReg 10, s.readReg 11, s.readReg 12,
    s.readReg 13, s.readReg 14, s.readReg 15, s.readReg 16] := rfl

/-- R236: what EBREAK leaves, but for `PC`. -/
def afterBreakpoint (s : State) : State :=
  { s.notify (.breakpoint s.pc) with halted := s.halted || s.haltOnEbreak }

theorem ebreak_completes (s : State) : CompletesPlain .ebreak s (afterBreakpoint s) :=
  completesPlain_of_retire rfl rfl rfl

/-- Settles O34, instruction by instruction. -/
theorem environmentInstructions : Obligations.EnvironmentInstructions := by
  refine ⟨decodes_of_word rfl (by decide), decodes_of_word rfl (by decide),
    decodes_of_word rfl (by decide), fun s => ⟨?ecall, fun halts => ?halts, fun goesOn => ?goesOn, ?wfi⟩⟩
  case ecall =>
    rw [← syscallArgs_eq]
    exact completesPlain_of_retire (u := s.notify (.syscall (s.readReg 17) s.syscallArgs)) rfl rfl rfl
  case halts =>
    have completes := ebreak_completes s
    rwa [afterBreakpoint, halts, Bool.or_true] at completes
  case goesOn =>
    have completes := ebreak_completes s
    rwa [afterBreakpoint, goesOn, Bool.or_false] at completes
  case wfi => exact completesPlain_of_retire (u := { s with waiting := true }) rfl rfl rfl

/-- Settles O35, from the bits of `mstatus` after the return. -/
theorem mretReturns : Obligations.MretReturns := by
  refine ⟨decodes_of_word rfl (by decide), fun s => ⟨s.trapReturn, rfl, rfl, fun _ => rfl, fun j _ => ?_,
    rfl, ⟨rfl, rfl, rfl⟩, rfl, rfl, fun _ => rfl, rfl, rfl⟩⟩
  rw [getLsbD_trapReturn_mstatus, State.mpieFlag, bitMIE, bitMPIE]
  by_cases mie : j = 3 <;> simp [mie]

/-- Settles O37, from the bits of `mstatus` after the entry. -/
theorem trapEntry : Obligations.TrapEntry := by
  intro s notHalted enabled meie meip
  refine ⟨s.takeTrap, step_trap notHalted ((trapPending_iff s).mpr ⟨enabled, meie, meip⟩),
    alignDown4_toNat _, rfl, rfl, fun j _ => ?_, alignDown4_toNat _, rfl, rfl⟩
  have saved : s.mieFlag = true := enabled
  rw [getLsbD_takeTrap_mstatus, saved, bitMIE, bitMPIE]
  by_cases mpie : j = 7 <;> simp [mpie]

end Sys2Proof.Proofs
end

section
/-!
Which instruction changes the registers, the CSRs and the reservation, and which one can stop (10_state R22,
R32, R46, 60_exceptions R251, R252).
-/

namespace Sys2Proof.Proofs

open Sys2Proof.Machine Sys2Proof.Safety Sys2Proof.Claims

/-! ### Kinds of instructions -/

theorem usesBus_of_isLoad {i : Instr} (h : isLoad i = true) : usesBus i = true := by
  simp [usesBus, h]

theorem usesBus_of_writesMemory {i : Instr} (h : writesMemory i = true) : usesBus i = true := by
  simp [usesBus, h]

theorem writesMemory_of_isStore {i : Instr} (h : isStore i = true) : writesMemory i = true := by
  simp [writesMemory, h]

theorem writesMemory_of_isAmo {i : Instr} (h : isAmo i = true) : writesMemory i = true := by
  simp [writesMemory, h]

theorem usesBus_of_lrOrAmo {i : Instr} (h : (isLr i || isAmo i) = true) : usesBus i = true := by
  rcases Bool.or_eq_true_iff.mp h with lr | amo
  · simp [usesBus, lr]
  · exact usesBus_of_writesMemory (writesMemory_of_isAmo amo)

theorem not_writesMemory_of_isLoad {i : Instr} (h : isLoad i = true) : writesMemory i = false := by
  cases i with
  | lb | lh | lw | lbu | lhu => rfl
  | _ => cases h

theorem not_usesBus_of_isZicsr {i : Instr} (h : isZicsr i = true) : usesBus i = false := by
  cases i with
  | csrrw | csrrs | csrrc | csrrwi | csrrsi | csrrci => rfl
  | _ => cases h

/-! ### Instructions that write memory -/

/-- R46, R259: a completed write to memory, a failed SC.W among them, ends the reservation, and changes no
CSR but the external bit of `mip`, which it clears. -/
theorem exec_write_frame {i : Instr} {s t : State} (h : exec i s = .next t)
    (writes : writesMemory i = true) :
    t.resv = none ∧
    (t.csrs = s.csrs ∨ t.csrs = { s.csrs with mip := setBit s.csrs.mip bitExternal false }) := by
  cases exec_next h with
  | plain _ _ _ bus => simp [usesBus_of_writesMemory writes] at bus
  | load _ _ _ _ _ _ kind => simp [not_writesMemory_of_isLoad kind] at writes
  | csr _ _ _ _ kind =>
    have bus := not_usesBus_of_isZicsr kind
    simp [usesBus_of_writesMemory writes] at bus
  | reserve _ _ _ _ _ _ kind | syscall kind | breakpoint kind | wait kind | trapReturn kind =>
    subst kind
    cases writes
  | store _ _ _ _ _ write eq =>
    subst eq
    obtain ⟨-, -, -, -, -, -, resv, -, -, csrs⟩ := memWrite_frame write
    exact ⟨resv, csrs⟩
  | conditional _ _ _ _ _ _ _ _ write eq =>
    subst eq
    obtain ⟨-, -, -, -, -, -, -, -, -, csrs⟩ := memWrite_frame write
    exact ⟨rfl, csrs⟩
  | failed _ _ _ _ _ _ _ eq => subst eq; exact ⟨rfl, .inl rfl⟩
  | amo _ _ _ _ _ _ _ _ read write eq =>
    subst eq
    obtain ⟨-, -, -, -, -, -, csrs, -⟩ := memRead_frame read
    obtain ⟨-, -, -, -, -, -, resv, -, -, csrs'⟩ := memWrite_frame write
    rw [csrs] at csrs'
    exact ⟨resv, csrs'⟩

/-- Settles O43: LR.W reserves, a write to memory drops, and nothing else touches the reservation. -/
theorem reservationChanges : Obligations.ReservationChanges := by
  refine ⟨fun i s t h => ⟨fun rd rs1 aq rl lr => ?_, fun writes => (exec_write_frame h writes).1,
    fun notLr noWrite => ?_⟩, fun s => rfl⟩
  · subst lr
    obtain ⟨-, v, u, -, rfl⟩ := execLrW_next h
    rfl
  · obtain ⟨-, -, resv⟩ := exec_keeps_reservation h notLr noWrite
    exact resv

/-! ### CSRs -/

/-- R42: an instruction that is no Zicsr one, no MRET and no write to memory changes no CSR. -/
theorem exec_keeps_csrs {i : Instr} {s t : State} (h : exec i s = .next t) (notZicsr : isZicsr i = false)
    (notMret : i ≠ .mret) (noWrite : writesMemory i = false) : t.csrs = s.csrs := by
  cases exec_next h with
  | plain _ _ _ _ _ _ _ _ eq | syscall _ eq | breakpoint _ eq | wait _ eq => subst eq; rfl
  | load _ _ _ _ _ _ _ read eq | reserve _ _ _ _ _ _ _ _ read eq =>
    subst eq
    obtain ⟨-, -, -, -, -, -, csrs, -⟩ := memRead_frame read
    exact csrs
  | csr _ _ _ _ kind => simp [kind] at notZicsr
  | trapReturn kind => exact absurd kind notMret
  | conditional _ _ _ _ _ _ kind | failed _ _ _ _ _ kind => subst kind; cases noWrite
  | store _ _ _ _ kind => simp [writesMemory_of_isStore kind] at noWrite
  | amo _ _ _ _ _ _ kind => simp [writesMemory_of_isAmo kind] at noWrite

/-- R225: a completed Zicsr instruction is one masked write of a CSR, beside a register and `PC`. -/
theorem exec_zicsr {i : Instr} {s t : State} (h : exec i s = .next t) (zicsr : isZicsr i = true) :
    ∃ c v, ∀ d, t.readCsr d = (s.writeCsr c v).readCsr d := by
  have noBus := not_usesBus_of_isZicsr zicsr
  cases exec_next h with
  | csr _ _ c v _ _ eq => subst eq; exact ⟨c, v, fun _ => rfl⟩
  | plain _ _ _ _ csr => simp [zicsr] at csr
  | load _ _ _ _ _ _ kind => simp [usesBus_of_isLoad kind] at noBus
  | store _ _ _ _ kind => simp [usesBus_of_writesMemory (writesMemory_of_isStore kind)] at noBus
  | amo _ _ _ _ _ _ kind => simp [usesBus_of_writesMemory (writesMemory_of_isAmo kind)] at noBus
  | reserve _ _ _ _ _ _ kind | conditional _ _ _ _ _ _ kind | failed _ _ _ _ _ kind | syscall kind
  | breakpoint kind | wait kind | trapReturn kind => subst kind; cases zicsr

/-- Settles O46, kind by kind. -/
theorem csrsChangeOnlyByTheirInstructions : Obligations.CsrsChangeOnlyByTheirInstructions := by
  refine fun i s t h => ⟨exec_keeps_csrs h, fun writes => ?write, fun zicsr c j hj unwritable => ?zicsr⟩
  case write =>
    obtain ⟨-, csrs | csrs⟩ := exec_write_frame h writes
    · simp [State.readCsr, csrs]
    · refine ⟨fun c other => ?_, fun j _ notExternal => ?_, fun clear => ?_⟩
      · rw [State.readCsr, State.readCsr, csrs]
        cases c with
        | mip => exact absurd rfl other
        | _ => rfl
      · rw [csrs, getLsbD_setBit _ _ _ _ (by decide), bitExternal, if_neg notExternal]
      · rw [csrs, getLsbD_setBit _ _ _ _ (by decide), bitExternal, if_pos rfl]
  case zicsr =>
    obtain ⟨d, v, csrs⟩ := exec_zicsr h zicsr
    rw [csrs, readCsr_writeCsr]
    split
    · rw [getLsbD_maskedWrite _ _ _ _ hj, if_neg (by simp [unwritable])]
    · rfl

/-! ### Registers -/

theorem exec_regs {i : Instr} {s t : State} (h : exec i s = .next t) :
    ∃ rd v, t.regs = s.regs.write rd v := by
  cases exec_next h with
  | plain rd v _ _ _ _ _ _ eq => subst eq; exact ⟨rd, v, rfl⟩
  | csr rd _ _ _ _ _ eq => subst eq; exact ⟨rd, _, rfl⟩
  | failed rd _ _ _ _ _ _ eq => subst eq; exact ⟨rd, 1, rfl⟩
  | syscall _ eq | breakpoint _ eq | wait _ eq | trapReturn _ eq => subst eq; exact ⟨0, 0, rfl⟩
  | load _ _ _ rd _ w _ read eq =>
    subst eq
    obtain ⟨-, regs, -⟩ := memRead_frame read
    exact ⟨rd, w, by simp [regs]⟩
  | reserve rd _ _ _ v _ _ _ read eq =>
    subst eq
    obtain ⟨-, regs, -⟩ := memRead_frame read
    exact ⟨rd, v, by simp [regs]⟩
  | store _ _ _ _ _ write eq =>
    subst eq
    obtain ⟨-, regs, -⟩ := memWrite_frame write
    exact ⟨0, 0, regs⟩
  | conditional rd _ _ _ _ _ _ _ write eq =>
    subst eq
    obtain ⟨-, regs, -⟩ := memWrite_frame write
    exact ⟨rd, 0, by simp [regs]⟩
  | amo rd _ v _ _ _ _ _ read write eq =>
    subst eq
    obtain ⟨-, regs, -⟩ := memRead_frame read
    obtain ⟨-, regs', -⟩ := memWrite_frame write
    exact ⟨rd, v, by simp [regs, regs']⟩

theorem regWritten_of_regs {s t : State} {rd : RegId} {v : Word} (regs : t.regs = s.regs.write rd v) :
    RegWritten rd v s t := by
  intro r
  rw [State.readReg, regs]
  exact RegFile.read_write s.regs rd r v

theorem sameRegs_of_regs {s t : State} (regs : t.regs = s.regs) : SameRegs s t := by
  intro r
  rw [State.readReg, State.readReg, regs]

/-- R22: a step leaves the register file, or has run a decoded instruction, which writes one register. -/
theorem step_regs {s t : State} (h : step s = .next t) :
    t.regs = s.regs ∨ (Running s ∧ (∃ i, Fetches s i) ∧ ∃ rd v, t.regs = s.regs.write rd v) := by
  rcases step_next h with ⟨-, rfl⟩ | ⟨-, -, rfl⟩ | ⟨-, -, -, rfl⟩ |
    ⟨running, w, u, read, ⟨i, decoded, run⟩ | ⟨-, rfl⟩⟩
  · exact .inl rfl
  · exact .inl rfl
  · exact .inl rfl
  · obtain ⟨-, regs, -⟩ := memRead_frame read
    obtain ⟨rd, v, write⟩ := exec_regs run
    exact .inr ⟨running, ⟨i, w, u, read, decoded⟩, rd, v, regs ▸ write⟩
  · obtain ⟨-, regs, -⟩ := memRead_frame read
    exact .inl regs

/-- Settles O45, from what a step does to the register file. -/
theorem registerFile : Obligations.RegisterFile := by
  refine ⟨fun s r w v => ⟨rfl, s.readReg_writeReg w r v⟩, fun s t h => ⟨?atMostOne, fun idle => ?idle⟩,
    fun s t c notStep h => ?host⟩
  case atMostOne =>
    rcases step_regs h with same | ⟨-, -, rd, v, write⟩
    · exact ⟨0, 0, regWritten_of_regs same⟩
    · exact ⟨rd, v, regWritten_of_regs write⟩
  case idle =>
    rcases step_regs h with same | ⟨running, ⟨i, w, u, read, decoded⟩, -⟩
    · exact sameRegs_of_regs same
    · rcases idle with undecoded | notRunning
      · exact absurd decoded (undecoded w u i read)
      · exact absurd running notRunning
  case host =>
    cases c with
    | step => exact absurd rfl notStep
    | enqueue k c =>
      obtain ⟨-, rfl⟩ := enqueue_next h
      exact sameRegs_of_regs (State.signalIrq_regs _ _)
    | setHalted b | setHaltOnEbreak b =>
      cases h
      exact sameRegs_of_regs rfl

/-! ### Stops -/

theorem load_cases (sz : Size) (ext : Word → Word) (rd rs1 : RegId) (imm : BitVec 12) (s : State) :
    (∃ t, load sz ext rd rs1 imm s = .next t) ∨
    ∃ e : BusError, load sz ext rd rs1 imm s = e.result (s.pc + 4) := by
  unfold load
  split
  · next e _ => exact .inr ⟨e, rfl⟩
  · exact .inl ⟨_, rfl⟩

theorem store_cases (sz : Size) (rs1 rs2 : RegId) (imm : BitVec 12) (s : State) :
    (∃ t, store sz rs1 rs2 imm s = .next t) ∨
    ∃ e : BusError, store sz rs1 rs2 imm s = e.result (s.pc + 4) := by
  unfold store
  split
  · next e _ => exact .inr ⟨e, rfl⟩
  · exact .inl ⟨_, rfl⟩

theorem execScW_cases (rd rs1 rs2 : RegId) (s : State) :
    (∃ t, execScW rd rs1 rs2 s = .next t) ∨
    ∃ e : BusError, execScW rd rs1 rs2 s = e.result (s.pc + 4) := by
  unfold execScW
  dsimp only
  split
  · split
    · next e _ => exact .inr ⟨e, rfl⟩
    · exact .inl ⟨_, rfl⟩
  · exact .inl ⟨_, rfl⟩

theorem execLrW_cases (rd rs1 : RegId) (s : State) :
    (∃ t, execLrW rd rs1 s = .next t) ∨
    (∃ e : BusError, execLrW rd rs1 s = e.result (s.pc + 4)) ∨
    ∃ a, execLrW rd rs1 s = .refused (.atomicMisaligned a) := by
  unfold execLrW
  dsimp only
  split
  · split
    · next e _ => exact .inr (.inl ⟨e, rfl⟩)
    · exact .inl ⟨_, rfl⟩
  · exact .inr (.inr ⟨_, rfl⟩)

theorem amo_cases (op : Word → Word → Word) (rd rs1 rs2 : RegId) (s : State) :
    (∃ t, amo op rd rs1 rs2 s = .next t) ∨
    (∃ e : BusError, amo op rd rs1 rs2 s = e.result (s.pc + 4)) ∨
    ∃ a, amo op rd rs1 rs2 s = .refused (.atomicMisaligned a) := by
  unfold amo
  dsimp only
  split
  · split
    · next e _ => exact .inr (.inl ⟨e, rfl⟩)
    · split
      · next e _ => exact .inr (.inl ⟨e, rfl⟩)
      · exact .inl ⟨_, rfl⟩
  · exact .inr (.inr ⟨_, rfl⟩)

theorem csrAccess_cases (new : Word → Word → Word) (rd : RegId) (n : CsrNumber) (src : Word) (s : State) :
    (∃ t, csrAccess new rd n src s = .next t) ∨
    csrAccess new rd n src s = .fault (.unsupportedCsr n (s.pc + 4)) := by
  unfold csrAccess
  split
  · exact .inr rfl
  · exact .inl ⟨_, rfl⟩

theorem branch_completes (cond : Word → Word → Bool) (rs1 rs2 : RegId) (imm : BitVec 13) (s : State) :
    ∃ t, branch cond rs1 rs2 imm s = .next t := by
  unfold branch
  split
  · exact ⟨_, rfl⟩
  · exact ⟨_, rfl⟩

/-- Everything an instruction can answer: a state, or one of the stops of its kind (R251). -/
inductive Answer (i : Instr) (s : State) : Prop
  | next (t : State) (eq : exec i s = .next t)
  | bus (kind : usesBus i = true) (e : BusError) (eq : exec i s = e.result (s.pc + 4))
  | misaligned (kind : (isLr i || isAmo i) = true) (a : Word)
      (eq : exec i s = .refused (.atomicMisaligned a))
  | csr (kind : isZicsr i = true) (n : CsrNumber) (eq : exec i s = .fault (.unsupportedCsr n (s.pc + 4)))

theorem Answer.ofNext {i : Instr} {s : State} (h : ∃ t, exec i s = .next t) : Answer i s := by
  obtain ⟨t, eq⟩ := h
  exact .next t eq

theorem Answer.ofBus {i : Instr} {s : State} (kind : usesBus i = true)
    (h : (∃ t, exec i s = .next t) ∨ ∃ e : BusError, exec i s = e.result (s.pc + 4)) : Answer i s := by
  rcases h with ⟨t, eq⟩ | ⟨e, eq⟩
  · exact .next t eq
  · exact .bus kind e eq

theorem Answer.ofAligned {i : Instr} {s : State} (kind : (isLr i || isAmo i) = true)
    (h : (∃ t, exec i s = .next t) ∨ (∃ e : BusError, exec i s = e.result (s.pc + 4)) ∨
      ∃ a, exec i s = .refused (.atomicMisaligned a)) : Answer i s := by
  rcases h with ⟨t, eq⟩ | ⟨e, eq⟩ | ⟨a, eq⟩
  · exact .next t eq
  · exact .bus (usesBus_of_lrOrAmo kind) e eq
  · exact .misaligned kind a eq

theorem Answer.ofCsr {i : Instr} {s : State} {n : CsrNumber} (kind : isZicsr i = true)
    (h : (∃ t, exec i s = .next t) ∨ exec i s = .fault (.unsupportedCsr n (s.pc + 4))) :
    Answer i s := by
  rcases h with ⟨t, eq⟩ | eq
  · exact .next t eq
  · exact .csr kind n eq

/-- R251: what each of the 66 instructions can answer. -/
theorem exec_answer (i : Instr) (s : State) : Answer i s := by
  cases i with
  | lui | auipc | addi | slti | sltiu | xori | ori | andi | slli | srli | srai | add | sub | sll | slt
  | sltu | xor | srl | sra | or | and | mul | mulh | mulhsu | mulhu | div | divu | rem | remu | jal | jalr
  | ecall | ebreak | wfi | mret => exact .next _ rfl
  | beq | bne | blt | bge | bltu | bgeu =>
    refine .ofNext ?_
    simp only [exec, execBeq, execBne, execBlt, execBge, execBltu, execBgeu]
    exact branch_completes _ _ _ _ s
  | lb | lh | lw | lbu | lhu =>
    refine .ofBus rfl ?_
    simp only [exec, execLb, execLh, execLw, execLbu, execLhu]
    exact load_cases _ _ _ _ _ s
  | sb | sh | sw =>
    refine .ofBus rfl ?_
    simp only [exec, execSb, execSh, execSw]
    exact store_cases _ _ _ _ s
  | scW => exact .ofBus rfl (execScW_cases _ _ _ s)
  | lrW => exact .ofAligned rfl (execLrW_cases _ _ s)
  | amoswapW | amoaddW | amoxorW | amoandW | amoorW | amominW | amomaxW | amominuW | amomaxuW =>
    refine .ofAligned rfl ?_
    simp only [exec, execAmoswapW, execAmoaddW, execAmoxorW, execAmoandW, execAmoorW, execAmominW,
      execAmomaxW, execAmominuW, execAmomaxuW]
    exact amo_cases _ _ _ _ s
  | csrrw _ _ n | csrrs _ _ n | csrrc _ _ n | csrrwi _ _ n | csrrsi _ _ n | csrrci _ _ n =>
    refine .ofCsr (n := n) rfl ?_
    simp only [exec, execCsrrw, execCsrrs, execCsrrc, execCsrrwi, execCsrrsi, execCsrrci]
    exact csrAccess_cases _ _ _ _ s

/-- Settles O48, by what each instruction can answer. -/
theorem whichInstructionsStop : Obligations.WhichInstructionsStop := by
  refine fun i s => ⟨fun f faulted => ?fault, fun r refused => ?refusal, fun noBus notZicsr => ?completes⟩
  case fault =>
    cases exec_answer i s with
    | next t eq | misaligned _ _ eq => simp [faulted] at eq
    | csr kind n eq =>
      rw [faulted] at eq
      cases eq
      exact .inr ⟨n, rfl, kind⟩
    | bus kind e eq =>
      rw [faulted] at eq
      cases e with
      | unmapped a => cases eq; exact .inl ⟨a, rfl, kind⟩
      | ioUnspecified => cases eq
  case refusal =>
    cases exec_answer i s with
    | next t eq | csr _ _ eq => simp [refused] at eq
    | misaligned kind a eq =>
      rw [refused] at eq
      cases eq
      exact .inr ⟨a, rfl, kind⟩
    | bus kind e eq =>
      rw [refused] at eq
      cases e with
      | unmapped => cases eq
      | ioUnspecified a n w => cases eq; exact .inl ⟨a, n, w, rfl, kind⟩
  case completes =>
    cases exec_answer i s with
    | next t eq => exact ⟨t, eq⟩
    | bus kind => simp [kind] at noBus
    | misaligned kind => simp [usesBus_of_lrOrAmo kind] at noBus
    | csr kind => simp [kind] at notZicsr

/-- R252 (c): a fault of an instruction leaves `PC` at the next one and nothing else changed. -/
theorem stateLeft_of_exec_fault {i : Instr} {s : State} {f : Fault} (h : exec i s = .fault f) (t : State) :
    Fault.stateLeft f t = t.setPc (s.pc + 4) := by
  obtain ⟨faults, -, -⟩ := whichInstructionsStop i s
  rcases faults f h with ⟨a, rfl, -⟩ | ⟨n, rfl, -⟩
  · rfl
  · rfl

/-- Settles O47: the fault is the fetch's or the instruction's. -/
theorem faultsLeaveOnlyPc : Obligations.FaultsLeaveOnlyPc := by
  intro s f faulted
  rcases step_cases s with ⟨-, idle⟩ | ⟨-, -, trap⟩ | ⟨-, -, -, idle⟩ | ⟨running, run⟩
  · simp [faulted] at idle
  · simp [faulted] at trap
  · simp [faulted] at idle
  · refine ⟨running, ?_⟩
    rw [run] at faulted
    rcases runInstruction_cases s with ⟨e, read, eq⟩ | ⟨w, u, i, read, -, eq⟩ | ⟨w, u, -, -, eq⟩
    · rw [eq] at faulted
      cases e with
      | unmapped a => cases faulted; exact .inl ⟨rfl, _, read⟩
      | ioUnspecified => cases faulted
    · obtain ⟨-, -, pc, -⟩ := memRead_frame read
      rw [eq] at faulted
      exact .inr ⟨pc ▸ stateLeft_of_exec_fault faulted s, w, u, read⟩
    · simp [eq] at faulted

end Sys2Proof.Proofs
end

section
/-!
Construction and reset (70_reset_and_hazards R280 to R286, 20_memory R62, 60_exceptions R257).
-/

namespace Sys2Proof.Proofs

open Sys2Proof.Machine Sys2Proof.Safety

/-! ### The state after reset -/

theorem read_replicate (v : Word) (r : RegId) :
    RegFile.read (Vector.replicate 31 v) r = if r = 0 then 0 else v := by
  unfold RegFile.read
  have zero : r = 0 ↔ r.toNat = 0 := BitVec.toNat_inj.symm
  have inFile := r.isLt
  rw [if_congr zero rfl rfl]
  split
  · next isZero => rw [if_pos isZero]
  · next n later =>
    rw [if_neg (by omega)]
    simp [Vector.getD, show n < 31 by omega]

/-- R285, R286: the image from 0 upward, and zeros beyond it. -/
theorem readByte_ofImage (image : List Byte) (k : Nat) :
    Memory.readByte (Memory.ofImage image) k = image.getD k 0 := by
  rw [Memory.ofImage, Memory.readByte_writeBytes _ _ _ _ Memory.wf_nil]
  split
  · rw [Nat.sub_zero]
  · next outside => exact (List.getD_eq_default _ _ (by omega)).symm

/-- R54: every IO device is a fresh one. -/
theorem io_ofLaunch {p : Platform} {l : Launch} {d : IoState} (h : d ∈ (State.ofLaunch p l).io) :
    d = IoState.reset := by
  obtain ⟨-, -, fresh⟩ := List.mem_map.mp h
  exact fresh.symm

/-- Settles O57, field by field. -/
theorem resetState : Obligations.ResetState := by
  intro p l s built
  obtain ⟨-, -, rfl⟩ := (construct_ok_iff p l s).mp built
  refine ⟨rfl, read_replicate l.resetX, rfl, rfl, rfl, rfl, rfl, rfl, rfl, readByte_ofImage l.image,
    List.length_map _, fun d inIo => ?_⟩
  rw [io_ofLaunch inIo]
  exact ⟨rfl, rfl, fun j => by simp [IoState.reset]⟩

/-- The invariant after construction. -/
theorem inv_ofLaunch {p : Platform} {l : Launch} (wf : Platform.wf p = true)
    (fits : l.image.length ≤ p.ramSize) : Inv (State.ofLaunch p l) := by
  refine ⟨wf, Memory.wf_writeBytes _ _ _ Memory.wf_nil, fun c inRam => ?_, List.length_map _,
    fun _ d inIo => by rw [io_ofLaunch inIo], nofun⟩
  rcases Memory.mem_writeBytes _ _ _ c inRam with old | ⟨-, new⟩
  · cases old
  · show c.1 < p.ramSize
    omega

/-- Settles O50: the reset state is the constructed state of the default platform and launch. -/
theorem invariantAfterReset : Obligations.InvariantAfterReset := by
  have built (p : Platform) (l : Launch) (s : State) (h : construct p l = .ok s) : Inv s := by
    obtain ⟨wf, fits, rfl⟩ := (construct_ok_iff p l s).mp h
    exact inv_ofLaunch wf fits
  exact ⟨built Platform.default Launch.default _ (by decide), built⟩

/-! ### Which configurations build a machine -/

theorem forall_mem_ranges_iff (p : Platform) (P : Range → Prop) :
    (∀ d ∈ Platform.ranges p, P d) ↔ P (p.ramBase, p.ramSize) ∧ ∀ b ∈ p.ioBases, P (b, p.ioSize) := by
  rw [Platform.ranges, List.forall_mem_cons, List.forall_mem_map]

/-- R62: no two devices of the platform overlap. -/
theorem ranges_disjoint_iff (p : Platform) :
    ((Platform.ranges p).Pairwise fun d e => rangesDisjoint d e = true) ↔
      (∀ b ∈ p.ioBases, p.ramBase + p.ramSize ≤ b ∨ b + p.ioSize ≤ p.ramBase) ∧
      (∀ j k a b : Nat, j < k → p.ioBases[j]? = some a → p.ioBases[k]? = some b →
        a + p.ioSize ≤ b ∨ b + p.ioSize ≤ a) := by
  rw [Platform.ranges, List.pairwise_cons, List.forall_mem_map, List.pairwise_map,
    List.pairwise_iff_getElem]
  simp only [rangesDisjoint_iff]
  refine and_congr_right fun _ => ⟨fun h j k a b hjk hj hk => ?_, fun h j k hj hk hjk => ?_⟩
  · obtain ⟨inList, rfl⟩ := List.getElem?_eq_some_iff.mp hj
    obtain ⟨inList', rfl⟩ := List.getElem?_eq_some_iff.mp hk
    exact h j k inList inList' hjk
  · exact h j k _ _ hjk (List.getElem?_eq_getElem hj) (List.getElem?_eq_getElem hk)

/-- R257: what construction asks of a platform, as bounds. -/
theorem platform_wf_iff_bounds (p : Platform) :
    Platform.wf p = true ↔
      0 < p.ramSize ∧ p.ramBase + p.ramSize ≤ 2 ^ 32 ∧ 9 ≤ p.ioSize ∧
      (∀ b ∈ p.ioBases, b + p.ioSize ≤ 2 ^ 32 ∧
        (p.ramBase + p.ramSize ≤ b ∨ b + p.ioSize ≤ p.ramBase)) ∧
      (∀ j k a b : Nat, j < k → p.ioBases[j]? = some a → p.ioBases[k]? = some b →
        a + p.ioSize ≤ b ∨ b + p.ioSize ≤ a) := by
  rw [Platform.wf_iff, ranges_disjoint_iff, forall_mem_ranges_iff, addressSpaceEnd]
  constructor
  · rintro ⟨⟨⟨nonempty, inSpace⟩, ioInSpace⟩, ⟨fromRam, fromIo⟩, window⟩
    exact ⟨Nat.pos_of_ne_zero nonempty, inSpace, window,
      fun b inIo => ⟨(ioInSpace b inIo).2, fromRam b inIo⟩, fromIo⟩
  · rintro ⟨nonempty, inSpace, window, io, fromIo⟩
    refine ⟨⟨⟨Nat.ne_of_gt nonempty, inSpace⟩, fun b inIo => ⟨?_, (io b inIo).1⟩⟩,
      ⟨fun b inIo => (io b inIo).2, fromIo⟩, window⟩
    show p.ioSize ≠ 0
    omega

/-- Settles O58: a machine is built exactly when the platform is well formed and the image fits. -/
theorem whichConfigurationsBuildAMachine : Obligations.WhichConfigurationsBuildAMachine := by
  intro p l
  have builds : (∃ s, construct p l = .ok s) ↔ Platform.wf p = true ∧ l.image.length ≤ p.ramSize := by
    simp only [construct_ok_iff, exists_and_left, exists_eq, and_true]
  rw [builds, platform_wf_iff_bounds]
  tauto

end Sys2Proof.Proofs
end
